-- ==== Sys2Proof/Word.lean ====
section
/-! DEFINITION. The words of the bits.js CORE (spec 00_scope R7, R12; 30_encoding R71, R76): plain bit vectors, bit 0 the least significant. -/

namespace Sys2Proof

/-- A byte of any address space: bits 7 down to 0 (R7, R12). -/
abbrev Byte := BitVec 8

/-- A 32-bit value: the reader's register, an operand field, a response field (R7, R71, R76). -/
abbrev Word := BitVec 32

/-- A command word of the one format C72 (R71). -/
abbrev CommandWord := BitVec 72

/-- A response word of the one format P104 (R76). -/
abbrev ResponseWord := BitVec 104

end Sys2Proof
end

