-- ==== Sys2Proof/Syntax.lean ====
section
/-! DEFINITION. The command set (30_encoding R73, R78): one constructor per row of spec/opcode_table.json, in the
table's order, and the assembler's shorthand forms (R88, R89), which have no row. Operands are the whole 32-bit fields
of the command word, before any reading as a signed or unsigned number (R74). -/

namespace Sys2Proof

/-- A command of the core (R78). Unused operand fields are dropped by the decoder (R75). -/
inductive Instr where
  /-- `R.PEEK len` (40_reader R103) -/
  | rPeek (len : Word)
  /-- `R.TAKE len` (40_reader R104) -/
  | rTake (len : Word)
  /-- `R.SKIP len` (40_reader R110) -/
  | rSkip (len : Word)
  /-- `R.ISALIGNED` (40_reader R112) -/
  | rIsAligned
  /-- `R.BYTEALIGN` (40_reader R113) -/
  | rByteAlign
  /-- `W.WRITE value, width` (41_writer R133) -/
  | wWrite (value width : Word)
  /-- `W.SKIP width` (41_writer R138) -/
  | wSkip (width : Word)
  /-- `W.ISALIGNED` (41_writer R140) -/
  | wIsAligned
  /-- `W.BYTEALIGN` (41_writer R141) -/
  | wByteAlign
  /-- `W.BYTELENGTH` (41_writer R143) -/
  | wByteLength
  /-- `W.COPYTO offset, dlen` (41_writer R145) -/
  | wCopyTo (offset dlen : Word)
deriving DecidableEq, Repr

/-- A pseudo-instruction of the assembler (R88, R89); there are no others (R91). -/
inductive Pseudo where
  /-- `W.WRITE<n> v1, ..., vk`: the width n, 1 to 32, and the values (R88) -/
  | writeN (n : Nat) (values : List Word)
  /-- `W.ON` (R89) -/
  | on
  /-- `W.OFF` (R89) -/
  | off
deriving DecidableEq, Repr

/-- The two executors of commands (00_scope R10; "unit" in the glossary). -/
inductive CoreUnit where
  | reader
  | writer
deriving DecidableEq, Repr

end Sys2Proof
end

