-- ==== Sys2Proof/WellFormed.lean ====
section
/-! DEFINITION. Which terms stand for something the spec's encodings can express. A command's operands are whole 32-bit
fields with no excluded value (30_encoding R74, R75): a width of 0 or of 33 is a legal command that answers RangeError
(60_exceptions R182), so `Instr.wellFormed` excludes nothing, constructor by constructor. What can be ill-formed is a
pseudo-instruction (R88: n in 1 to 32), a command word that is not as the assembler emits it (R75), and a writer
configuration outside the ranges of 10_state R44. -/

namespace Sys2Proof

/-- Every value of every operand field is admitted by the encoding (R74, R75). -/
def Instr.wellFormed : Instr → Bool
  | .rPeek _ => true
  | .rTake _ => true
  | .rSkip _ => true
  | .rIsAligned => true
  | .rByteAlign => true
  | .wWrite _ _ => true
  | .wSkip _ => true
  | .wIsAligned => true
  | .wByteAlign => true
  | .wByteLength => true
  | .wCopyTo _ _ => true

/-- There are 32 mnemonics `W.WRITE1` to `W.WRITE32` (R88). -/
def Pseudo.wellFormed : Pseudo → Bool
  | .writeN n _ => decide (1 ≤ n) && decide (n ≤ 32)
  | .on => true
  | .off => true

/-- The ranges 10_state R44 gives the writer's configuration inputs: `WDEFCAP` and `WCHUNK` from 1 to `MAX_CAP`,
`WBUFLEN` at most `MAX_CAP`, and every listed byte of `BUF_INIT` inside the buffer. -/
def writerInputsWellFormed (maxCap : Word) (wbuflen wdefcap wchunk : Word) (bufInit : List (Nat × Byte)) : Bool :=
  decide (1 ≤ wdefcap.toNat) && decide (wdefcap.toNat ≤ maxCap.toNat) &&
  decide (1 ≤ wchunk.toNat) && decide (wchunk.toNat ≤ maxCap.toNat) &&
  decide (wbuflen.toNat ≤ maxCap.toNat) && bufInit.all fun c => decide (c.1 < wbuflen.toNat)

end Sys2Proof
end

