-- ==== Sys2Proof/Decode.lean ====
section
/-! DEFINITION. Decoding of a command word (30_encoding R71 to R80), total, rejecting by name; the encoder from the same
table; the expansion of the pseudo-instructions (R88, R89). Everything here may be mended by a later repair. -/

namespace Sys2Proof

/-- Why a command word is no command. -/
inductive DecodeReject where
  /-- `op` is not in the opcode map (R79) -/
  | illegalOpcode (op : BitVec 8)
deriving DecidableEq, Repr

/-- `op = cmd[71:64]` (R71). -/
def opField (w : CommandWord) : BitVec 8 := w.extractLsb' 64 8

/-- `A = cmd[63:32]` (R71). -/
def aField (w : CommandWord) : Word := w.extractLsb' 32 32

/-- `B = cmd[31:0]` (R71). -/
def bField (w : CommandWord) : Word := w.extractLsb' 0 32

/-- A command word of format C72 (R71). -/
def commandWord (op : BitVec 8) (a b : Word) : CommandWord := op ++ a ++ b

/-- The decoding procedure (R80): `op` selects the row of R78, `A` and `B` are its operands by R73; fields the row does
not use are ignored (R75); any other `op` is illegal (R79). -/
def decode (w : CommandWord) : Except DecodeReject Instr :=
  match opField w with
  | 0x01#8 => .ok (.rPeek (aField w))
  | 0x02#8 => .ok (.rTake (aField w))
  | 0x03#8 => .ok (.rSkip (aField w))
  | 0x04#8 => .ok .rIsAligned
  | 0x05#8 => .ok .rByteAlign
  | 0x10#8 => .ok (.wWrite (aField w) (bField w))
  | 0x11#8 => .ok (.wSkip (aField w))
  | 0x12#8 => .ok .wIsAligned
  | 0x13#8 => .ok .wByteAlign
  | 0x14#8 => .ok .wByteLength
  | 0x15#8 => .ok (.wCopyTo (aField w) (bField w))
  | op => .error (.illegalOpcode op)

/-- The opcode of a command (R78). -/
def opcodeOf : Instr → BitVec 8
  | .rPeek _ => 0x01#8
  | .rTake _ => 0x02#8
  | .rSkip _ => 0x03#8
  | .rIsAligned => 0x04#8
  | .rByteAlign => 0x05#8
  | .wWrite _ _ => 0x10#8
  | .wSkip _ => 0x11#8
  | .wIsAligned => 0x12#8
  | .wByteAlign => 0x13#8
  | .wByteLength => 0x14#8
  | .wCopyTo _ _ => 0x15#8

/-- The command word the assembler emits: 0 in the fields the command does not use (R73, R75). -/
def encode : Instr → CommandWord
  | .rPeek len => commandWord (opcodeOf (.rPeek len)) len 0#32
  | .rTake len => commandWord (opcodeOf (.rTake len)) len 0#32
  | .rSkip len => commandWord (opcodeOf (.rSkip len)) len 0#32
  | .rIsAligned => commandWord (opcodeOf .rIsAligned) 0#32 0#32
  | .rByteAlign => commandWord (opcodeOf .rByteAlign) 0#32 0#32
  | .wWrite value width => commandWord (opcodeOf (.wWrite value width)) value width
  | .wSkip width => commandWord (opcodeOf (.wSkip width)) width 0#32
  | .wIsAligned => commandWord (opcodeOf .wIsAligned) 0#32 0#32
  | .wByteAlign => commandWord (opcodeOf .wByteAlign) 0#32 0#32
  | .wByteLength => commandWord (opcodeOf .wByteLength) 0#32 0#32
  | .wCopyTo offset dlen => commandWord (opcodeOf (.wCopyTo offset dlen)) offset dlen

/-- `op[7:4]` selects the unit: 0 the reader, 1 the writer, all other values none (R72). -/
def selectedUnit (op : BitVec 8) : Option CoreUnit :=
  match op.extractLsb' 4 4 with
  | 0x0#4 => some .reader
  | 0x1#4 => some .writer
  | _ => none

/-- The unit whose command an instruction is (R78). -/
def unitOf : Instr → CoreUnit
  | .rPeek _ => .reader
  | .rTake _ => .reader
  | .rSkip _ => .reader
  | .rIsAligned => .reader
  | .rByteAlign => .reader
  | .wWrite _ _ => .writer
  | .wSkip _ => .writer
  | .wIsAligned => .writer
  | .wByteAlign => .writer
  | .wByteLength => .writer
  | .wCopyTo _ _ => .writer

/-- The separate commands a pseudo-instruction stands for, in order (R88 to R90). -/
def expandPseudo : Pseudo → List Instr
  | .writeN n values => values.map fun v => .wWrite v (BitVec.ofNat 32 n)
  | .on => [.wWrite 1#32 1#32]
  | .off => [.wWrite 0#32 1#32]

/-- The word of an instruction whose `nbits` low bits are `w` and whose other bits are 0, numbered as
spec/opcode_table.json numbers them (one word of 72 bits, bit 0 its least significant). -/
def tableWord (nbits w : Nat) : CommandWord := BitVec.ofNat 72 (w % 2 ^ nbits)

/-- The instruction the decoder reads from `tableWord nbits w`. -/
def decodeTableWord (nbits w : Nat) : Option Instr :=
  match decode (tableWord nbits w) with
  | .ok i => some i
  | .error _ => none

end Sys2Proof
end

