-- ==== Sys2Proof/Config.lean ====
section
/-! DEFINITION. What the spec leaves to the implementation or leaves unspecified: the growth strategies a writer can
be configured with (10_state R36, R44), and the free values that stand in a dead unit's state (60_exceptions R192). -/

namespace Sys2Proof

/-- The writer's effective growth strategy `w.gsel` (10_state R36, 42_growth R160 to R164). -/
inductive Strategy where
  | doubling
  | chunked
  | unsupported
deriving DecidableEq, Repr, Inhabited

/-! ### Free values

After EndOfStream the reader's state is unspecified, after BufferOverflow the writer's is (R136, R192; 93 U1, U2).
Each unspecified field takes one of these constants, which have no body, applied to State's counter `freeIndex`:
nothing constrains them (log entries 3 and 4). -/

/-- FREE VALUE: `r.cursorByte` of a dead reader (log entry 3). -/
opaque Config.deadReaderCursorByte : Nat → Nat
/-- FREE VALUE: `r.available` of a dead reader (log entry 3). -/
opaque Config.deadReaderAvailable : Nat → Nat
/-- FREE VALUE: `r.register` of a dead reader (log entry 3). -/
opaque Config.deadReaderRegister : Nat → Word
/-- FREE VALUE: `w.cursorByte` of a dead writer (log entry 4). -/
opaque Config.deadWriterCursorByte : Nat → Nat
/-- FREE VALUE: `w.bitOffset` of a dead writer (log entry 4). -/
opaque Config.deadWriterBitOffset : Nat → Fin 8
/-- FREE VALUE: `w.hasStorage` of a dead writer (log entry 4). -/
opaque Config.deadWriterHasStorage : Nat → Bool
/-- FREE VALUE: `w.capacity` of a dead writer (log entry 4). -/
opaque Config.deadWriterCapacity : Nat → Nat
/-- FREE VALUE: `w.gsel` of a dead writer (log entry 4). -/
opaque Config.deadWriterGsel : Nat → Strategy
/-- FREE VALUE: `info_a` of a BufferOverflow whose needed capacity is 2^32 or more, so that the 32-bit field cannot hold it
(log entry 19). -/
opaque Config.neededCapacityInfo : Nat → Word
/-- FREE VALUE: the bytes of `STO` of a dead writer (log entry 4). -/
opaque Config.deadWriterStorage : Nat → List Host.Cell

end Sys2Proof
end

