-- ==== Sys2Proof/Machine/State.lean ====
section
/-! DEFINITION. The state of the bits.js CORE as plain data (10_state), the reasons a step can stop, and the machine
right after reset (10_state R48, 70 R210, R211). -/

namespace Sys2Proof.Machine

/-- The three address spaces (10_state R45). -/
inductive Space where
  | src
  | sto
  | dst
deriving DecidableEq, Repr

/-- The bytes of one space: (index, byte) pairs in canonical form (`Memory.wf` in Machine/Ops.lean). -/
abbrev Memory := List Host.Cell

/-- The reader unit (10_state section 1). -/
structure Reader where
  /-- `SRC`, the immutable byte source bound at reset (R20) -/
  source : Memory
  /-- `RSRCLEN` as sampled at reset: `N`, the length of `SRC` in bytes (R44) -/
  rsrclen : Word
  /-- `r.cursorByte`: index of the next byte of `SRC` not yet loaded (R21) -/
  cursorByte : Nat
  /-- `r.available`: count of valid buffered bits (R23) -/
  available : Nat
  /-- `r.register`: the valid bits left-justified, the others zero (R22, R25) -/
  register : Word
  /-- the dead mark (60_exceptions R192) -/
  dead : Bool
deriving DecidableEq, Repr

/-- The writer unit (10_state section 3). -/
structure Writer where
  /-- `WCFG` as sampled at reset: `GSEL` in bits 1:0, `BUF` in bit 2 (R44) -/
  wcfg : BitVec 3
  /-- `WBUFLEN` as sampled at reset (R44) -/
  wbuflen : Word
  /-- `WDEFCAP` as sampled at reset: `DEFAULT_CAP` (R44) -/
  wdefcap : Word
  /-- `WCHUNK` as sampled at reset: `CHUNK` (R44) -/
  wchunk : Word
  /-- `w.gsel`: the effective growth strategy (R36) -/
  gsel : Strategy
  /-- `w.hasStorage` (R34) -/
  hasStorage : Bool
  /-- `w.capacity`; reads as 0 when there is no storage (R35) -/
  capacity : Nat
  /-- `STO` (R31) -/
  storage : Memory
  /-- `w.cursorByte`: index of the byte being assembled (R32) -/
  cursorByte : Nat
  /-- `w.bitOffset`: bits already written into that byte (R33) -/
  bitOffset : Fin 8
  /-- the dead mark (60_exceptions R192) -/
  dead : Bool
deriving DecidableEq, Repr

/-- The fields of a response word, format P104 (30_encoding R76). -/
structure Response where
  status : BitVec 8
  value : Word
  infoA : Word
  infoB : Word
deriving DecidableEq, Repr

/-- What the host presents to the core (30_encoding R70; 70 R210): a command word, or the reset of one unit with the
configuration inputs the unit samples (10_state R43, R44). Log entry 1. -/
inductive HostEvent where
  /-- one 72-bit command word -/
  | command (word : CommandWord)
  /-- reset of the reader: `RSRCLEN` and the bytes of `SRC` (R212) -/
  | resetReader (rsrclen : Word) (source : List Host.Cell)
  /-- reset of the writer: `WCFG`, `WBUFLEN`, `WDEFCAP`, `WCHUNK` and `BUF_INIT` (R213) -/
  | resetWriter (wcfg : BitVec 3) (wbuflen wdefcap wchunk : Word) (bufInit : List Host.Cell)
deriving DecidableEq, Repr

/-- The whole machine: the two units, the host's destination space, the parameter `MAX_CAP`, and the host's side. -/
structure State where
  reader : Reader
  writer : Writer
  /-- `DST`, the space `W.COPYTO` writes (R45); log entry 11 -/
  dst : Memory
  /-- `MAX_CAP` (00_scope R8), a parameter no step changes; log entry 10 -/
  maxCap : Word
  /-- the response last given (30_encoding R70, R76), none before the first; log entry 12 -/
  response : Option Response
  /-- the MODEL's own: what the host presents next, in its order; log entry 1 -/
  host : List HostEvent
  /-- the MODEL's own: numbers the free values of dead units; log entries 3 and 4 -/
  freeIndex : Nat
deriving DecidableEq, Repr

/-- Why the machine stops with a fault. The spec has no trap: its errors are responses (60_exceptions R181). -/
inductive Fault where
  /-- Raised by `W.COPYTO` when `byteLength` exceeds the capacity, so that it would read index `index` of `STO`, which
  does not exist. 20_memory R62 says this never happens, and it does not in a state that keeps 10_state R39. Safe: the
  model stops where the spec's invariant is already broken (log entry 14). -/
  | outsideStorage (index : Nat)
deriving DecidableEq, Repr

/-- Why a step has no meaning. -/
inductive Refusal where
  /-- No arm of exec answers so in this model: every command has its meaning. Safe. -/
  | notModelled (mnemonic : String)
  /-- Raised for any command presented to a dead reader: "every command presented to a dead unit before its next
  reset has no defined response and no defined effect" (60_exceptions R192). Safe (log entry 5). -/
  | deadReader
  /-- Raised for any command presented to a dead writer (R192). Safe (log entry 5). -/
  | deadWriter
  /-- Raised for a command word whose `op[7:4]` selects no unit when both units are dead, so that no unit is left to
  answer it (30_encoding R72, R79; R192). Safe (log entry 6). -/
  | noLiveUnit
  /-- Raised for a reset of the writer that supplies a buffer longer than `MAX_CAP` (93 U8: `refuse`). Safe (log
  entry 10). -/
  | bufferBeyondMaxCap
deriving DecidableEq, Repr

/-- The machine after the reset of both units (10_state R48) with the configuration inputs of log entry 2: an empty
source, no supplied buffer, `GSEL` AUTO, `DEFAULT_CAP` and `CHUNK` 1, and `MAX_CAP` at its default. -/
def State.reset : State where
  reader :=
    { source := [], rsrclen := 0#32, cursorByte := 0, available := 0, register := 0#32, dead := false }
  writer :=
    { wcfg := 0#3, wbuflen := 0#32, wdefcap := 1#32, wchunk := 1#32, gsel := .doubling, hasStorage := false,
      capacity := 0, storage := [], cursorByte := 0, bitOffset := 0, dead := false }
  dst := []
  maxCap := 0xFFFFFFFF#32
  response := none
  host := []
  freeIndex := 0

end Sys2Proof.Machine
end

