-- ==== Sys2Proof/Machine/Ops.lean ====
section
/-! DEFINITION. The shared operations: the 32-bit operators (00_scope R14), memory, the derived quantities of both
units, responses, and taking an error (60_exceptions R180 to R192). -/

namespace Sys2Proof.Machine

/-! ### Operators on 32-bit values (00_scope R14); no shift count is reduced modulo 32 -/

/-- `mask(n) = 2^n - 1`. -/
def mask (n : Nat) : Word := BitVec.ofNat 32 (2 ^ n - 1)

/-- `shl32(a, n) = (a * 2^n) mod 2^32`. -/
def shl32 (a : Word) (n : Nat) : Word := a <<< n

/-- `a >> n = floor(a / 2^n)`. -/
def shr32 (a : Word) (n : Nat) : Word := a >>> n

/-- `zext_32` of a byte (00_scope R15). -/
def zext32 (b : Byte) : Word := b.setWidth 32

/-! ### Memory (20_memory) -/

/-- What a byte that is not listed reads as: in `SRC` and `STO` 0x00, in `DST` no value (log entry 8). -/
def unlisted : Space → Option Byte
  | .src => some 0x00#8
  | .sto => some 0x00#8
  | .dst => none

/-- The byte listed at an index, if one is. -/
def cellAt : Memory → Nat → Option Byte
  | [], _ => none
  | (b, x) :: m, a => if a = b then some x else cellAt m a

/-- What the index `a` of a space reads as, wherever the space ends. -/
def memRead (sp : Space) (m : Memory) (a : Nat) : Option Byte := (cellAt m a).or (unlisted sp)

/-- The byte at index `a` of `SRC` or `STO`, used only at an index that exists (20_memory R62). -/
def byteAt (sp : Space) (m : Memory) (a : Nat) : Byte := (memRead sp m a).getD 0x00#8

/-- An entry in front of a canonical rest, left out where an unlisted index reads the same. -/
def putCell (sp : Space) (a : Nat) (v : Byte) (m : Memory) : Memory :=
  if unlisted sp = some v then m else (a, v) :: m

/-- `MemWrite(space, a, 1, v)` (20_memory R50), keeping the canonical form. -/
def memWrite (sp : Space) : Memory → Nat → Byte → Memory
  | [], a, v => putCell sp a v []
  | (b, x) :: m, a, v =>
    if a < b then putCell sp a v ((b, x) :: m)
    else if a = b then putCell sp a v m
    else (b, x) :: memWrite sp m a v

/-- The canonical form: indices strictly rising, and no entry equal to what an unlisted index reads as. -/
def Memory.wf (sp : Space) (m : Memory) : Bool :=
  decide (m.Pairwise fun c d => c.1 < d.1) && m.all fun c => decide (unlisted sp ≠ some c.2)

/-- No entry at or past `len`. -/
def memBelow (len : Nat) (m : Memory) : Bool := m.all fun c => decide (c.1 < len)

/-- The entries below `len`. -/
def memCut (len : Nat) (m : Memory) : Memory := m.filter fun c => decide (c.1 < len)

/-- The canonical memory that holds the bytes of a list; where an index is listed twice the first entry stands. -/
def memOfCells (sp : Space) (cells : List Host.Cell) : Memory :=
  cells.foldr (fun c m => memWrite sp m c.1 c.2) []

/-- The contents a host supplies for a space of `len` bytes (log entry 9). -/
def memImage (sp : Space) (len : Nat) (cells : List Host.Cell) : Memory := memCut len (memOfCells sp cells)

/-! ### Derived quantities of the reader (10_state R24) -/

/-- `N`, the length of `SRC` in bytes. -/
def srcLen (r : Reader) : Nat := r.rsrclen.toNat

/-- `MemRead(SRC, a, 1)`; there is no byte at or past `N`. -/
def readSrc (r : Reader) (a : Nat) : Option Byte := if a < srcLen r then memRead .src r.source a else none

/-- `pos_r = r.cursorByte * 8 - r.available` (R24). -/
def posR (r : Reader) : Nat := r.cursorByte * 8 - r.available

/-- `rem0 = 8 * N - pos_r`, the unconsumed stream bits (40_reader, opening). -/
def streamLeft (r : Reader) : Nat := 8 * srcLen r - posR r

/-! ### Derived quantities of the writer (10_state R35 to R38) -/

/-- `w.capacity`, read as 0 when there is no storage (R35). -/
def cap (w : Writer) : Nat := if w.hasStorage then w.capacity else 0

/-- `MemRead(STO, a, 1)`; there is no byte at or past the capacity. -/
def readSto (w : Writer) (a : Nat) : Option Byte := if a < cap w then memRead .sto w.storage a else none

/-- `pos_w = w.cursorByte * 8 + w.bitOffset` (R37). -/
def posW (w : Writer) : Nat := w.cursorByte * 8 + w.bitOffset.val

/-- `byteLength = w.cursorByte + (w.bitOffset == 0 ? 0 : 1)` (R38). -/
def byteLength (w : Writer) : Nat := w.cursorByte + (if w.bitOffset = 0 then 0 else 1)

/-- The read-only view `VIEW(i) = STO[i]`, 0 ≤ i < `byteLength` (R46); a dead writer has none (93 U1). -/
def view (w : Writer) (i : Nat) : Option Byte :=
  if w.dead = false ∧ i < byteLength w then readSto w i else none

/-- `MemRead(DST, a, 1)`: the host's look at the destination space. -/
def readDst (s : State) (a : Nat) : Option Byte := memRead .dst s.dst a

/-! ### Responses (30_encoding R76) and errors (60_exceptions R180) -/

/-- An error a command raises, with its detail (R180 to R189; D31). -/
inductive Raised where
  /-- `RangeError(raw operand, 0)` (R182) -/
  | rangeError (operand : Word)
  /-- `EndOfStream(len, rem0)` (R183) -/
  | endOfStream (len left : Word)
  /-- `UnalignedPeek(available, len)` (R185) -/
  | unalignedPeek (available len : Word)
  /-- `BufferOverflow(index + 1, capacity)` (R186) -/
  | bufferOverflow (needed capacity : Word)
  /-- `InsufficientSpace(byteLength, space)` (R187) -/
  | insufficientSpace (byteLength space : Word)
  /-- `IllegalCommand(op, 0)` (R189) -/
  | illegalCommand (op : Word)
deriving DecidableEq, Repr

/-- The error codes (R180). -/
def statusCode : Raised → BitVec 8
  | .rangeError _ => 1#8
  | .endOfStream _ _ => 2#8
  | .unalignedPeek _ _ => 3#8
  | .bufferOverflow _ _ => 4#8
  | .insufficientSpace _ _ => 5#8
  | .illegalCommand _ => 6#8

/-- `info_a` of each error (R182 to R189). -/
def detailA : Raised → Word
  | .rangeError operand => operand
  | .endOfStream len _ => len
  | .unalignedPeek available _ => available
  | .bufferOverflow needed _ => needed
  | .insufficientSpace length _ => length
  | .illegalCommand op => op

/-- `info_b` of each error (R182 to R189). -/
def detailB : Raised → Word
  | .rangeError _ => 0#32
  | .endOfStream _ left => left
  | .unalignedPeek _ len => len
  | .bufferOverflow _ capacity => capacity
  | .insufficientSpace _ space => space
  | .illegalCommand _ => 0#32

/-- The response of a command that succeeds: status 0, the result, no detail (R76, R77). -/
def okResponse (value : Word) : Response := { status := 0#8, value := value, infoA := 0#32, infoB := 0#32 }

/-- The response of a command that raises: the code, value 0, the detail (R76, R181). -/
def errorResponse (e : Raised) : Response :=
  { status := statusCode e, value := 0#32, infoA := detailA e, infoB := detailB e }

/-- The response word P104: `status` [103:96], `value` [95:64], `info_a` [63:32], `info_b` [31:0] (R76). -/
def responseWord (r : Response) : ResponseWord := r.status ++ r.value ++ r.infoA ++ r.infoB

/-- The unit gives exactly one response to the command it has executed, and the host's next event is due (R70). -/
def answer (resp : Response) (s : State) : State := { s with response := some resp, host := s.host.tail }

/-- The reader is dead: its state is unspecified, free values (R192; 93 U2; log entry 3). `SRC` and `N` are the host's
and stand (10_state R20). -/
def killReader (s : State) : State :=
  { s with
    reader :=
      { s.reader with
        cursorByte := Config.deadReaderCursorByte s.freeIndex
        available := Config.deadReaderAvailable s.freeIndex
        register := Config.deadReaderRegister s.freeIndex
        dead := true }
    freeIndex := s.freeIndex + 1 }

/-- The writer is dead: its state is unspecified, free values (R136, R192; 93 U1; log entry 4). The sampled
configuration inputs stand (10_state R43). -/
def killWriter (s : State) : State :=
  { s with
    writer :=
      { s.writer with
        gsel := Config.deadWriterGsel s.freeIndex
        hasStorage := Config.deadWriterHasStorage s.freeIndex
        capacity := Config.deadWriterCapacity s.freeIndex
        storage := memOfCells .sto (Config.deadWriterStorage s.freeIndex)
        cursorByte := Config.deadWriterCursorByte s.freeIndex
        bitOffset := Config.deadWriterBitOffset s.freeIndex
        dead := true }
    freeIndex := s.freeIndex + 1 }

/-- What an error does to the state: EndOfStream kills the reader and BufferOverflow the writer (R192); the others
change nothing (R191). -/
def errorEffect (e : Raised) (s : State) : State :=
  match e with
  | .endOfStream _ _ => killReader s
  | .bufferOverflow _ _ => killWriter s
  | .rangeError _ => s
  | .unalignedPeek _ _ => s
  | .insufficientSpace _ _ => s
  | .illegalCommand _ => s

/-- TAKING AN ERROR (R181): the command ends at once with the error's response; no control transfer, nothing saved, so
there is nothing to return from (R193). -/
def deliver (e : Raised) (s : State) : State := answer (errorResponse e) (errorEffect e s)

/-! ### Running a command on its unit -/

/-- A reader command: refused when the reader is dead (R192), otherwise its result and the new reader state, or its
error. -/
def runReader (command : Reader → Except Raised (Word × Reader)) (s : State) : Host.Outcome State Fault Refusal :=
  if s.reader.dead then .refused .deadReader
  else
    match command s.reader with
    | .ok (value, r) => .next (answer (okResponse value) { s with reader := r })
    | .error e => .next (deliver e s)

/-- A writer command that leaves `DST` alone: refused when the writer is dead (R192), otherwise its result and the new
writer state, or its error. -/
def runWriter (command : Writer → Except Raised (Word × Writer)) (s : State) : Host.Outcome State Fault Refusal :=
  if s.writer.dead then .refused .deadWriter
  else
    match command s.writer with
    | .ok (value, w) => .next (answer (okResponse value) { s with writer := w })
    | .error e => .next (deliver e s)

/-- A command word whose `op` is not in the map answers IllegalCommand and changes no state (R79, R189). The unit that
`op[7:4]` selects answers it, if it is not dead; an `op` that selects none is answered as long as one unit is not dead
(log entries 5 and 6). -/
def runIllegal (op : BitVec 8) (s : State) : Host.Outcome State Fault Refusal :=
  match selectedUnit op with
  | some .reader =>
    if s.reader.dead then .refused .deadReader else .next (deliver (.illegalCommand (zext32 op)) s)
  | some .writer =>
    if s.writer.dead then .refused .deadWriter else .next (deliver (.illegalCommand (zext32 op)) s)
  | none =>
    if s.reader.dead && s.writer.dead then .refused .noLiveUnit
    else .next (deliver (.illegalCommand (zext32 op)) s)

end Sys2Proof.Machine
end

