-- ==== Sys2Proof/Machine/Flags.lean ====
section
/-! DEFINITION. The core holds no flags and no condition codes (10_state R29). The one predicate that could be taken for
one, alignment, is computed from the cursor each time (R27, R37). -/

namespace Sys2Proof.Machine

/-- 1 for true, 0 for false (30_encoding R77). -/
def boolResult (b : Bool) : Word := if b then 1#32 else 0#32

/-- The reader is aligned when `r.available mod 8 = 0` (10_state R27). -/
def readerAligned (r : Reader) : Bool := decide (r.available % 8 = 0)

/-- The writer is aligned when `w.bitOffset = 0` (10_state R37). -/
def writerAligned (w : Writer) : Bool := decide (w.bitOffset = 0)

end Sys2Proof.Machine
end

