-- ==== Sys2Proof/Machine/Operands.lean ====
section
/-! DEFINITION. Operand forms (30_encoding R74): `len` and `width` are signed, `value`, `offset` and `dlen` unsigned;
and the two range checks every command that has a range uses (60_exceptions R182). -/

namespace Sys2Proof.Machine

/-- `sext(A)`: the operand as a 32-bit two's-complement number (R74). -/
def signedOperand (x : Word) : Int := x.toInt

/-- The operand as an unsigned number (R74). -/
def unsignedOperand (x : Word) : Nat := x.toNat

/-- The width of a field, 1 to 32, else `RangeError(raw operand, 0)` (40_reader R102, 41_writer R133). -/
def fieldWidth (x : Word) : Except Raised Nat :=
  if signedOperand x ≤ 0 ∨ signedOperand x > 32 then .error (.rangeError x) else .ok (signedOperand x).toNat

/-- The length of a skip, at least 1, else `RangeError(raw operand, 0)` (40_reader R110, 41_writer R138). -/
def skipLength (x : Word) : Except Raised Nat :=
  if signedOperand x ≤ 0 then .error (.rangeError x) else .ok (signedOperand x).toNat

end Sys2Proof.Machine
end

