-- ==== Sys2Proof/Machine/Reader.lean ====
section
/-! DEFINITION. The BitReader's commands and the micro-operations they are made of (40_reader). -/

namespace Sys2Proof.Machine

/-! ### Micro-operations -/

/-- One pass of FILL's loop (R100): the byte goes directly below the valid bits. -/
def loadByte (r : Reader) : Reader :=
  { r with
    register := r.register ||| shl32 (zext32 (byteAt .src r.source r.cursorByte)) (24 - r.available)
    available := r.available + 8
    cursorByte := r.cursorByte + 1 }

/-- FILL's loop (R100): it runs while `available ≤ 24` and a source byte is left, so at most 4 times (70 R230; log
entry 15). -/
def fillLoop : Nat → Reader → Reader
  | 0, r => r
  | fuel + 1, r => if r.available ≤ 24 ∧ r.cursorByte < srcLen r then fillLoop fuel (loadByte r) else r

/-- FILL(need) (R100). `len` and `left` are the command's operand and its `rem0`, for the error's detail. -/
def fill (len : Word) (left need : Nat) (r : Reader) : Except Raised Reader :=
  let filled := fillLoop 4 r
  if filled.available < need ∧ filled.cursorByte = srcLen filled then
    .error (.endOfStream len (BitVec.ofNat 32 left))
  else .ok filled

/-- DROP(n) (R101): discard the n earliest buffered bits. -/
def drop (n : Nat) (r : Reader) : Reader :=
  { r with register := shl32 r.register n, available := r.available - n }

/-- EXTRACT(n) (R101): `(r.register >> (32 - n)) & mask(n)`. -/
def extract (n : Nat) (r : Reader) : Word := shr32 r.register (32 - n) &&& mask n

/-- `UnalignedPeek(available, len)` (R105, R185). -/
def unaligned (r : Reader) (len : Word) : Raised := .unalignedPeek (BitVec.ofNat 32 r.available) len

/-- The wide-read admission test fails: `len` of 25 or more with 1 to 23 bits buffered (R105). -/
def wideRefused (l : Nat) (r : Reader) : Bool :=
  decide (25 ≤ l) && decide (1 ≤ r.available) && decide (r.available ≤ 23)

/-- Fill on demand (R115): FILL(l) only when fewer than l bits are buffered. -/
def fillOnDemand (len : Word) (l : Nat) (r : Reader) : Except Raised Reader :=
  if r.available < l then fill len (streamLeft r) l r else .ok r

/-! ### The commands -/

/-- `R.PEEK len` (R103), in the order of checks of R114. -/
def peekField (len : Word) (r : Reader) : Except Raised (Word × Reader) :=
  match fieldWidth len with
  | .error e => .error e
  | .ok l =>
    if wideRefused l r then .error (unaligned r len)
    else
      match fillOnDemand len l r with
      | .error e => .error e
      | .ok filled =>
        if filled.available < l then .error (unaligned filled len)
        else .ok (extract l filled, filled)

/-- The two-piece take (R106): the buffered bits, then the next bits from a register emptied and refilled. -/
def takeTwoPieces (len : Word) (l : Nat) (r : Reader) : Except Raised (Word × Reader) :=
  let hi := extract r.available r
  let k := l - r.available
  match fill len (streamLeft r) k { r with register := 0#32, available := 0 } with
  | .error e => .error e
  | .ok filled => .ok (shl32 hi k ||| extract k filled, drop k filled)

/-- `R.TAKE len` (R104). -/
def takeField (len : Word) (r : Reader) : Except Raised (Word × Reader) :=
  match fieldWidth len with
  | .error e => .error e
  | .ok l =>
    if wideRefused l r then .error (unaligned r len)
    else if 25 ≤ l ∧ 24 ≤ r.available ∧ r.available < l then takeTwoPieces len l r
    else
      match fillOnDemand len l r with
      | .error e => .error e
      | .ok filled => .ok (extract l filled, drop l filled)

/-- The end of `R.SKIP`, after the register has given what it had (R110): whole source bytes are passed unread, then
the sub-byte rest, if there is one, is filled and dropped. -/
def skipRest (len : Word) (left rest : Nat) (r : Reader) : Except Raised Reader :=
  let trashBytes := rest / 8
  if r.cursorByte + trashBytes > srcLen r then .error (.endOfStream len (BitVec.ofNat 32 left))
  else
    let moved := { r with cursorByte := r.cursorByte + trashBytes }
    if rest % 8 > 0 then
      match fill len left (rest % 8) moved with
      | .error e => .error e
      | .ok filled => .ok (drop (rest % 8) filled)
    else .ok moved

/-- `R.SKIP len` (R110). -/
def skipBits (len : Word) (r : Reader) : Except Raised (Word × Reader) :=
  match skipLength len with
  | .error e => .error e
  | .ok l =>
    let n := min l r.available
    match skipRest len (streamLeft r) (l - n) (drop n r) with
    | .error e => .error e
    | .ok moved => .ok (0#32, moved)

/-- `R.BYTEALIGN` (R113): the n bits to the next byte boundary are always in the register. -/
def alignReader (r : Reader) : Except Raised (Word × Reader) :=
  let n := r.available % 8
  .ok (BitVec.ofNat 32 n, if n > 0 then drop n r else r)

/-- `R.PEEK len` (R103): the next `len` bits, without advancing. -/
def execRPeek (len : Word) (s : State) : Host.Outcome State Fault Refusal := runReader (peekField len) s

/-- `R.TAKE len` (R104): the next `len` bits, advancing by `len`. -/
def execRTake (len : Word) (s : State) : Host.Outcome State Fault Refusal := runReader (takeField len) s

/-- `R.SKIP len` (R110): advance by `len` bits. -/
def execRSkip (len : Word) (s : State) : Host.Outcome State Fault Refusal := runReader (skipBits len) s

/-- `R.ISALIGNED` (R112). -/
def execRIsAligned (s : State) : Host.Outcome State Fault Refusal :=
  runReader (fun r => .ok (boolResult (readerAligned r), r)) s

/-- `R.BYTEALIGN` (R113). -/
def execRByteAlign (s : State) : Host.Outcome State Fault Refusal := runReader alignReader s

end Sys2Proof.Machine
end

