-- ==== Sys2Proof/Machine/Growth.lean ====
section
/-! DEFINITION. The growth-strategy selector (42_growth) and ENSURE (41_writer R131). -/

namespace Sys2Proof.Machine

/-- The field `GSEL` of `WCFG`, bits 1:0 (10_state R44). -/
def gselField (wcfg : BitVec 3) : BitVec 2 := wcfg.extractLsb' 0 2

/-- The field `BUF` of `WCFG`, bit 2 (10_state R44). -/
def bufField (wcfg : BitVec 3) : Bool := wcfg.getLsbD 2

/-- `w.gsel = (GSEL != AUTO) ? GSEL : (BUF == 1 ? UNSUPPORTED : DOUBLING)` (10_state R44, 42_growth R161). -/
def effectiveStrategy (wcfg : BitVec 3) : Strategy :=
  match gselField wcfg with
  | 1#2 => .doubling
  | 2#2 => .chunked
  | 3#2 => .unsupported
  | _ => if bufField wcfg then .unsupported else .doubling

/-- The size a strategy computes (R162 to R164), before the capacity limit. -/
def strategySize (w : Writer) : Option Nat :=
  match w.gsel with
  | .doubling => some (if w.hasStorage then max (2 * w.capacity) 1 else w.wdefcap.toNat)
  | .chunked => some (if w.hasStorage then w.capacity + w.wchunk.toNat else w.wchunk.toNat)
  | .unsupported => none

/-- GROW (R160): the new capacity, or `none` for FAIL; a size above `MAX_CAP` fails (R166). -/
def grow (maxCap : Nat) (w : Writer) : Option Nat :=
  match strategySize w with
  | some new => if new > maxCap then none else some new
  | none => none

/-- REPLACE (R167): a full copy into storage of `new` bytes; bytes from the old capacity on are 0x00. -/
def replaceStorage (new : Nat) (w : Writer) : Writer :=
  { w with storage := memCut (cap w) w.storage, capacity := new, hasStorage := true }

/-- The capacity needed, as the 32-bit field `info_a` gives it (R186, 30_encoding R76); of a capacity that has no 32-bit
form the spec does not say what the field holds: a free value (log entry 19). -/
def neededCapacity (n : Nat) : Word := if n < 2 ^ 32 then BitVec.ofNat 32 n else Config.neededCapacityInfo n

/-- The error of a growth that fails (R131, R186): the capacity needed and the capacity there is. -/
def overflowAt (idx : Nat) (w : Writer) : Raised := .bufferOverflow (neededCapacity (idx + 1)) (BitVec.ofNat 32 (cap w))

/-- The loop of ENSURE (R131). `fuel` bounds the passes: each raises the capacity by at least 1, but for a first one
from "no storage", so `idx + 2` is enough (70 R230; log entry 15). -/
def ensureLoop (maxCap idx : Nat) : Nat → Writer → Except Raised Writer
  | 0, w => if w.hasStorage = false ∨ w.capacity ≤ idx then .error (overflowAt idx w) else .ok w
  | fuel + 1, w =>
    if w.hasStorage = false ∨ w.capacity ≤ idx then
      match grow maxCap w with
      | none => .error (overflowAt idx w)
      | some new =>
        if w.hasStorage = true ∧ new ≤ w.capacity then .error (overflowAt idx w)
        else ensureLoop maxCap idx fuel (replaceStorage new w)
    else .ok w

/-- ENSURE(idx) (R131): make byte index `idx` exist in `STO`, growing as often as needed. -/
def ensure (maxCap idx : Nat) (w : Writer) : Except Raised Writer := ensureLoop maxCap idx (idx + 2) w

end Sys2Proof.Machine
end

