-- ==== Sys2Proof/Machine/Writer.lean ====
section
/-! DEFINITION. The BitWriter's commands and PUTCHUNK (41_writer). -/

namespace Sys2Proof.Machine

/-! ### Micro-operations -/

/-- The merge of one chunk into a byte (R132): `(byte & clearMask) | (chunk << sh)`. -/
def mergeChunk (byte : Byte) (chunk : Word) (n sh : Nat) : Byte :=
  let setMask : Byte := (shl32 (mask n) sh).setWidth 8
  (byte &&& ~~~setMask) ||| (shl32 chunk sh).setWidth 8

/-- The width of the next chunk, `min(remaining, 8 - bitOffset)` (R132). -/
def chunkWidth (remaining : Nat) (w : Writer) : Nat := min remaining (8 - w.bitOffset.val)

/-- The cursor moves n bits on inside or to the end of the byte being assembled: `bitOffset` wraps at 8, incrementing
`cursorByte` (R132). -/
def advanceCursor (n : Nat) (w : Writer) : Writer :=
  { w with
    bitOffset := Fin.ofNat 8 (w.bitOffset.val + n)
    cursorByte := if w.bitOffset.val + n = 8 then w.cursorByte + 1 else w.cursorByte }

/-- PUTCHUNK (R132): merge the `n` highest bits of `V` not yet written into the byte at the cursor. -/
def putChunk (v : Word) (remaining : Nat) (w : Writer) : Writer :=
  let n := chunkWidth remaining w
  let chunk := shr32 v (remaining - n) &&& mask n
  let sh := 8 - w.bitOffset.val - n
  let byte := byteAt .sto w.storage w.cursorByte
  advanceCursor n { w with storage := memWrite .sto w.storage w.cursorByte (mergeChunk byte chunk n sh) }

/-- The loop of `W.WRITE` (R133). A chunk has at least one bit, so `remaining` passes are enough (log entry 15). -/
def writeLoop (maxCap : Nat) (v : Word) : Nat → Nat → Writer → Except Raised Writer
  | 0, _, w => .ok w
  | fuel + 1, remaining, w =>
    if remaining = 0 then .ok w
    else
      match ensure maxCap w.cursorByte w with
      | .error e => .error e
      | .ok grown => writeLoop maxCap v fuel (remaining - chunkWidth remaining grown) (putChunk v remaining grown)

/-! ### The commands -/

/-- `W.WRITE value, width` (R133). -/
def writeField (maxCap : Nat) (value width : Word) (w : Writer) : Except Raised (Word × Writer) :=
  match fieldWidth width with
  | .error e => .error e
  | .ok wd =>
    match writeLoop maxCap value wd wd w with
    | .error e => .error e
    | .ok written => .ok (0#32, written)

/-- The writer with its cursor at bit position `p` (10_state R37). -/
def atPosition (p : Nat) (w : Writer) : Writer := { w with cursorByte := p / 8, bitOffset := Fin.ofNat 8 p }

/-- `W.SKIP width` (R138): the storage is made to cover the new position, then the cursor moves. -/
def skipField (maxCap : Nat) (width : Word) (w : Writer) : Except Raised (Word × Writer) :=
  match skipLength width with
  | .error e => .error e
  | .ok wd =>
    let p := posW w + wd
    match ensure maxCap (byteLength (atPosition p w) - 1) w with
    | .error e => .error e
    | .ok grown => .ok (0#32, atPosition p grown)

/-- `W.BYTEALIGN` (R141): the pad bits are not written. -/
def alignWriter (w : Writer) : Except Raised (Word × Writer) :=
  let n := (8 - w.bitOffset.val) % 8
  .ok (BitVec.ofNat 32 n, if n > 0 then { w with bitOffset := 0, cursorByte := w.cursorByte + 1 } else w)

/-- The copy loop of `W.COPYTO` (R145): the first `count` bytes of `STO` go to `DST` from `offset` on. -/
def copyBytes (w : Writer) (offset : Nat) : Nat → Memory → Memory
  | 0, d => d
  | count + 1, d => memWrite .dst (copyBytes w offset count d) (offset + count) (byteAt .sto w.storage count)

/-- `InsufficientSpace(byteLength, max(dlen - offset, 0))` (R145, R187). -/
def noSpace (offset dlen : Nat) (w : Writer) : Raised :=
  .insufficientSpace (BitVec.ofNat 32 (byteLength w)) (BitVec.ofNat 32 (dlen - offset))

/-- `W.WRITE value, width` (R133). -/
def execWWrite (value width : Word) (s : State) : Host.Outcome State Fault Refusal :=
  runWriter (writeField s.maxCap.toNat value width) s

/-- `W.SKIP width` (R138). -/
def execWSkip (width : Word) (s : State) : Host.Outcome State Fault Refusal :=
  runWriter (skipField s.maxCap.toNat width) s

/-- `W.ISALIGNED` (R140). -/
def execWIsAligned (s : State) : Host.Outcome State Fault Refusal :=
  runWriter (fun w => .ok (boolResult (writerAligned w), w)) s

/-- `W.BYTEALIGN` (R141). -/
def execWByteAlign (s : State) : Host.Outcome State Fault Refusal := runWriter alignWriter s

/-- `W.BYTELENGTH` (R143). -/
def execWByteLength (s : State) : Host.Outcome State Fault Refusal :=
  runWriter (fun w => .ok (BitVec.ofNat 32 (byteLength w), w)) s

/-- `W.COPYTO offset, dlen` (R145): the space check first, then the copy; the writer's state does not change. Where
`byteLength` exceeds the capacity, against 10_state R39, a byte to copy does not exist (log entry 14). -/
def execWCopyTo (offset dlen : Word) (s : State) : Host.Outcome State Fault Refusal :=
  if s.writer.dead then .refused .deadWriter
  else if unsignedOperand offset + byteLength s.writer > unsignedOperand dlen then
    .next (deliver (noSpace (unsignedOperand offset) (unsignedOperand dlen) s.writer) s)
  else if byteLength s.writer > cap s.writer then .fault (.outsideStorage (cap s.writer))
  else
    .next (answer (okResponse 0#32)
      { s with dst := copyBytes s.writer (unsignedOperand offset) (byteLength s.writer) s.dst })

end Sys2Proof.Machine
end

