-- ==== Sys2Proof/Machine/Dispatch.lean ====
section
/-! DEFINITION. One arm per command of the opcode map (30_encoding R78). -/

namespace Sys2Proof.Machine

/-- What a command does. -/
def exec (i : Instr) (s : State) : Host.Outcome State Fault Refusal :=
  match i with
  | .rPeek len => Sys2Proof.Machine.execRPeek len s
  | .rTake len => Sys2Proof.Machine.execRTake len s
  | .rSkip len => Sys2Proof.Machine.execRSkip len s
  | .rIsAligned => Sys2Proof.Machine.execRIsAligned s
  | .rByteAlign => Sys2Proof.Machine.execRByteAlign s
  | .wWrite value width => Sys2Proof.Machine.execWWrite value width s
  | .wSkip width => Sys2Proof.Machine.execWSkip width s
  | .wIsAligned => Sys2Proof.Machine.execWIsAligned s
  | .wByteAlign => Sys2Proof.Machine.execWByteAlign s
  | .wByteLength => Sys2Proof.Machine.execWByteLength s
  | .wCopyTo offset dlen => Sys2Proof.Machine.execWCopyTo offset dlen s

end Sys2Proof.Machine
end

