-- ==== Sys2Proof/Machine/Reset.lean ====
section
/-! DEFINITION. Reset of each unit (70 R210 to R215, 10_state R48), applied between commands only (R215, D29), and the
machine before any reset (R215). -/

namespace Sys2Proof.Machine

/-- The reader right after its reset (10_state R48, 70 R212): the source and its length are bound, the cursor is at
bit 0, the register is empty, the dead mark is cleared. -/
def freshReader (rsrclen : Word) (source : List Host.Cell) : Reader :=
  { source := memImage .src rsrclen.toNat source, rsrclen := rsrclen, cursorByte := 0, available := 0,
    register := 0#32, dead := false }

/-- The writer right after its reset (10_state R48, 70 R213): the supplied buffer, if `BUF` = 1, is the storage, its
contents kept. -/
def freshWriter (wcfg : BitVec 3) (wbuflen wdefcap wchunk : Word) (bufInit : List Host.Cell) : Writer :=
  { wcfg := wcfg, wbuflen := wbuflen, wdefcap := wdefcap, wchunk := wchunk, gsel := effectiveStrategy wcfg,
    hasStorage := bufField wcfg,
    capacity := if bufField wcfg then wbuflen.toNat else 0,
    storage := if bufField wcfg then memImage .sto wbuflen.toNat bufInit else [],
    cursorByte := 0, bitOffset := 0, dead := false }

/-- Reset of the reader; the writer is not touched (R210). A reset is no command and gets no response. -/
def applyResetReader (rsrclen : Word) (source : List Host.Cell) (s : State) : Host.Outcome State Fault Refusal :=
  .next { s with reader := freshReader rsrclen source, host := s.host.tail }

/-- Reset of the writer; the reader is not touched (R210). A supplied buffer longer than `MAX_CAP` is refused (93 U8;
log entry 10). -/
def applyResetWriter (wcfg : BitVec 3) (wbuflen wdefcap wchunk : Word) (bufInit : List Host.Cell) (s : State) :
    Host.Outcome State Fault Refusal :=
  if bufField wcfg ∧ wbuflen.toNat > s.maxCap.toNat then .refused .bufferBeyondMaxCap
  else .next { s with writer := freshWriter wcfg wbuflen wdefcap wchunk bufInit, host := s.host.tail }

/-- Before its first reset a unit counts as dead and its state is unspecified (R215; log entry 17): `s` with both
units so. -/
def beforeReset (s : State) : State := killWriter (killReader s)

end Sys2Proof.Machine
end

