-- ==== Sys2Proof/Machine/Step.lean ====
section
/-! DEFINITION. One step of the core: the host's next event (00_scope R10, R11). The core has no program counter and
fetches nothing (10_state R28); the place of a fetch is taken by the host's list of events (log entry 1). -/

namespace Sys2Proof.Machine

/-- One step. A command word is decoded and executed by its unit (30_encoding R80); a reset is applied between
commands (70 R210). With no event nothing happens: "neither unit ever takes a step that the host did not command"
(R10). -/
def step (s : State) : Host.Outcome State Fault Refusal :=
  match s.host with
  | [] => .next s
  | .command word :: _ =>
    match decode word with
    | .ok i => exec i s
    | .error (.illegalOpcode op) => runIllegal op s
  | .resetReader rsrclen source :: _ => applyResetReader rsrclen source s
  | .resetWriter wcfg wbuflen wdefcap wchunk bufInit :: _ => applyResetWriter wcfg wbuflen wdefcap wchunk bufInit s

/-- `s` with the command word `tableWord nbits w` as the host's next event. -/
def State.withFetchWord (s : State) (nbits w : Nat) : State :=
  { s with host := .command (tableWord nbits w) :: s.host }

end Sys2Proof.Machine
end

