-- ==== Sys2Proof/Safety.lean ====
section
/-! DEFINITION. The terms the statements use: the two bit streams (20_memory R55, R56), the invariants of 10_state, what
a growth strategy can supply, what a successful write does, and what a safe step is. Nothing here takes part in a
step. -/

namespace Sys2Proof.Machine

/-! ### The two bit streams -/

/-- Stream bit `p` of the reader: bit `7 - (p mod 8)` of byte `p / 8` of `SRC` (R55). -/
def streamBit (r : Reader) (p : Nat) : Bool := (byteAt .src r.source (p / 8)).getLsbD (7 - p % 8)

/-- Stream bit `p` of the writer: bit `7 - (p mod 8)` of byte `p / 8` of `STO` (R55). -/
def storageBit (w : Writer) (p : Nat) : Bool := (byteAt .sto w.storage (p / 8)).getLsbD (7 - p % 8)

/-- `v` is the field of the `l` stream bits from `p` on, most significant bit first, zero-extended (R56, 30_encoding
R77). -/
def IsField (bit : Nat → Bool) (p l : Nat) (v : Word) : Prop :=
  ∀ j < 32, v.getLsbD j = (decide (j < l) && bit (p + (l - 1 - j)))

/-! ### Invariants -/

/-- What 10_state says of the reader at every command boundary: `available ≤ 32` (R23), `cursorByte ≤ N` (R21), the
position is not negative (R24), and the register holds the next `available` stream bits left-justified, zero below
(R22, R25). Of a dead reader nothing is said (60_exceptions R192). -/
def ReaderInv (r : Reader) : Prop :=
  r.dead = false →
    r.available ≤ 32 ∧ r.cursorByte ≤ srcLen r ∧ r.available ≤ r.cursorByte * 8 ∧
    ∀ i < 32, r.register.getMsbD i = (decide (i < r.available) && streamBit r (posR r + i))

/-- What 10_state says of the writer at every command boundary: `byteLength ≤ capacity ≤ MAX_CAP` (R39, R35), no
capacity without storage (R35), and nothing listed past the capacity (R31). Of a dead writer nothing is said. -/
def WriterInv (maxCap : Nat) (w : Writer) : Prop :=
  w.dead = false →
    byteLength w ≤ cap w ∧ cap w ≤ maxCap ∧ (w.hasStorage = false → w.capacity = 0) ∧ memBelow (cap w) w.storage = true

/-- All three spaces are in canonical form. -/
def MemoryInv (s : State) : Prop :=
  s.reader.source.wf .src = true ∧ s.writer.storage.wf .sto = true ∧ s.dst.wf .dst = true

/-- The invariant of the machine. -/
def MachineInv (s : State) : Prop := ReaderInv s.reader ∧ WriterInv s.maxCap.toNat s.writer ∧ MemoryInv s

/-! ### Commands and their operands -/

/-- The commands that use the field `A` (30_encoding R73). -/
def usesA : Instr → Bool
  | .rPeek _ => true
  | .rTake _ => true
  | .rSkip _ => true
  | .rIsAligned => false
  | .rByteAlign => false
  | .wWrite _ _ => true
  | .wSkip _ => true
  | .wIsAligned => false
  | .wByteAlign => false
  | .wByteLength => false
  | .wCopyTo _ _ => true

/-- The commands that use the field `B` (30_encoding R73). -/
def usesB : Instr → Bool
  | .rPeek _ => false
  | .rTake _ => false
  | .rSkip _ => false
  | .rIsAligned => false
  | .rByteAlign => false
  | .wWrite _ _ => true
  | .wSkip _ => false
  | .wIsAligned => false
  | .wByteAlign => false
  | .wByteLength => false
  | .wCopyTo _ _ => true

/-- The opcodes of the map (30_encoding R78). -/
def opcodeMap : List (BitVec 8) :=
  [0x01#8, 0x02#8, 0x03#8, 0x04#8, 0x05#8, 0x10#8, 0x11#8, 0x12#8, 0x13#8, 0x14#8, 0x15#8]

/-- The status codes a command may answer with, OK included (60_exceptions R195, R180). -/
def allowedStatus : Instr → List (BitVec 8)
  | .rPeek _ => [0#8, 1#8, 2#8, 3#8]
  | .rTake _ => [0#8, 1#8, 2#8, 3#8]
  | .rSkip _ => [0#8, 1#8, 2#8]
  | .rIsAligned => [0#8]
  | .rByteAlign => [0#8]
  | .wWrite _ _ => [0#8, 1#8, 4#8]
  | .wSkip _ => [0#8, 1#8, 4#8]
  | .wIsAligned => [0#8]
  | .wByteAlign => [0#8]
  | .wByteLength => [0#8]
  | .wCopyTo _ _ => [0#8, 5#8]

/-- `len` or `width` read as a signed number is the natural number `l` (30_encoding R74). -/
def OperandIs (x : Word) (l : Nat) : Prop := x.toInt = (l : Int)

/-- The wide-read admission test as D0 words it: the register is empty, full, or holds at least
`(available mod 8) + 24` bits (40_reader R105). -/
def WideAdmitted (a : Nat) : Prop := a = 0 ∨ a = 32 ∨ a ≥ a % 8 + 24

/-- What FILL leaves when it has run (40_reader R100), seen after the `n` bits dropped behind it: before the drop the
register held no more than 32 bits, and more than 24 unless the source had ended. With the bit position this fixes
`available` and `cursorByte` (10_state R24, R26). -/
def FilledThenDropped (n : Nat) (r : Reader) : Prop :=
  r.available + n ≤ 32 ∧ (24 < r.available + n ∨ r.cursorByte = srcLen r)

/-! ### Growth and writing -/

/-- The capacity after `k` growths of the writer's strategy, were there no limit: from none `DEFAULT_CAP` or `CHUNK`, from
size S `max(2S, 1)` or `S + CHUNK`; UNSUPPORTED stays where it is (42_growth R162 to R164). -/
def sizeAfter (w : Writer) : Nat → Nat
  | 0 => cap w
  | k + 1 =>
    match w.gsel with
    | .doubling => if w.hasStorage = false ∧ k = 0 then w.wdefcap.toNat else max (2 * sizeAfter w k) 1
    | .chunked => sizeAfter w k + w.wchunk.toNat
    | .unsupported => sizeAfter w k

/-- `c` is the first of the strategy's sizes that has `n` bytes: growth is lazy (41_writer R131, R135). -/
def FirstSizeFor (n c : Nat) (w : Writer) : Prop :=
  n ≤ c ∧ ∃ k, c = sizeAfter w k ∧ ∀ j < k, sizeAfter w j < n

/-- `c` is the size within `MAX_CAP` at which the strategy gets no further: it is UNSUPPORTED, its next size is above
`MAX_CAP`, or, with storage, its next size is no larger (41_writer R131, 42_growth R164, R166, 60_exceptions R186). -/
def GrowthStopsAt (maxCap c : Nat) (w : Writer) : Prop :=
  c ≤ maxCap ∧ ∃ k, c = sizeAfter w k ∧
    (w.gsel = .unsupported ∨ maxCap < sizeAfter w (k + 1) ∨
      ((w.hasStorage = true ∨ 0 < k) ∧ sizeAfter w (k + 1) ≤ c))

/-- Where the doubling strategy's sizes start: from storage of size S they are S, 2S, 4S, ..., from size 0 they are 1, 2,
4, ..., and without storage they begin with `DEFAULT_CAP` (42_growth R162). -/
def doublingStart (w : Writer) : Nat := max (if w.hasStorage then w.capacity else w.wdefcap.toNat) 1

/-- The writer's storage has `n` bytes, or its strategy reaches a size of at least `n` that is at most `MAX_CAP` (42_growth
R162, R163, R164, R166; 41_writer R131). -/
def CanHold (maxCap n : Nat) (w : Writer) : Prop :=
  (w.hasStorage = true ∧ n ≤ w.capacity) ∨
  (w.gsel = .doubling ∧ ∃ k, n ≤ doublingStart w * 2 ^ k ∧ doublingStart w * 2 ^ k ≤ maxCap) ∨
  (w.gsel = .chunked ∧ ∃ k, n ≤ cap w + k * w.wchunk.toNat ∧ cap w + k * w.wchunk.toNat ≤ maxCap)

/-- Storage kept its bytes and is no smaller; every byte it gained is 0x00 (42_growth R167 to R169). The sampled
configuration, the strategy and the dead mark stand. -/
def StorageKept (w w' : Writer) : Prop :=
  cap w ≤ cap w' ∧ (w.hasStorage = true → w'.hasStorage = true) ∧
  w'.wcfg = w.wcfg ∧ w'.wbuflen = w.wbuflen ∧ w'.wdefcap = w.wdefcap ∧ w'.wchunk = w.wchunk ∧ w'.gsel = w.gsel ∧
  w'.dead = w.dead

/-- What a write of the low `wd` bits of `v` does to the writer (41_writer R133): the cursor moves `wd` bits on; the
`wd` stream bits from the old position become `V[wd-1:0]`, most significant first; every other bit of `STO` keeps its
value, a bit that growth added being 0; and every byte the field does not touch reads as before. -/
def WriteEffect (v : Word) (wd : Nat) (w w' : Writer) : Prop :=
  StorageKept w w' ∧ posW w' = posW w + wd ∧
  (∀ p, p < 8 * cap w' → storageBit w' p =
    if posW w ≤ p ∧ p < posW w + wd then v.getLsbD (posW w + wd - 1 - p) else storageBit w p) ∧
  (∀ a, a < cap w → (a < posW w / 8 ∨ (posW w + wd - 1) / 8 < a) → readSto w' a = readSto w a) ∧
  (∀ a, cap w ≤ a → a < cap w' → (posW w + wd - 1) / 8 < a → readSto w' a = some 0x00#8)

/-- Everything outside the reader, but for the response and the host's events, is as it was. -/
def OnlyReaderChanged (s t : State) : Prop :=
  t.writer = s.writer ∧ t.dst = s.dst ∧ t.maxCap = s.maxCap ∧ t.host = s.host.tail ∧
  t.reader.source = s.reader.source ∧ t.reader.rsrclen = s.reader.rsrclen

/-- Everything outside the writer, but for the response and the host's events, is as it was. -/
def OnlyWriterChanged (s t : State) : Prop :=
  t.reader = s.reader ∧ t.dst = s.dst ∧ t.maxCap = s.maxCap ∧ t.host = s.host.tail

/-! ### Runs of writes and of takes, for the round trip (41_writer R147) -/

/-- The writes `W.WRITE v, w` of a list of fields, one after another; the state after them, if each answers OK. -/
def writeAll : List (Word × Word) → State → Option State
  | [], s => some s
  | (v, w) :: fields, s =>
    match exec (.wWrite v w) s with
    | .next t => if t.response = some (okResponse 0#32) then writeAll fields t else none
    | .fault _ => none
    | .refused _ => none

/-- The takes `R.TAKE w` of a list of widths, one after another: the values, or the response of the first that is not
OK. -/
def takeAll : List Word → State → Except (Option Response) (List Word)
  | [], _ => .ok []
  | w :: widths, s =>
    match exec (.rTake w) s with
    | .next t =>
      match t.response with
      | none => .error none
      | some resp =>
        if resp.status = 0#8 then
          match takeAll widths t with
          | .ok values => .ok (resp.value :: values)
          | .error e => .error e
        else .error (some resp)
    | .fault _ => .error none
    | .refused _ => .error none

/-! ### Safe steps -/

/-- A step that does not fault: no index outside a space was wanted (20_memory R62). -/
def SafeStep (s : State) : Prop := ∀ f, step s ≠ .fault f

end Sys2Proof.Machine
end

