-- ==== Sys2Proof/Certificates/Slice0/Obligations.lean ====
section
/-! DEFINITION. The statements for the provers, in the order of OBLIGATIONS.json. Each docstring names the rule of spec/
it formalises, and says where a clause is the model's choice. -/

open Sys2Proof Sys2Proof.Machine

/-! ### Encoding -/

/-- Decoding the word of a well-formed command gives the command back, for every operand value (30_encoding R71, R73,
R78, R80). -/
def Obligations.DecodeInvertsEncode : Prop :=
  ∀ i : Instr, i.wellFormed = true → decode (encode i) = .ok i

/-- A command word that decodes carries its row's opcode, and the command's operands are the word's fields: encoded
again it has the same opcode and the same fields where the row uses them, zeros elsewhere (30_encoding R73, R75, R80). -/
def Obligations.DecodeReadsTheFieldsOfItsRow : Prop :=
  ∀ (w : CommandWord) (i : Instr), decode w = .ok i →
    opField w = opcodeOf i ∧
    encode i = commandWord (opField w) (if usesA i then aField w else 0#32) (if usesB i then bField w else 0#32)

/-- The words that are refused are exactly those whose opcode is not in the map, and these opcodes are 0x00, 0x06 to
0x0F, 0x16 to 0x1F and 0x20 to 0xFF (30_encoding R78, R79). -/
def Obligations.IllegalOpcodesAreThoseOutsideTheMap : Prop :=
  (∀ (w : CommandWord) (op : BitVec 8), decode w = .error (.illegalOpcode op) ↔ op = opField w ∧ op ∉ opcodeMap) ∧
  ∀ op : BitVec 8, op ∉ opcodeMap ↔
    (op.toNat = 0x00 ∨ (0x06 ≤ op.toNat ∧ op.toNat ≤ 0x0F) ∨ (0x16 ≤ op.toNat ∧ op.toNat ≤ 0x1F) ∨ 0x20 ≤ op.toNat)

/-- 30_encoding R75: a field the row does not use has no effect on decoding, the assembler emits 0 in it, and the row is
chosen by `op` alone. -/
def Obligations.UnusedFieldsAreIgnored : Prop :=
  (∀ (op : BitVec 8) (a b b' : Word), op ≠ 0x10#8 → op ≠ 0x15#8 →
    decode (commandWord op a b) = decode (commandWord op a b')) ∧
  (∀ (op : BitVec 8) (a a' b : Word), op ∉ [0x01#8, 0x02#8, 0x03#8, 0x10#8, 0x11#8, 0x15#8] →
    decode (commandWord op a b) = decode (commandWord op a' b)) ∧
  (∀ i : Instr, (usesA i = false → aField (encode i) = 0#32) ∧ (usesB i = false → bField (encode i) = 0#32)) ∧
  ∀ (w w' : CommandWord) (i i' : Instr), opField w = opField w' → decode w = .ok i → decode w' = .ok i' →
    opcodeOf i = opcodeOf i'

/-- 60_exceptions R189, 30_encoding R79: a word with an illegal opcode is answered IllegalCommand(op, 0) and changes no
state, as long as the unit it selects (both, if it selects none) is not dead. -/
def Obligations.IllegalCommandIsAnswered : Prop :=
  ∀ (s : State) (w : CommandWord) (rest : List HostEvent), s.host = .command w :: rest →
    (((opField w).toNat ≤ 0x0F ∨ 0x20 ≤ (opField w).toNat) → s.reader.dead = false) →
    (0x10 ≤ (opField w).toNat → s.writer.dead = false) →
    ((opField w).toNat = 0x00 ∨ (0x06 ≤ (opField w).toNat ∧ (opField w).toNat ≤ 0x0F) ∨
      (0x16 ≤ (opField w).toNat ∧ (opField w).toNat ≤ 0x1F) ∨ 0x20 ≤ (opField w).toNat) →
    step s = .next { s with
      response := some { status := 6#8, value := 0#32, infoA := (opField w).setWidth 32, infoB := 0#32 }
      host := rest }

/-- THE MODEL'S CHOICE (log entries 5 and 6): an illegal opcode that selects a dead unit is refused; one that selects no
unit is refused when both units are dead and answered when one is not. -/
def Obligations.IllegalCommandAtDeadUnits : Prop :=
  ∀ (s : State) (w : CommandWord) (rest : List HostEvent), s.host = .command w :: rest →
    (((opField w).toNat = 0x00 ∨ (0x06 ≤ (opField w).toNat ∧ (opField w).toNat ≤ 0x0F)) → s.reader.dead = true →
      step s = .refused .deadReader) ∧
    ((0x16 ≤ (opField w).toNat ∧ (opField w).toNat ≤ 0x1F) → s.writer.dead = true → step s = .refused .deadWriter) ∧
    (0x20 ≤ (opField w).toNat → s.reader.dead = true → s.writer.dead = true → step s = .refused .noLiveUnit) ∧
    (0x20 ≤ (opField w).toNat → (s.reader.dead = false ∨ s.writer.dead = false) →
      step s = .next { s with
        response := some { status := 6#8, value := 0#32, infoA := (opField w).setWidth 32, infoB := 0#32 }
        host := rest })

/-- Words of 95_test_vectors.md, written out from the encoding of R71 and R78, decode to the commands they stand for. -/
def Obligations.ListedWordsDecode : Prop :=
  decodeTableWord 72 0x010000000100000000 = some (.rPeek 1#32) ∧
  decodeTableWord 72 0x02FFFFFFFB00000000 = some (.rTake 0xFFFFFFFB#32) ∧
  decodeTableWord 72 0x030000001100000000 = some (.rSkip 17#32) ∧
  decodeTableWord 72 0x04DEADBEEF12345678 = some .rIsAligned ∧
  decodeTableWord 72 0x050000000000000000 = some .rByteAlign ∧
  decodeTableWord 72 0x101234567800000020 = some (.wWrite 0x12345678#32 32#32) ∧
  decodeTableWord 72 0x1100000003AAAAAAAA = some (.wSkip 3#32) ∧
  decodeTableWord 72 0x140000000100000002 = some .wByteLength ∧
  decodeTableWord 72 0x150000000100000004 = some (.wCopyTo 1#32 4#32) ∧
  decodeTableWord 72 0x06123456789ABCDEF0 = none

/-- The response word of R76: status [103:96], value [95:64], info_a [63:32], info_b [31:0]. -/
def Obligations.ResponseWordHasItsFields : Prop :=
  ∀ r : Response,
    (responseWord r).extractLsb' 96 8 = r.status ∧ (responseWord r).extractLsb' 64 32 = r.value ∧
    (responseWord r).extractLsb' 32 32 = r.infoA ∧ (responseWord r).extractLsb' 0 32 = r.infoB

/-! ### Steps, resets, invariants -/

/-- A step runs the decoded command (30_encoding R70, R71, R78; 20_memory R64), which takes it off the host's list; with no
event nothing happens (00_scope R10). The list of events is the model's form of the host (log entry 1). -/
def Obligations.StepRunsTheDecodedCommand : Prop :=
  (∀ (s : State) (w : CommandWord) (rest : List HostEvent) (i : Instr),
    s.host = .command w :: rest → decode w = .ok i → i.wellFormed = true →
    step s = exec i s ∧ ∀ t, exec i s = .next t → t.host = rest) ∧
  ∀ s : State, s.host = [] → step s = .next s

/-- Reset of the reader, from any state, dead or not (70 R210, R212; 10_state R48, R211): the cursor and the register are
0, the dead mark is cleared, `SRC` and `N` are the host's, and nothing else changes. How a host's list of cells is read
is log entry 9. -/
def Obligations.ReaderResetBindsTheSource : Prop :=
  ∀ (s : State) (n : Word) (src : List Host.Cell) (rest : List HostEvent),
    s.host = .resetReader n src :: rest →
    ∃ r, step s = .next { s with reader := r, host := rest } ∧
      r.cursorByte = 0 ∧ r.available = 0 ∧ r.register = 0#32 ∧ r.dead = false ∧ r.rsrclen = n ∧ posR r = 0 ∧
      (∀ a, a < n.toNat → readSrc r a = some ((cellAt src a).getD 0x00#8)) ∧
      (∀ a, n.toNat ≤ a → readSrc r a = none) ∧ ReaderInv r

/-- Reset of the writer, from any state (70 R210, R213; 10_state R48, R44): `BUF` is bit 2 of `WCFG`, `GSEL` bits 1:0;
the storage is the supplied buffer or none; the strategy is the explicit one, or UNSUPPORTED with a buffer and DOUBLING
without. THE MODEL'S CHOICES: how a host's list of cells gives the buffer's bytes, 0x00 where it lists none (log entry 9;
for the spec, 93 U6, the contents are a parameter, any bytes); and a buffer longer than `MAX_CAP` is refused (log entry 10,
after 93 U8). -/
def Obligations.WriterResetTakesTheConfiguration : Prop :=
  ∀ (s : State) (cfg : BitVec 3) (len defcap chunk : Word) (init : List Host.Cell) (rest : List HostEvent),
    s.host = .resetWriter cfg len defcap chunk init :: rest →
    (4 ≤ cfg.toNat → len.toNat > s.maxCap.toNat → step s = .refused .bufferBeyondMaxCap) ∧
    ((cfg.toNat < 4 ∨ len.toNat ≤ s.maxCap.toNat) →
      ∃ w, step s = .next { s with writer := w, host := rest } ∧
        w.cursorByte = 0 ∧ w.bitOffset = 0 ∧ w.dead = false ∧ byteLength w = 0 ∧
        w.wcfg = cfg ∧ w.wbuflen = len ∧ w.wdefcap = defcap ∧ w.wchunk = chunk ∧
        w.hasStorage = decide (4 ≤ cfg.toNat) ∧ cap w = (if 4 ≤ cfg.toNat then len.toNat else 0) ∧
        w.gsel = (if cfg.toNat % 4 = 1 then .doubling else if cfg.toNat % 4 = 2 then .chunked
          else if cfg.toNat % 4 = 3 then .unsupported else if 4 ≤ cfg.toNat then .unsupported else .doubling) ∧
        (∀ a, a < cap w → readSto w a = some ((cellAt init a).getD 0x00#8)) ∧
        (∀ a, cap w ≤ a → readSto w a = none) ∧ WriterInv s.maxCap.toNat w)

/-- The invariant holds right after reset (10_state R48, R39, R25, R24). -/
def Obligations.InvariantHoldsAtReset : Prop := MachineInv State.reset

/-- THE INVARIANT IS KEPT BY EVERY STEP, of every event, from every state that has it: `pos_r` is a position of the
stream and the register holds the stream's next bits, left-justified with zeros below (10_state R21 to R25); `byteLength`
≤ capacity ≤ `MAX_CAP` (R35, R39); all three spaces are canonical. -/
def Obligations.EveryStepKeepsTheInvariant : Prop :=
  ∀ s t : State, MachineInv s → step s = .next t → MachineInv t

/-- The canonical form of the three spaces alone, from every state that has it. It is the model's own representation
(log entry 8). -/
def Obligations.EveryStepKeepsMemoryCanonical : Prop :=
  ∀ s t : State, MemoryInv s → step s = .next t → MemoryInv t

/-- No index outside a space is wanted; 20_memory R62 says so and marks it as derived from the rules named here. `STO`, read
by `W.COPYTO`: no step of a state with the invariant meets the fault that the model has for it, its own choice (10_state
R39, 41_writer R145; log entry 14). `SRC`: each pass of FILL's loop reads the byte at `cursorByte` with `cursorByte < N`, so
bytes from `N` on are no part of what it does (40_reader R100). `STO`, written by `W.WRITE`: each pass of its loop touches
the byte at `cursorByte` after ENSURE made it exist, or raises ENSURE's error (R131, R133). `STO`, copied by growth: bytes
from the old capacity on are no part of the new storage (42_growth R167). `DST`: `W.COPYTO` touches no byte from `dlen` on
(R145). -/
def Obligations.NoIndexOutsideASpace : Prop :=
  (∀ s : State, MachineInv s → SafeStep s) ∧
  (∀ (fuel : Nat) (r : Reader), fillLoop (fuel + 1) r = r ∨
    (r.cursorByte < srcLen r ∧ fillLoop (fuel + 1) r = fillLoop fuel (loadByte r))) ∧
  (∀ (fuel : Nat) (r : Reader) (other : Memory),
    (∀ a, a < srcLen r → byteAt .src other a = byteAt .src r.source a) →
    fillLoop fuel { r with source := other } = { fillLoop fuel r with source := other }) ∧
  (∀ (maxCap fuel remaining : Nat) (v : Word) (w : Writer), WriterInv maxCap w → w.dead = false →
    w.storage.wf .sto = true → 1 ≤ remaining →
    (∃ e, ensure maxCap w.cursorByte w = .error e ∧ writeLoop maxCap v (fuel + 1) remaining w = .error e) ∨
    ∃ grown, ensure maxCap w.cursorByte w = .ok grown ∧ grown.cursorByte = w.cursorByte ∧
      grown.cursorByte < cap grown ∧
      writeLoop maxCap v (fuel + 1) remaining w =
        writeLoop maxCap v fuel (remaining - chunkWidth remaining grown) (putChunk v remaining grown)) ∧
  (∀ (new : Nat) (w : Writer) (other : Memory),
    (∀ a, a < cap w → byteAt .sto other a = byteAt .sto w.storage a) →
    ∀ a, readSto (replaceStorage new { w with storage := other }) a = readSto (replaceStorage new w) a) ∧
  ∀ (s t : State) (offset dlen : Word), MachineInv s → exec (.wCopyTo offset dlen) s = .next t →
    ∀ a, dlen.toNat ≤ a → readDst t a = readDst s a

/-! ### The reader -/

/-- FILL (40_reader R100): it does not change `pos_r` or the stream, keeps the invariant, loads at most 4 bytes, one
after another, and stops above 24 buffered bits or at the end of the source. -/
def Obligations.FillLeavesHeadroom : Prop :=
  ∀ r : Reader, r.dead = false → ReaderInv r →
    ReaderInv (fillLoop 4 r) ∧ posR (fillLoop 4 r) = posR r ∧
    (fillLoop 4 r).source = r.source ∧ (fillLoop 4 r).rsrclen = r.rsrclen ∧ (fillLoop 4 r).dead = false ∧
    r.cursorByte ≤ (fillLoop 4 r).cursorByte ∧ (fillLoop 4 r).cursorByte ≤ r.cursorByte + 4 ∧
    (fillLoop 4 r).available = r.available + 8 * ((fillLoop 4 r).cursorByte - r.cursorByte) ∧
    (24 < (fillLoop 4 r).available ∨ (fillLoop 4 r).cursorByte = srcLen r)

/-- `R.PEEK len` completes (40_reader R103, R116): the value is the field of the next `len` stream bits, `pos_r` and the
stream stand. When enough bits are buffered nothing is read (R115), else the register is as FILL leaves it (R100);
afterwards the bits are buffered, so that the same peek again answers the same and changes nothing. -/
def Obligations.PeekReturnsTheNextBits : Prop :=
  ∀ (s : State) (len : Word) (l : Nat), MachineInv s → s.reader.dead = false → OperandIs len l → 1 ≤ l → l ≤ 32 →
    (l ≤ 24 ∨ s.reader.available = 0 ∨ s.reader.available = 24 ∨ l ≤ s.reader.available) →
    l ≤ streamLeft s.reader →
    ∃ v r, exec (.rPeek len) s = .next { s with
        reader := r, response := some { status := 0#8, value := v, infoA := 0#32, infoB := 0#32 }, host := s.host.tail } ∧
      IsField (streamBit s.reader) (posR s.reader) l v ∧ posR r = posR s.reader ∧ ReaderInv r ∧
      r.source = s.reader.source ∧ r.rsrclen = s.reader.rsrclen ∧ r.dead = false ∧ l ≤ r.available ∧
      (l ≤ s.reader.available → r = s.reader) ∧ (s.reader.available < l → FilledThenDropped 0 r)

/-- The wide peek D0 does not settle (40_reader R107): 25 to 31 bits buffered and more asked. With a source byte left it
raises UnalignedPeek and changes nothing; with none left, EndOfStream, and the reader is dead. -/
def Obligations.PeekBeyondTheBufferIsRefused : Prop :=
  ∀ (s : State) (len : Word) (l : Nat), MachineInv s → s.reader.dead = false → OperandIs len l → l ≤ 32 →
    25 ≤ s.reader.available → s.reader.available < l →
    (s.reader.cursorByte < srcLen s.reader →
      exec (.rPeek len) s = .next { s with
        response := some { status := 3#8, value := 0#32, infoA := BitVec.ofNat 32 s.reader.available, infoB := len }
        host := s.host.tail }) ∧
    (s.reader.cursorByte = srcLen s.reader →
      ∃ t, exec (.rPeek len) s = .next t ∧ t.reader.dead = true ∧
        t.response = some { status := 2#8, value := 0#32, infoA := len, infoB := BitVec.ofNat 32 (streamLeft s.reader) })

/-- `R.TAKE len` completes (40_reader R104, R106, R116): the value is the field of the next `len` stream bits, also where
it is assembled from two pieces, and `pos_r` grows by exactly `len`. Enough bits buffered: no source byte is read (R115).
Else a narrow take, or a wide one from an empty register, fills and drops `len` bits (R104); and a wide take with 24 to 31
bits buffered empties the register before it fills, and drops the bits that were missing, at 24 too (R106). -/
def Obligations.TakeReturnsTheNextBits : Prop :=
  ∀ (s : State) (len : Word) (l : Nat), MachineInv s → s.reader.dead = false → OperandIs len l → 1 ≤ l → l ≤ 32 →
    (l ≤ 24 ∨ WideAdmitted s.reader.available) → l ≤ streamLeft s.reader →
    ∃ v r, exec (.rTake len) s = .next { s with
        reader := r, response := some { status := 0#8, value := v, infoA := 0#32, infoB := 0#32 }, host := s.host.tail } ∧
      IsField (streamBit s.reader) (posR s.reader) l v ∧ posR r = posR s.reader + l ∧ ReaderInv r ∧
      r.source = s.reader.source ∧ r.rsrclen = s.reader.rsrclen ∧ r.dead = false ∧
      (l ≤ s.reader.available → r.cursorByte = s.reader.cursorByte ∧ r.available = s.reader.available - l) ∧
      (s.reader.available < l → (l ≤ 24 ∨ s.reader.available = 0) → FilledThenDropped l r) ∧
      (25 ≤ l → 0 < s.reader.available → s.reader.available < l → FilledThenDropped (l - s.reader.available) r)

/-- 40_reader R108: a take right after a successful peek succeeds, returns the same value and advances by `len`; and the
converse does not hold: some take succeeds where the peek raises UnalignedPeek. The spec marks R108 as derived from R103
and R104. -/
def Obligations.PeekThenTakeAgree : Prop :=
  (∀ (s t : State) (len v : Word) (l : Nat), MachineInv s → OperandIs len l →
    exec (.rPeek len) s = .next t →
    t.response = some { status := 0#8, value := v, infoA := 0#32, infoB := 0#32 } →
    ∃ u, exec (.rTake len) t = .next u ∧
      u.response = some { status := 0#8, value := v, infoA := 0#32, infoB := 0#32 } ∧
      posR u.reader = posR s.reader + l) ∧
  ∃ (s t u : State) (len v : Word), MachineInv s ∧ exec (.rTake len) s = .next t ∧
    t.response = some { status := 0#8, value := v, infoA := 0#32, infoB := 0#32 } ∧
    exec (.rPeek len) s = .next u ∧ ∃ e, u.response = some e ∧ e.status = 3#8

/-- A read of 25 to 32 bits is admitted when the register is empty, full, or holds at least `(available mod 8) + 24` bits
(40_reader R105); that this fails exactly for 1 to 23 the spec marks in R105 as derived. When it fails both reads raise
UnalignedPeek(available, len) and change nothing (R103, R104, R105); when it holds `R.TAKE` never raises UnalignedPeek, which
is inferred from R104 and 60_exceptions R185. -/
def Obligations.WideReadAdmission : Prop :=
  (∀ a, a ≤ 32 → (¬WideAdmitted a ↔ 1 ≤ a ∧ a ≤ 23)) ∧
  ∀ (s : State) (len : Word) (l : Nat), MachineInv s → s.reader.dead = false → OperandIs len l → 25 ≤ l → l ≤ 32 →
    (¬WideAdmitted s.reader.available →
      exec (.rPeek len) s = .next { s with
        response := some { status := 3#8, value := 0#32, infoA := BitVec.ofNat 32 s.reader.available, infoB := len }
        host := s.host.tail } ∧
      exec (.rTake len) s = .next { s with
        response := some { status := 3#8, value := 0#32, infoA := BitVec.ofNat 32 s.reader.available, infoB := len }
        host := s.host.tail }) ∧
    (WideAdmitted s.reader.available →
      ∃ t resp, exec (.rTake len) s = .next t ∧ t.response = some resp ∧ resp.status ≠ 3#8)

/-- 60_exceptions R183: `R.PEEK`, `R.TAKE` and `R.SKIP` raise EndOfStream(len, rem0) when they get past the checks before
it and ask for more bits than the stream has left, and only then (the spec marks this cause as derived from 40_reader
R103, R104, R110); the reader is dead afterwards and nothing outside it changes. -/
def Obligations.EndOfStreamMeansTooFewBitsLeft : Prop :=
  ∀ (s : State) (i : Instr) (len : Word) (l : Nat), MachineInv s → s.reader.dead = false → OperandIs len l → 1 ≤ l →
    ((l ≤ 32 ∧ (l ≤ 24 ∨ WideAdmitted s.reader.available) ∧ (i = .rPeek len ∨ i = .rTake len)) ∨ i = .rSkip len) →
    (streamLeft s.reader < l →
      ∃ t, exec i s = .next t ∧ OnlyReaderChanged s t ∧ t.reader.dead = true ∧
        t.response = some { status := 2#8, value := 0#32, infoA := len, infoB := BitVec.ofNat 32 (streamLeft s.reader) } ∧
        (BitVec.ofNat 32 (streamLeft s.reader)).toNat = streamLeft s.reader) ∧
    ∀ t resp, exec i s = .next t → t.response = some resp → resp.status = 2#8 → streamLeft s.reader < l

/-- `R.SKIP len` completes (40_reader R110): `pos_r` grows by exactly `len`, which has no upper limit; inside the register
no source byte is read; past it, when no sub-byte bits remain nothing is buffered (D12), and when some remain FILL runs after the whole
bytes were passed, and they are dropped. -/
def Obligations.SkipMovesThePosition : Prop :=
  ∀ (s : State) (len : Word) (l : Nat), MachineInv s → s.reader.dead = false → OperandIs len l → 1 ≤ l →
    l ≤ streamLeft s.reader →
    ∃ r, exec (.rSkip len) s = .next { s with
        reader := r, response := some { status := 0#8, value := 0#32, infoA := 0#32, infoB := 0#32 }
        host := s.host.tail } ∧
      posR r = posR s.reader + l ∧ ReaderInv r ∧
      r.source = s.reader.source ∧ r.rsrclen = s.reader.rsrclen ∧ r.dead = false ∧
      (l ≤ s.reader.available → r.cursorByte = s.reader.cursorByte ∧ r.available = s.reader.available - l) ∧
      (s.reader.available ≤ l → (l - s.reader.available) % 8 = 0 → r.available = 0) ∧
      (s.reader.available < l → (l - s.reader.available) % 8 ≠ 0 →
        FilledThenDropped ((l - s.reader.available) % 8) r)

/-- 40_reader R111, 10_state R26: what a read of 24 bits or fewer answers, errors included, depends on the source and the
bit position alone, not on how the bits are buffered; so skipped bits leave no trace in it. The spec marks R111 as derived
from R100, R101, R103, R104 and R110. -/
def Obligations.NarrowReadsSeeOnlyThePosition : Prop :=
  ∀ (s1 s2 : State) (len : Word), MachineInv s1 → MachineInv s2 → s1.reader.dead = false → s2.reader.dead = false →
    s1.reader.source = s2.reader.source → s1.reader.rsrclen = s2.reader.rsrclen →
    posR s1.reader = posR s2.reader → len.toInt ≤ 24 →
    (∃ t1 t2, exec (.rPeek len) s1 = .next t1 ∧ exec (.rPeek len) s2 = .next t2 ∧ t1.response = t2.response) ∧
    ∃ t1 t2, exec (.rTake len) s1 = .next t1 ∧ exec (.rTake len) s2 = .next t2 ∧ t1.response = t2.response

/-- `R.ISALIGNED` (40_reader R112): 1 if the bit position is a multiple of 8, else 0, which is the same as
`r.available mod 8 = 0` (10_state R27); nothing else changes. -/
def Obligations.ReaderAlignmentQuery : Prop :=
  opcodeOf .rIsAligned = 0x04#8 ∧ ∀ s : State, MachineInv s → s.reader.dead = false →
    exec .rIsAligned s = .next { s with
      response := some { status := 0#8, value := (if posR s.reader % 8 = 0 then 1#32 else 0#32), infoA := 0#32, infoB := 0#32 }
      host := s.host.tail } ∧
    (posR s.reader % 8 = 0 ↔ s.reader.available % 8 = 0)

/-- `R.BYTEALIGN` (40_reader R113): it returns `(8 - (pos_r mod 8)) mod 8`, moves `pos_r` by that, reads no source byte,
and done twice in a row returns 0 the second time and changes nothing. -/
def Obligations.ReaderByteAlignment : Prop :=
  opcodeOf .rByteAlign = 0x05#8 ∧ ∀ s : State, MachineInv s → s.reader.dead = false →
    ∃ r, exec .rByteAlign s = .next { s with
        reader := r
        response := some { status := 0#8, value := BitVec.ofNat 32 ((8 - posR s.reader % 8) % 8), infoA := 0#32, infoB := 0#32 }
        host := s.host.tail } ∧
      posR r = posR s.reader + (8 - posR s.reader % 8) % 8 ∧ posR r % 8 = 0 ∧ ReaderInv r ∧
      r.cursorByte = s.reader.cursorByte ∧ r.source = s.reader.source ∧ r.rsrclen = s.reader.rsrclen ∧ r.dead = false ∧
      ∀ t : State, t.reader = r →
        exec .rByteAlign t = .next { t with
          response := some { status := 0#8, value := 0#32, infoA := 0#32, infoB := 0#32 }, host := t.host.tail }

/-! ### The writer and growth -/

/-- `W.WRITE value, width` completes (41_writer R133), growing its storage where it must, whenever there is room or the
strategy can supply it (OverflowWhenTheStrategyCannotSupply says what happens otherwise): the field is written most
significant bit first, `pos_w` grows by exactly `width`, every byte the field does not touch reads as before, and the capacity is the
first of the strategy's sizes that has the field's last byte (R131, R135). -/
def Obligations.WriteStoresTheField : Prop :=
  ∀ (s : State) (value width : Word) (wd : Nat), MachineInv s → s.writer.dead = false → OperandIs width wd → 1 ≤ wd → wd ≤ 32 →
    CanHold s.maxCap.toNat ((posW s.writer + wd + 7) / 8) s.writer →
    ∃ w, exec (.wWrite value width) s = .next { s with
        writer := w, response := some { status := 0#8, value := 0#32, infoA := 0#32, infoB := 0#32 }
        host := s.host.tail } ∧
      WriteEffect value wd s.writer w ∧ WriterInv s.maxCap.toNat w ∧
      FirstSizeFor ((posW s.writer + wd + 7) / 8) (cap w) s.writer

/-- `W.SKIP width` completes (41_writer R138), growing its storage where it must, whenever there is room or the strategy
can supply it: `pos_w` grows by exactly `width`, no byte of the storage changes, bytes that growth added are 0x00, and the
capacity is the first of the strategy's sizes that covers the new position (R131). -/
def Obligations.WriterSkipMovesThePosition : Prop :=
  ∀ (s : State) (width : Word) (wd : Nat), MachineInv s → s.writer.dead = false → OperandIs width wd → 1 ≤ wd →
    CanHold s.maxCap.toNat ((posW s.writer + wd + 7) / 8) s.writer →
    ∃ w, exec (.wSkip width) s = .next { s with
        writer := w, response := some { status := 0#8, value := 0#32, infoA := 0#32, infoB := 0#32 }
        host := s.host.tail } ∧
      StorageKept s.writer w ∧ posW w = posW s.writer + wd ∧ WriterInv s.maxCap.toNat w ∧
      FirstSizeFor ((posW s.writer + wd + 7) / 8) (cap w) s.writer ∧
      (∀ a, a < cap s.writer → readSto w a = readSto s.writer a) ∧
      (∀ a, cap s.writer ≤ a → a < cap w → readSto w a = some 0x00#8)

/-- Whatever the strategy did, a write or a skip that answers OK has had its whole effect (41_writer R131, R133, R138;
10_state R41; bytes that growth added are 0x00, 42_growth R167). -/
def Obligations.AcceptedWritesHaveTheirEffect : Prop :=
  (∀ (s t : State) (value width : Word) (resp : Response), MachineInv s → exec (.wWrite value width) s = .next t →
    t.response = some resp → resp.status = 0#8 →
    ∃ wd, OperandIs width wd ∧ 1 ≤ wd ∧ wd ≤ 32 ∧ WriteEffect value wd s.writer t.writer ∧
      FirstSizeFor ((posW s.writer + wd + 7) / 8) (cap t.writer) s.writer ∧ OnlyWriterChanged s t) ∧
  ∀ (s t : State) (width : Word) (resp : Response), MachineInv s → exec (.wSkip width) s = .next t →
    t.response = some resp → resp.status = 0#8 →
    ∃ wd, OperandIs width wd ∧ 1 ≤ wd ∧ StorageKept s.writer t.writer ∧ posW t.writer = posW s.writer + wd ∧
      (∀ a, a < cap s.writer → readSto t.writer a = readSto s.writer a) ∧
      (∀ a, cap s.writer ≤ a → a < cap t.writer → readSto t.writer a = some 0x00#8) ∧
      FirstSizeFor ((posW s.writer + wd + 7) / 8) (cap t.writer) s.writer ∧ OnlyWriterChanged s t

/-- The other way about (41_writer R131, R133, R138; 60_exceptions R186, R192): a write or a skip whose last byte neither the
storage has nor the strategy can supply raises BufferOverflow, the writer is dead, and nothing outside it changes. It
names the capacity at the failure, which is the size at which the strategy gets no further (some growth may have succeeded
before it, and the next size is above `MAX_CAP` or no larger), and the capacity needed, which is
one byte more for a write and the skip's whole length for a skip (of a needed capacity of 2^32 or more the spec does not
say how the field gives it: log entry 19). -/
def Obligations.OverflowWhenTheStrategyCannotSupply : Prop :=
  ∀ (s : State) (value width : Word) (wd : Nat), MachineInv s → s.writer.dead = false → OperandIs width wd → 1 ≤ wd →
    ¬CanHold s.maxCap.toNat ((posW s.writer + wd + 7) / 8) s.writer →
    (wd ≤ 32 → ∃ t c needed, exec (.wWrite value width) s = .next t ∧ OnlyWriterChanged s t ∧ t.writer.dead = true ∧
      t.response = some { status := 4#8, value := 0#32, infoA := needed, infoB := BitVec.ofNat 32 c } ∧
      GrowthStopsAt s.maxCap.toNat c s.writer ∧ cap s.writer ≤ c ∧ c < (posW s.writer + wd + 7) / 8 ∧
      (c + 1 < 2 ^ 32 → needed.toNat = c + 1)) ∧
    ∃ t c needed, exec (.wSkip width) s = .next t ∧ OnlyWriterChanged s t ∧ t.writer.dead = true ∧
      t.response = some { status := 4#8, value := 0#32, infoA := needed, infoB := BitVec.ofNat 32 c } ∧
      GrowthStopsAt s.maxCap.toNat c s.writer ∧ cap s.writer ≤ c ∧ c < (posW s.writer + wd + 7) / 8 ∧
      ((posW s.writer + wd + 7) / 8 < 2 ^ 32 → needed.toNat = (posW s.writer + wd + 7) / 8)

/-- Growth is lazy (41_writer R135, R131): a write or a skip that ends inside the storage there is, or exactly at its end,
completes without growth, under every strategy. -/
def Obligations.GrowthOnlyWhenNeeded : Prop :=
  ∀ (s : State) (value width : Word) (wd : Nat), MachineInv s → s.writer.dead = false → OperandIs width wd → 1 ≤ wd →
    s.writer.hasStorage = true → posW s.writer + wd ≤ 8 * cap s.writer →
    (wd ≤ 32 → ∃ t, exec (.wWrite value width) s = .next t ∧ cap t.writer = cap s.writer ∧
      t.response = some { status := 0#8, value := 0#32, infoA := 0#32, infoB := 0#32 }) ∧
    ∃ w, exec (.wSkip width) s = .next { s with
        writer := w, response := some { status := 0#8, value := 0#32, infoA := 0#32, infoB := 0#32 }
        host := s.host.tail } ∧
      w = { s.writer with cursorByte := w.cursorByte, bitOffset := w.bitOffset } ∧ posW w = posW s.writer + wd

/-- The size each strategy gives (42_growth R162, R163), and the capacity limit (R166), at the moment a write of at most 8
bits begins the byte just past the storage (41_writer R135): the new capacity is `max(2S, 1)` or `S + CHUNK`, without
storage `DEFAULT_CAP` or `CHUNK`; above `MAX_CAP` the write raises BufferOverflow and the writer is dead. -/
def Obligations.GrowthSizes : Prop :=
  ∀ (s : State) (value width : Word) (wd new : Nat), MachineInv s → s.writer.dead = false → OperandIs width wd → 1 ≤ wd →
    wd ≤ 8 → posW s.writer = 8 * cap s.writer →
    ((s.writer.gsel = .doubling ∧
        new = (if s.writer.hasStorage then max (2 * cap s.writer) 1 else s.writer.wdefcap.toNat)) ∨
      (s.writer.gsel = .chunked ∧ new = cap s.writer + s.writer.wchunk.toNat)) →
    cap s.writer < new →
    (new ≤ s.maxCap.toNat → ∃ t, exec (.wWrite value width) s = .next t ∧ cap t.writer = new ∧
      t.writer.hasStorage = true ∧ t.writer.dead = false ∧
      t.response = some { status := 0#8, value := 0#32, infoA := 0#32, infoB := 0#32 } ∧
      ∀ a, a < cap s.writer → readSto t.writer a = readSto s.writer a) ∧
    (s.maxCap.toNat < new → ∃ t needed, exec (.wWrite value width) s = .next t ∧ t.writer.dead = true ∧
      t.response = some { status := 4#8, value := 0#32, infoA := needed, infoB := BitVec.ofNat 32 (cap s.writer) } ∧
      (cap s.writer + 1 < 2 ^ 32 → needed.toNat = cap s.writer + 1))

/-- UNSUPPORTED never grows (42_growth R164, 60_exceptions R186): a write or skip past the last bit of the storage raises
BufferOverflow, the writer is dead, and nothing outside it changes. A write fails at its first chunk past the storage,
a skip names the byte it would have needed. -/
def Obligations.UnsupportedNeverGrows : Prop :=
  ∀ (s : State) (value width : Word) (wd : Nat), MachineInv s → s.writer.dead = false → s.writer.gsel = .unsupported →
    OperandIs width wd → 1 ≤ wd → 8 * cap s.writer < posW s.writer + wd →
    (wd ≤ 32 → ∃ t needed, exec (.wWrite value width) s = .next t ∧ OnlyWriterChanged s t ∧ t.writer.dead = true ∧
      t.response = some { status := 4#8, value := 0#32, infoA := needed, infoB := BitVec.ofNat 32 (cap s.writer) } ∧
      (cap s.writer + 1 < 2 ^ 32 → needed.toNat = cap s.writer + 1)) ∧
    ∃ t needed, exec (.wSkip width) s = .next t ∧ OnlyWriterChanged s t ∧ t.writer.dead = true ∧
      t.response = some { status := 4#8, value := 0#32, infoA := needed, infoB := BitVec.ofNat 32 (cap s.writer) } ∧
      ((posW s.writer + wd + 7) / 8 < 2 ^ 32 → needed.toNat = (posW s.writer + wd + 7) / 8)

/-- 42_growth R167 (and R169, which the spec marks as derived from it): for every index below the old capacity REPLACE
keeps the byte; the bytes it adds are 0x00; the cursor stands. -/
def Obligations.ContentSurvivesGrowth : Prop :=
  ∀ (w : Writer) (new : Nat), cap w ≤ new →
    (∀ a, a < cap w → readSto (replaceStorage new w) a = readSto w a) ∧
    (∀ a, cap w ≤ a → a < new → readSto (replaceStorage new w) a = some 0x00#8) ∧
    cap (replaceStorage new w) = new ∧ posW (replaceStorage new w) = posW w

/-- `W.ISALIGNED` (41_writer R140): 1 if `pos_w` is a multiple of 8, else 0; nothing else changes. -/
def Obligations.WriterAlignmentQuery : Prop :=
  opcodeOf .wIsAligned = 0x12#8 ∧ ∀ s : State, s.writer.dead = false →
    exec .wIsAligned s = .next { s with
      response := some { status := 0#8, value := (if posW s.writer % 8 = 0 then 1#32 else 0#32), infoA := 0#32, infoB := 0#32 }
      host := s.host.tail }

/-- `W.BYTEALIGN` (41_writer R141): it returns the distance to the next byte boundary, moves the cursor there, writes no
byte and leaves `byteLength`; done twice in a row it returns 0 the second time and changes nothing. -/
def Obligations.WriterByteAlignment : Prop :=
  opcodeOf .wByteAlign = 0x13#8 ∧ ∀ s : State, MachineInv s → s.writer.dead = false →
    ∃ w, exec .wByteAlign s = .next { s with
        writer := w
        response := some { status := 0#8, value := BitVec.ofNat 32 ((8 - posW s.writer % 8) % 8), infoA := 0#32, infoB := 0#32 }
        host := s.host.tail } ∧
      w = { s.writer with cursorByte := w.cursorByte, bitOffset := w.bitOffset } ∧
      posW w = posW s.writer + (8 - posW s.writer % 8) % 8 ∧ posW w % 8 = 0 ∧ byteLength w = byteLength s.writer ∧
      WriterInv s.maxCap.toNat w ∧
      ∀ t : State, t.writer = w →
        exec .wByteAlign t = .next { t with
          response := some { status := 0#8, value := 0#32, infoA := 0#32, infoB := 0#32 }, host := t.host.tail }

/-- `W.BYTELENGTH` (41_writer R143, 10_state R38): the value, as a number, is the count of bytes at or behind the cursor,
`ceil(pos_w / 8)`; it fits 32 bits; nothing else changes. -/
def Obligations.ByteLengthIsAnswered : Prop :=
  opcodeOf .wByteLength = 0x14#8 ∧ ∀ s : State, MachineInv s → s.writer.dead = false →
    ∃ v : Word, exec .wByteLength s = .next { s with
        response := some { status := 0#8, value := v, infoA := 0#32, infoB := 0#32 }, host := s.host.tail } ∧
      v.toNat = s.writer.cursorByte + (if s.writer.bitOffset = 0 then 0 else 1) ∧ v.toNat = (posW s.writer + 7) / 8

/-- `W.COPYTO offset, dlen` completes (41_writer R145): `DST` from `offset` on becomes the `byteLength` bytes of the view
(10_state R46), every other byte of `DST` and the whole rest of the machine stand. -/
def Obligations.CopyToCopiesTheView : Prop :=
  ∀ (s : State) (offset dlen : Word), MachineInv s → s.writer.dead = false →
    offset.toNat + byteLength s.writer ≤ dlen.toNat →
    ∃ d, exec (.wCopyTo offset dlen) s = .next { s with
        dst := d, response := some { status := 0#8, value := 0#32, infoA := 0#32, infoB := 0#32 }, host := s.host.tail } ∧
      (∀ i, i < byteLength s.writer →
        memRead .dst d (offset.toNat + i) = view s.writer i ∧ (view s.writer i).isSome = true) ∧
      ∀ a, (a < offset.toNat ∨ offset.toNat + byteLength s.writer ≤ a) → memRead .dst d a = readDst s a

/-- 60_exceptions R187: `W.COPYTO` raises InsufficientSpace(byteLength, the space from `offset` on) when
`offset + byteLength > dlen`, over the integers; nothing else changes. -/
def Obligations.CopyToWithoutSpace : Prop :=
  ∀ (s : State) (offset dlen : Word), s.writer.dead = false →
    offset.toNat + byteLength s.writer > dlen.toNat →
    exec (.wCopyTo offset dlen) s = .next { s with
      response := some { status := 5#8, value := 0#32, infoA := BitVec.ofNat 32 (byteLength s.writer),
                         infoB := (if offset.toNat ≤ dlen.toNat then dlen - offset else 0#32) }
      host := s.host.tail }

/-! ### Errors and the two units -/

/-- 60_exceptions R182: `R.PEEK`, `R.TAKE` and `W.WRITE` with a width below 1 or above 32, and `R.SKIP` and `W.SKIP` with a
length below 1, as signed numbers, raise RangeError(raw operand, 0) and change nothing. -/
def Obligations.RangeErrors : Prop :=
  ∀ (s : State) (x value : Word),
    (s.reader.dead = false → (x.toInt ≤ 0 ∨ 32 < x.toInt) → ∀ i ∈ [Instr.rPeek x, Instr.rTake x],
      exec i s = .next { s with
        response := some { status := 1#8, value := 0#32, infoA := x, infoB := 0#32 }, host := s.host.tail }) ∧
    (s.reader.dead = false → x.toInt ≤ 0 →
      exec (.rSkip x) s = .next { s with
        response := some { status := 1#8, value := 0#32, infoA := x, infoB := 0#32 }, host := s.host.tail }) ∧
    (s.writer.dead = false → (x.toInt ≤ 0 ∨ 32 < x.toInt) →
      exec (.wWrite value x) s = .next { s with
        response := some { status := 1#8, value := 0#32, infoA := x, infoB := 0#32 }, host := s.host.tail }) ∧
    (s.writer.dead = false → x.toInt ≤ 0 →
      exec (.wSkip x) s = .next { s with
        response := some { status := 1#8, value := 0#32, infoA := x, infoB := 0#32 }, host := s.host.tail })

/-- Which command can raise which error: the table of 60_exceptions R195, which the spec marks as derived from the command
rules. -/
def Obligations.ErrorsOfEachCommand : Prop :=
  ∀ (i : Instr) (s t : State), exec i s = .next t → ∃ resp, t.response = some resp ∧ resp.status ∈ allowedStatus i

/-- The shape of every response (30_encoding R76, R77): an error carries no value, a success no detail; the commands
without a result answer 0, the alignment queries 0 or 1, the alignments 0 to 7. -/
def Obligations.ResponsesAreWellShaped : Prop :=
  ∀ (i : Instr) (s t : State) (resp : Response), exec i s = .next t → t.response = some resp →
    (resp.status ≠ 0#8 → resp.value = 0#32) ∧
    (resp.status = 0#8 → resp.infoA = 0#32 ∧ resp.infoB = 0#32 ∧
      (∀ x y, (i = .rSkip x ∨ i = .wWrite x y ∨ i = .wSkip x ∨ i = .wCopyTo x y) → resp.value = 0#32) ∧
      ((i = .rIsAligned ∨ i = .wIsAligned) → resp.value.toNat ≤ 1) ∧
      ((i = .rByteAlign ∨ i = .wByteAlign) → resp.value.toNat ≤ 7))

/-- 60_exceptions R191: a command word answered RangeError, UnalignedPeek, InsufficientSpace or IllegalCommand has changed
no register and no byte, and the unit is as ready for the next command as it was; only the response is given and the
command taken. -/
def Obligations.LocalErrorsChangeNothing : Prop :=
  ∀ (s t : State) (w : CommandWord) (rest : List HostEvent) (resp : Response), s.host = .command w :: rest →
    step s = .next t → t.response = some resp → resp.status ∈ [1#8, 3#8, 5#8, 6#8] →
    t = { s with response := some resp, host := rest }

/-- 60_exceptions R192: EndOfStream leaves the reader dead and BufferOverflow the writer, and nothing else makes a unit
dead; every command to a dead unit is refused. -/
def Obligations.FatalErrorsKillTheUnit : Prop :=
  (∀ (i : Instr) (s t : State) (resp : Response), exec i s = .next t → t.response = some resp →
    (resp.status = 2#8 → unitOf i = .reader ∧ t.reader.dead = true) ∧
    (resp.status = 4#8 → unitOf i = .writer ∧ t.writer.dead = true) ∧
    (resp.status ≠ 2#8 → t.reader.dead = s.reader.dead) ∧ (resp.status ≠ 4#8 → t.writer.dead = s.writer.dead)) ∧
  ∀ (i : Instr) (s : State),
    (unitOf i = .reader → s.reader.dead = true → exec i s = .refused .deadReader) ∧
    (unitOf i = .writer → s.writer.dead = true → exec i s = .refused .deadWriter)

/-- 00_scope R2, 20_memory R65: the units share no state. A reader command leaves the writer, `DST` and `SRC`; a writer
command leaves the reader, and every one but `W.COPYTO` leaves `DST`; no command changes a configuration input, `MAX_CAP`
or anything of the host's but the event it takes (10_state R43). -/
def Obligations.UnitsShareNoState : Prop :=
  ∀ (i : Instr) (s t : State), exec i s = .next t →
    (unitOf i = .reader → OnlyReaderChanged s t) ∧
    (unitOf i = .writer →
      t.reader = s.reader ∧ t.maxCap = s.maxCap ∧ t.host = s.host.tail ∧ t.writer.wcfg = s.writer.wcfg ∧
      t.writer.wbuflen = s.writer.wbuflen ∧ t.writer.wdefcap = s.writer.wdefcap ∧ t.writer.wchunk = s.writer.wchunk ∧
      ((∀ o d, i ≠ .wCopyTo o d) → t.dst = s.dst))

/-- 60_exceptions R206: a reader command and a writer command give the same responses and leave the same machine in either
order (what a dead unit holds is unspecified, so it is not compared). -/
def Obligations.UnitsCommute : Prop :=
  ∀ (i j : Instr) (s t u : State), unitOf i = .reader → unitOf j = .writer →
    exec i s = .next t → exec j t = .next u →
    ∃ t' u', exec j s = .next t' ∧ exec i t' = .next u' ∧ t'.response = u.response ∧ u'.response = t.response ∧
      u'.dst = u.dst ∧ u'.reader.dead = u.reader.dead ∧ u'.writer.dead = u.writer.dead ∧
      (u.reader.dead = false → u'.reader = u.reader) ∧ (u.writer.dead = false → u'.writer = u.writer)

/-- Both cursors are forward-only (10_state R21, R32), and the capacity never shrinks nor is storage released (42_growth
R160, R167; R168, which the spec marks as derived from them), as long as the unit is not dead. -/
def Obligations.CursorsOnlyMoveForward : Prop :=
  ∀ (i : Instr) (s t : State), MachineInv s → exec i s = .next t →
    (t.reader.dead = false → s.reader.cursorByte ≤ t.reader.cursorByte ∧ posR s.reader ≤ posR t.reader) ∧
    (t.writer.dead = false → s.writer.cursorByte ≤ t.writer.cursorByte ∧ posW s.writer ≤ posW t.writer ∧
      cap s.writer ≤ cap t.writer ∧ (s.writer.hasStorage = true → t.writer.hasStorage = true))

/-- THE ROUND TRIP (41_writer R147): fields written one after another from bit 0, copied out by `W.COPYTO`, and read back
with the same widths by a reader over the copied bytes give the values masked to their widths, unless a take raises
UnalignedPeek; EndOfStream cannot occur. When no width is above 24 every take succeeds. The spec marks R147 as derived
from R133, 40_reader R104, R105 and 20_memory R55, R56. -/
def Obligations.RoundTrip : Prop :=
  ∀ (fields : List (Word × Word)) (s t u r : State) (offset dlen : Word), MachineInv s → s.writer.dead = false →
    posW s.writer = 0 → writeAll fields s = some t →
    exec (.wCopyTo offset dlen) t = .next u → u.response = some (okResponse 0#32) →
    MachineInv r → r.reader.dead = false → posR r.reader = 0 → srcLen r.reader = byteLength t.writer →
    (∀ a, a < byteLength t.writer → readSrc r.reader a = readDst u (offset.toNat + a)) →
    (∀ values, takeAll (fields.map Prod.snd) r = .ok values → values = fields.map fun f => f.1 &&& mask f.2.toNat) ∧
    (∀ resp, takeAll (fields.map Prod.snd) r = .error resp → ∃ e, resp = some e ∧ e.status = 3#8) ∧
    ((∀ f ∈ fields, f.2.toInt ≤ 24) → ∃ values, takeAll (fields.map Prod.snd) r = .ok values)
end

