-- ==== Sys2Proof/Laws/Memory.lean ====
section
/-! SUPPORT. The laws of memory: what a read sees after a write, a cut or an image, and that every operation keeps the
canonical form `Memory.wf`. -/

namespace Sys2Proof.Machine

/-- Strictly rising indices. -/
abbrev Rising (m : Memory) : Prop := m.Pairwise fun c d => c.1 < d.1

theorem wf_iff (sp : Space) (m : Memory) :
    m.wf sp = true ↔ Rising m ∧ ∀ c ∈ m, unlisted sp ≠ some c.2 := by
  simp [Memory.wf, Rising]

theorem wf_nil (sp : Space) : Memory.wf sp [] = true := by simp [wf_iff]

theorem cellAt_eq_none_of_lt {m : Memory} {a : Nat} (h : ∀ c ∈ m, a < c.1) : cellAt m a = none := by
  induction m with
  | nil => rfl
  | cons c m ih =>
    obtain ⟨b, x⟩ := c
    have hb : a < b := h (b, x) (by simp)
    simp only [cellAt, if_neg (by omega : a ≠ b)]
    exact ih fun d hd => h d (by simp [hd])

theorem cellAt_eq_some_mem {m : Memory} {a : Nat} {v : Byte} (h : cellAt m a = some v) : (a, v) ∈ m := by
  induction m with
  | nil => simp [cellAt] at h
  | cons c m ih =>
    obtain ⟨b, x⟩ := c
    simp only [cellAt] at h
    split at h
    · simp_all
    · exact List.mem_cons_of_mem _ (ih h)

theorem putCell_cases (sp : Space) (a : Nat) (v : Byte) (m : Memory) :
    (unlisted sp = some v ∧ putCell sp a v m = m) ∨ (unlisted sp ≠ some v ∧ putCell sp a v m = (a, v) :: m) := by
  unfold putCell
  split <;> simp_all

theorem memRead_putCell {sp : Space} {a : Nat} {v : Byte} {m : Memory} (h : ∀ c ∈ m, a < c.1) (b : Nat) :
    memRead sp (putCell sp a v m) b = if b = a then some v else memRead sp m b := by
  rcases putCell_cases sp a v m with ⟨hu, he⟩ | ⟨_, he⟩ <;> rw [he]
  · split
    · subst_vars
      simp [memRead, cellAt_eq_none_of_lt h, hu]
    · rfl
  · simp only [memRead, cellAt]
    split <;> simp

/-- A read after a write: the byte written at its index, every other byte as before. -/
theorem memRead_memWrite {sp : Space} {m : Memory} (hm : Rising m) (a : Nat) (v : Byte) (b : Nat) :
    memRead sp (memWrite sp m a v) b = if b = a then some v else memRead sp m b := by
  induction m with
  | nil => exact memRead_putCell (by simp) b
  | cons c m ih =>
    obtain ⟨d, x⟩ := c
    have hm' : Rising m := hm.of_cons
    have hd : ∀ c ∈ m, d < c.1 := fun c hc => List.rel_of_pairwise_cons hm hc
    simp only [memWrite]
    split
    · refine memRead_putCell (fun c hc => ?_) b
      rcases List.mem_cons.1 hc with rfl | hc
      · assumption
      · have := hd c hc
        omega
    · split
      · subst_vars
        rw [memRead_putCell hd]
        split
        · rfl
        · simp [memRead, cellAt, *]
      · by_cases hb : b = d
        · subst hb
          simp [memRead, cellAt, *]
          intro h
          omega
        · have := ih hm'
          simp only [memRead, cellAt, if_neg hb] at this ⊢
          exact this

theorem mem_memWrite {sp : Space} {m : Memory} {a : Nat} {v : Byte} {c : Host.Cell}
    (h : c ∈ memWrite sp m a v) : c ∈ m ∨ (c = (a, v) ∧ unlisted sp ≠ some v) := by
  induction m with
  | nil =>
    rcases putCell_cases sp a v [] with ⟨_, he⟩ | ⟨hu, he⟩ <;> simp_all [memWrite]
  | cons d m ih =>
    obtain ⟨b, x⟩ := d
    simp only [memWrite] at h
    split at h
    · rcases putCell_cases sp a v ((b, x) :: m) with ⟨_, he⟩ | ⟨hu, he⟩ <;> simp_all
      tauto
    · split at h
      · rcases putCell_cases sp a v m with ⟨_, he⟩ | ⟨hu, he⟩ <;> simp_all
        tauto
      · rcases List.mem_cons.1 h with rfl | h
        · simp
        · rcases ih h with h | h <;> simp [h]

theorem rising_putCell {sp : Space} {a : Nat} {v : Byte} {m : Memory} (hm : Rising m) (h : ∀ c ∈ m, a < c.1) :
    Rising (putCell sp a v m) := by
  rcases putCell_cases sp a v m with ⟨_, he⟩ | ⟨_, he⟩ <;> rw [he]
  · exact hm
  · exact List.pairwise_cons.2 ⟨h, hm⟩

theorem rising_memWrite {sp : Space} {m : Memory} (hm : Rising m) (a : Nat) (v : Byte) :
    Rising (memWrite sp m a v) := by
  induction m with
  | nil => exact rising_putCell hm (by simp)
  | cons c m ih =>
    obtain ⟨d, x⟩ := c
    have hm' : Rising m := hm.of_cons
    have hd : ∀ c ∈ m, d < c.1 := fun c hc => List.rel_of_pairwise_cons hm hc
    simp only [memWrite]
    split
    · refine rising_putCell hm fun c hc => ?_
      rcases List.mem_cons.1 hc with rfl | hc
      · assumption
      · have := hd c hc
        omega
    · split
      · subst_vars
        exact rising_putCell hm' hd
      · refine List.pairwise_cons.2 ⟨fun c hc => ?_, ih hm'⟩
        rcases mem_memWrite hc with hc | ⟨rfl, _⟩
        · exact hd c hc
        · simp only
          omega

/-- A write keeps the canonical form. -/
theorem wf_memWrite {sp : Space} {m : Memory} (hm : m.wf sp = true) (a : Nat) (v : Byte) :
    Memory.wf sp (memWrite sp m a v) = true := by
  rw [wf_iff] at hm ⊢
  refine ⟨rising_memWrite hm.1 a v, fun c hc => ?_⟩
  rcases mem_memWrite hc with hc | ⟨rfl, hu⟩
  · exact hm.2 c hc
  · exact hu

theorem memBelow_iff (len : Nat) (m : Memory) : memBelow len m = true ↔ ∀ c ∈ m, c.1 < len := by
  simp [memBelow]

theorem memBelow_memWrite {sp : Space} {m : Memory} {len : Nat} (hm : memBelow len m = true) {a : Nat} (ha : a < len)
    (v : Byte) : memBelow len (memWrite sp m a v) = true := by
  rw [memBelow_iff] at hm ⊢
  intro c hc
  rcases mem_memWrite hc with hc | ⟨rfl, _⟩
  · exact hm c hc
  · exact ha

/-- Past the bound an unlisted byte is read. -/
theorem memRead_of_memBelow {sp : Space} {m : Memory} {len a : Nat} (hm : memBelow len m = true) (ha : len ≤ a) :
    memRead sp m a = unlisted sp := by
  rw [memBelow_iff] at hm
  have : cellAt m a = none := by
    rcases h : cellAt m a with _ | v
    · rfl
    · have := hm _ (cellAt_eq_some_mem h)
      simp only at this
      omega
  simp [memRead, this]

/-- A cut keeps the canonical form. -/
theorem wf_memCut {sp : Space} {m : Memory} (hm : m.wf sp = true) (len : Nat) : Memory.wf sp (memCut len m) = true := by
  rw [wf_iff] at hm ⊢
  exact ⟨hm.1.filter _, fun c hc => hm.2 c (List.mem_of_mem_filter hc)⟩

theorem memBelow_memCut (len : Nat) (m : Memory) : memBelow len (memCut len m) = true := by
  simp [memBelow_iff, memCut]

/-- A cut keeps what lies below it and unlists the rest. -/
theorem memRead_memCut (sp : Space) (len : Nat) (m : Memory) (a : Nat) :
    memRead sp (memCut len m) a = if a < len then memRead sp m a else unlisted sp := by
  split
  · rename_i ha
    suffices h : cellAt (memCut len m) a = cellAt m a by simp [memRead, h]
    induction m with
    | nil => rfl
    | cons c m ih =>
      obtain ⟨b, x⟩ := c
      by_cases hb : b < len
      · have : memCut len ((b, x) :: m) = (b, x) :: memCut len m := by simp [memCut, hb]
        rw [this]
        simp only [cellAt, ih]
      · have : memCut len ((b, x) :: m) = memCut len m := by simp [memCut, hb]
        rw [this, ih]
        simp only [cellAt, if_neg (by omega : a ≠ b)]
  · exact memRead_of_memBelow (memBelow_memCut len m) (by omega)

theorem memBelow_mono {len len' : Nat} (h : len ≤ len') {m : Memory} (hm : memBelow len m = true) :
    memBelow len' m = true := by
  rw [memBelow_iff] at hm ⊢
  exact fun c hc => lt_of_lt_of_le (hm c hc) h

/-- Any list of cells makes a canonical memory. -/
theorem wf_memOfCells (sp : Space) (cells : List Host.Cell) : Memory.wf sp (memOfCells sp cells) = true := by
  induction cells with
  | nil => exact wf_nil sp
  | cons c cells ih => exact wf_memWrite ih c.1 c.2

/-- The memory of a list of cells reads as the list says, the first entry for an index standing. -/
theorem memRead_memOfCells (sp : Space) (cells : List Host.Cell) (a : Nat) :
    memRead sp (memOfCells sp cells) a = memRead sp cells a := by
  induction cells with
  | nil => rfl
  | cons c cells ih =>
    obtain ⟨b, x⟩ := c
    have hr := ((wf_iff sp _).1 (wf_memOfCells sp cells)).1
    show memRead sp (memWrite sp (memOfCells sp cells) b x) a = _
    rw [memRead_memWrite hr, ih]
    simp only [memRead, cellAt]
    split <;> simp

theorem wf_memImage (sp : Space) (len : Nat) (cells : List Host.Cell) : Memory.wf sp (memImage sp len cells) = true :=
  wf_memCut (wf_memOfCells sp cells) len

theorem memBelow_memImage (sp : Space) (len : Nat) (cells : List Host.Cell) :
    memBelow len (memImage sp len cells) = true := memBelow_memCut len _

/-- The contents a host supplies: below the length what the host lists, past it nothing. -/
theorem memRead_memImage (sp : Space) (len : Nat) (cells : List Host.Cell) (a : Nat) :
    memRead sp (memImage sp len cells) a = if a < len then memRead sp cells a else unlisted sp := by
  rw [memImage, memRead_memCut, memRead_memOfCells]

/-- In `SRC` and `STO` every index reads as a byte. -/
theorem memRead_src (m : Memory) (a : Nat) : memRead .src m a = some (byteAt .src m a) := by
  simp only [byteAt, memRead, unlisted]
  cases cellAt m a <;> rfl

theorem memRead_sto (m : Memory) (a : Nat) : memRead .sto m a = some (byteAt .sto m a) := by
  simp only [byteAt, memRead, unlisted]
  cases cellAt m a <;> rfl

theorem byteAt_memWrite {sp : Space} {m : Memory} (hm : m.wf sp = true) (a : Nat) (v : Byte) (b : Nat) :
    byteAt sp (memWrite sp m a v) b = if b = a then v else byteAt sp m b := by
  simp only [byteAt, memRead_memWrite ((wf_iff sp m).1 hm).1]
  split <;> rfl

end Sys2Proof.Machine
end

