-- ==== Sys2Proof/Laws/State.lean ====
section
/-! SUPPORT. One lemma per field per update, true by rfl, so that no proof unfolds a record update. -/

namespace Sys2Proof.Machine

/-! ### answer -/

@[simp] theorem answer_reader (r : Response) (s : State) : (answer r s).reader = s.reader := rfl
@[simp] theorem answer_writer (r : Response) (s : State) : (answer r s).writer = s.writer := rfl
@[simp] theorem answer_dst (r : Response) (s : State) : (answer r s).dst = s.dst := rfl
@[simp] theorem answer_maxCap (r : Response) (s : State) : (answer r s).maxCap = s.maxCap := rfl
@[simp] theorem answer_response (r : Response) (s : State) : (answer r s).response = some r := rfl
@[simp] theorem answer_host (r : Response) (s : State) : (answer r s).host = s.host.tail := rfl
@[simp] theorem answer_freeIndex (r : Response) (s : State) : (answer r s).freeIndex = s.freeIndex := rfl

/-! ### responses -/

@[simp] theorem okResponse_status (v : Word) : (okResponse v).status = 0#8 := rfl
@[simp] theorem okResponse_value (v : Word) : (okResponse v).value = v := rfl
@[simp] theorem okResponse_infoA (v : Word) : (okResponse v).infoA = 0#32 := rfl
@[simp] theorem okResponse_infoB (v : Word) : (okResponse v).infoB = 0#32 := rfl
@[simp] theorem errorResponse_status (e : Raised) : (errorResponse e).status = statusCode e := rfl
@[simp] theorem errorResponse_value (e : Raised) : (errorResponse e).value = 0#32 := rfl
@[simp] theorem errorResponse_infoA (e : Raised) : (errorResponse e).infoA = detailA e := rfl
@[simp] theorem errorResponse_infoB (e : Raised) : (errorResponse e).infoB = detailB e := rfl

/-! ### killReader and killWriter -/

@[simp] theorem killReader_dead (s : State) : (killReader s).reader.dead = true := rfl
@[simp] theorem killReader_source (s : State) : (killReader s).reader.source = s.reader.source := rfl
@[simp] theorem killReader_rsrclen (s : State) : (killReader s).reader.rsrclen = s.reader.rsrclen := rfl
@[simp] theorem killReader_writer (s : State) : (killReader s).writer = s.writer := rfl
@[simp] theorem killReader_dst (s : State) : (killReader s).dst = s.dst := rfl
@[simp] theorem killReader_maxCap (s : State) : (killReader s).maxCap = s.maxCap := rfl
@[simp] theorem killReader_response (s : State) : (killReader s).response = s.response := rfl
@[simp] theorem killReader_host (s : State) : (killReader s).host = s.host := rfl
@[simp] theorem killReader_freeIndex (s : State) : (killReader s).freeIndex = s.freeIndex + 1 := rfl
@[simp] theorem killWriter_dead (s : State) : (killWriter s).writer.dead = true := rfl
@[simp] theorem killWriter_wcfg (s : State) : (killWriter s).writer.wcfg = s.writer.wcfg := rfl
@[simp] theorem killWriter_wbuflen (s : State) : (killWriter s).writer.wbuflen = s.writer.wbuflen := rfl
@[simp] theorem killWriter_wdefcap (s : State) : (killWriter s).writer.wdefcap = s.writer.wdefcap := rfl
@[simp] theorem killWriter_wchunk (s : State) : (killWriter s).writer.wchunk = s.writer.wchunk := rfl
@[simp] theorem killWriter_storage (s : State) :
    (killWriter s).writer.storage = memOfCells .sto (Config.deadWriterStorage s.freeIndex) := rfl
@[simp] theorem killWriter_reader (s : State) : (killWriter s).reader = s.reader := rfl
@[simp] theorem killWriter_dst (s : State) : (killWriter s).dst = s.dst := rfl
@[simp] theorem killWriter_maxCap (s : State) : (killWriter s).maxCap = s.maxCap := rfl
@[simp] theorem killWriter_response (s : State) : (killWriter s).response = s.response := rfl
@[simp] theorem killWriter_host (s : State) : (killWriter s).host = s.host := rfl
@[simp] theorem killWriter_freeIndex (s : State) : (killWriter s).freeIndex = s.freeIndex + 1 := rfl

/-! ### errorEffect and deliver -/

@[simp] theorem errorEffect_rangeError (x : Word) (s : State) : errorEffect (.rangeError x) s = s := rfl
@[simp] theorem errorEffect_unalignedPeek (a l : Word) (s : State) : errorEffect (.unalignedPeek a l) s = s := rfl
@[simp] theorem errorEffect_insufficientSpace (a b : Word) (s : State) :
    errorEffect (.insufficientSpace a b) s = s := rfl
@[simp] theorem errorEffect_illegalCommand (x : Word) (s : State) : errorEffect (.illegalCommand x) s = s := rfl
@[simp] theorem errorEffect_endOfStream (a b : Word) (s : State) :
    errorEffect (.endOfStream a b) s = killReader s := rfl
@[simp] theorem errorEffect_bufferOverflow (a b : Word) (s : State) :
    errorEffect (.bufferOverflow a b) s = killWriter s := rfl
@[simp] theorem deliver_reader (e : Raised) (s : State) : (deliver e s).reader = (errorEffect e s).reader := rfl
@[simp] theorem deliver_writer (e : Raised) (s : State) : (deliver e s).writer = (errorEffect e s).writer := rfl
@[simp] theorem deliver_dst (e : Raised) (s : State) : (deliver e s).dst = s.dst := by cases e <;> rfl
@[simp] theorem deliver_maxCap (e : Raised) (s : State) : (deliver e s).maxCap = s.maxCap := by cases e <;> rfl
@[simp] theorem deliver_response (e : Raised) (s : State) : (deliver e s).response = some (errorResponse e) := rfl
@[simp] theorem deliver_host (e : Raised) (s : State) : (deliver e s).host = s.host.tail := by cases e <;> rfl

/-! ### loadByte and drop -/

@[simp] theorem loadByte_source (r : Reader) : (loadByte r).source = r.source := rfl
@[simp] theorem loadByte_rsrclen (r : Reader) : (loadByte r).rsrclen = r.rsrclen := rfl
@[simp] theorem loadByte_cursorByte (r : Reader) : (loadByte r).cursorByte = r.cursorByte + 1 := rfl
@[simp] theorem loadByte_available (r : Reader) : (loadByte r).available = r.available + 8 := rfl
@[simp] theorem loadByte_dead (r : Reader) : (loadByte r).dead = r.dead := rfl
@[simp] theorem loadByte_srcLen (r : Reader) : srcLen (loadByte r) = srcLen r := rfl
@[simp] theorem drop_source (n : Nat) (r : Reader) : (drop n r).source = r.source := rfl
@[simp] theorem drop_rsrclen (n : Nat) (r : Reader) : (drop n r).rsrclen = r.rsrclen := rfl
@[simp] theorem drop_cursorByte (n : Nat) (r : Reader) : (drop n r).cursorByte = r.cursorByte := rfl
@[simp] theorem drop_available (n : Nat) (r : Reader) : (drop n r).available = r.available - n := rfl
@[simp] theorem drop_register (n : Nat) (r : Reader) : (drop n r).register = shl32 r.register n := rfl
@[simp] theorem drop_dead (n : Nat) (r : Reader) : (drop n r).dead = r.dead := rfl
@[simp] theorem drop_srcLen (n : Nat) (r : Reader) : srcLen (drop n r) = srcLen r := rfl

/-! ### replaceStorage -/

@[simp] theorem replaceStorage_wcfg (n : Nat) (w : Writer) : (replaceStorage n w).wcfg = w.wcfg := rfl
@[simp] theorem replaceStorage_wbuflen (n : Nat) (w : Writer) : (replaceStorage n w).wbuflen = w.wbuflen := rfl
@[simp] theorem replaceStorage_wdefcap (n : Nat) (w : Writer) : (replaceStorage n w).wdefcap = w.wdefcap := rfl
@[simp] theorem replaceStorage_wchunk (n : Nat) (w : Writer) : (replaceStorage n w).wchunk = w.wchunk := rfl
@[simp] theorem replaceStorage_gsel (n : Nat) (w : Writer) : (replaceStorage n w).gsel = w.gsel := rfl
@[simp] theorem replaceStorage_hasStorage (n : Nat) (w : Writer) : (replaceStorage n w).hasStorage = true := rfl
@[simp] theorem replaceStorage_capacity (n : Nat) (w : Writer) : (replaceStorage n w).capacity = n := rfl
@[simp] theorem replaceStorage_storage (n : Nat) (w : Writer) :
    (replaceStorage n w).storage = memCut (cap w) w.storage := rfl
@[simp] theorem replaceStorage_cursorByte (n : Nat) (w : Writer) :
    (replaceStorage n w).cursorByte = w.cursorByte := rfl
@[simp] theorem replaceStorage_bitOffset (n : Nat) (w : Writer) : (replaceStorage n w).bitOffset = w.bitOffset := rfl
@[simp] theorem replaceStorage_dead (n : Nat) (w : Writer) : (replaceStorage n w).dead = w.dead := rfl
@[simp] theorem replaceStorage_cap (n : Nat) (w : Writer) : cap (replaceStorage n w) = n := rfl

/-! ### putChunk -/

@[simp] theorem putChunk_wcfg (v : Word) (n : Nat) (w : Writer) : (putChunk v n w).wcfg = w.wcfg := rfl
@[simp] theorem putChunk_wbuflen (v : Word) (n : Nat) (w : Writer) : (putChunk v n w).wbuflen = w.wbuflen := rfl
@[simp] theorem putChunk_wdefcap (v : Word) (n : Nat) (w : Writer) : (putChunk v n w).wdefcap = w.wdefcap := rfl
@[simp] theorem putChunk_wchunk (v : Word) (n : Nat) (w : Writer) : (putChunk v n w).wchunk = w.wchunk := rfl
@[simp] theorem putChunk_gsel (v : Word) (n : Nat) (w : Writer) : (putChunk v n w).gsel = w.gsel := rfl
@[simp] theorem putChunk_hasStorage (v : Word) (n : Nat) (w : Writer) :
    (putChunk v n w).hasStorage = w.hasStorage := rfl
@[simp] theorem putChunk_capacity (v : Word) (n : Nat) (w : Writer) : (putChunk v n w).capacity = w.capacity := rfl
@[simp] theorem putChunk_cap (v : Word) (n : Nat) (w : Writer) : cap (putChunk v n w) = cap w := rfl
@[simp] theorem putChunk_dead (v : Word) (n : Nat) (w : Writer) : (putChunk v n w).dead = w.dead := rfl

/-! ### atPosition -/

@[simp] theorem atPosition_wcfg (p : Nat) (w : Writer) : (atPosition p w).wcfg = w.wcfg := rfl
@[simp] theorem atPosition_wbuflen (p : Nat) (w : Writer) : (atPosition p w).wbuflen = w.wbuflen := rfl
@[simp] theorem atPosition_wdefcap (p : Nat) (w : Writer) : (atPosition p w).wdefcap = w.wdefcap := rfl
@[simp] theorem atPosition_wchunk (p : Nat) (w : Writer) : (atPosition p w).wchunk = w.wchunk := rfl
@[simp] theorem atPosition_gsel (p : Nat) (w : Writer) : (atPosition p w).gsel = w.gsel := rfl
@[simp] theorem atPosition_hasStorage (p : Nat) (w : Writer) : (atPosition p w).hasStorage = w.hasStorage := rfl
@[simp] theorem atPosition_capacity (p : Nat) (w : Writer) : (atPosition p w).capacity = w.capacity := rfl
@[simp] theorem atPosition_storage (p : Nat) (w : Writer) : (atPosition p w).storage = w.storage := rfl
@[simp] theorem atPosition_cursorByte (p : Nat) (w : Writer) : (atPosition p w).cursorByte = p / 8 := rfl
@[simp] theorem atPosition_bitOffset (p : Nat) (w : Writer) : (atPosition p w).bitOffset.val = p % 8 := rfl
@[simp] theorem atPosition_dead (p : Nat) (w : Writer) : (atPosition p w).dead = w.dead := rfl
@[simp] theorem atPosition_cap (p : Nat) (w : Writer) : cap (atPosition p w) = cap w := rfl

/-! ### reset and the host's events -/

@[simp] theorem withFetchWord_host (s : State) (nbits w : Nat) :
    (s.withFetchWord nbits w).host = .command (tableWord nbits w) :: s.host := rfl

/-- `State.reset` is the reset of both units with the configuration inputs of log entry 2 (10_state R48). -/
theorem reset_units : State.reset.reader = freshReader 0#32 [] ∧ State.reset.writer = freshWriter 0#3 0#32 1#32 1#32 [] :=
  ⟨rfl, rfl⟩

end Sys2Proof.Machine
end

