-- ==== Sys2Proof/Laws/Reader.lean ====
section
/-! SUPPORT. What the reader's shared operations can do, said once for each: the operand checks, FILL, DROP, EXTRACT, and
the shape of a reader command. -/

namespace Sys2Proof.Machine

/-! ### Operators -/

@[simp] theorem getLsbD_mask (n j : Nat) : (mask n).getLsbD j = (decide (j < 32) && decide (j < n)) := by
  simp [mask, BitVec.getLsbD_ofNat, Nat.testBit_two_pow_sub_one]

@[simp] theorem getLsbD_shl32 (a : Word) (n j : Nat) :
    (shl32 a n).getLsbD j = (decide (j < 32) && (decide (n ≤ j) && a.getLsbD (j - n))) := by
  simp [shl32, BitVec.getLsbD_shiftLeft]
  by_cases h : j < n
  · simp [h]
  · simp [h, show n ≤ j by omega]

@[simp] theorem getMsbD_shl32 (a : Word) (n i : Nat) : (shl32 a n).getMsbD i = a.getMsbD (i + n) := by
  simp [shl32, Nat.add_comm]

@[simp] theorem getLsbD_shr32 (a : Word) (n j : Nat) : (shr32 a n).getLsbD j = a.getLsbD (n + j) := by
  simp [shr32]

/-! ### Operand checks -/

theorem toInt_eq_toNat {x : Word} {l : Nat} (h : OperandIs x l) : x.toNat = l ∧ l < 2 ^ 31 := by
  have := BitVec.toInt_eq_toNat_cond x
  have hx := x.isLt
  simp only [OperandIs] at h
  split at this <;> omega

theorem fieldWidth_ok {x : Word} {l : Nat} (h : OperandIs x l) (h1 : 1 ≤ l) (h2 : l ≤ 32) : fieldWidth x = .ok l := by
  unfold fieldWidth signedOperand
  simp only [OperandIs] at h
  rw [h, if_neg (by omega)]
  simp

/-- Everything `fieldWidth` can answer. -/
theorem fieldWidth_cases (x : Word) :
    (fieldWidth x = .error (.rangeError x) ∧ (x.toInt ≤ 0 ∨ x.toInt > 32)) ∨
    ∃ l, fieldWidth x = .ok l ∧ OperandIs x l ∧ 1 ≤ l ∧ l ≤ 32 := by
  unfold fieldWidth signedOperand OperandIs
  by_cases h : x.toInt ≤ 0 ∨ x.toInt > 32
  · exact .inl ⟨if_pos h, h⟩
  · refine .inr ⟨x.toInt.toNat, if_neg h, ?_, ?_, ?_⟩ <;> omega

theorem fieldWidth_error {x : Word} (h : x.toInt ≤ 0 ∨ x.toInt > 32) : fieldWidth x = .error (.rangeError x) := by
  unfold fieldWidth signedOperand
  rw [if_pos h]

theorem skipLength_ok {x : Word} {l : Nat} (h : OperandIs x l) (h1 : 1 ≤ l) : skipLength x = .ok l := by
  unfold skipLength signedOperand
  simp only [OperandIs] at h
  rw [h, if_neg (by omega)]
  simp

/-- Everything `skipLength` can answer. -/
theorem skipLength_cases (x : Word) :
    (skipLength x = .error (.rangeError x) ∧ x.toInt ≤ 0) ∨
    ∃ l, skipLength x = .ok l ∧ OperandIs x l ∧ 1 ≤ l := by
  unfold skipLength signedOperand OperandIs
  by_cases h : x.toInt ≤ 0
  · exact .inl ⟨if_pos h, h⟩
  · refine .inr ⟨x.toInt.toNat, if_neg h, ?_, ?_⟩ <;> omega

theorem skipLength_error {x : Word} (h : x.toInt ≤ 0) : skipLength x = .error (.rangeError x) := by
  unfold skipLength signedOperand
  rw [if_pos h]

/-! ### The reader's invariant, without the dead mark -/

/-- The four clauses of `ReaderInv`. -/
structure ReaderOk (r : Reader) : Prop where
  available_le : r.available ≤ 32
  cursor_le : r.cursorByte ≤ srcLen r
  position : r.available ≤ r.cursorByte * 8
  bits : ∀ i < 32, r.register.getMsbD i = (decide (i < r.available) && streamBit r (posR r + i))

theorem readerInv_iff (r : Reader) : ReaderInv r ↔ (r.dead = false → ReaderOk r) :=
  ⟨fun h hd => ⟨(h hd).1, (h hd).2.1, (h hd).2.2.1, (h hd).2.2.2⟩,
   fun h hd => ⟨(h hd).1, (h hd).2, (h hd).3, (h hd).4⟩⟩

/-- Two readers over one source, in the sense that no command changes it. -/
structure SameSource (r r' : Reader) : Prop where
  source : r'.source = r.source
  rsrclen : r'.rsrclen = r.rsrclen
  dead : r'.dead = r.dead

theorem SameSource.rfl' (r : Reader) : SameSource r r := ⟨rfl, rfl, rfl⟩

theorem SameSource.trans' {a b c : Reader} (h : SameSource a b) (h' : SameSource b c) : SameSource a c :=
  ⟨h'.source.trans h.source, h'.rsrclen.trans h.rsrclen, h'.dead.trans h.dead⟩

theorem SameSource.streamBit_eq {r r' : Reader} (h : SameSource r r') : streamBit r' = streamBit r := by
  funext p
  simp [streamBit, h.source]

theorem SameSource.srcLen_eq {r r' : Reader} (h : SameSource r r') : srcLen r' = srcLen r := by
  simp [srcLen, h.rsrclen]

theorem sameSource_loadByte (r : Reader) : SameSource r (loadByte r) := ⟨rfl, rfl, rfl⟩
theorem sameSource_drop (n : Nat) (r : Reader) : SameSource r (drop n r) := ⟨rfl, rfl, rfl⟩

/-! ### FILL -/

theorem posR_loadByte {r : Reader} (h : r.available ≤ r.cursorByte * 8) : posR (loadByte r) = posR r := by
  simp only [posR, loadByte_cursorByte, loadByte_available]
  omega

theorem getMsbD_zext_byte (b : Byte) (k i : Nat) (hk : k ≤ 24) (hi : i < 32) :
    (shl32 (zext32 b) (24 - k)).getMsbD i = (decide (k ≤ i) && decide (i < k + 8) && b.getLsbD (7 - (i - k))) := by
  rw [BitVec.getMsbD_eq_getLsbD]
  simp only [getLsbD_shl32, zext32, BitVec.getLsbD_setWidth]
  by_cases h1 : k ≤ i
  · by_cases h2 : i < k + 8
    · have e : 32 - 1 - i - (24 - k) = 7 - (i - k) := by omega
      rw [e]
      simp [h1, h2, hi, show 31 - i < 32 by omega, show 24 - k ≤ 31 - i by omega, show 7 - (i - k) < 32 by omega]
    · simp [h2, show ¬ (24 - k ≤ 31 - i) by omega]
  · have : b.getLsbD (31 - i - (24 - k)) = false := BitVec.getLsbD_of_ge _ _ (by omega)
    simp [h1, this]

/-- A byte loaded below the valid bits keeps the reader's invariant (R100, R25). -/
theorem readerOk_loadByte {r : Reader} (h : ReaderOk r) (ha : r.available ≤ 24) (hc : r.cursorByte < srcLen r) :
    ReaderOk (loadByte r) := by
  have hp := h.position
  refine ⟨by simp; omega, by simp; omega, by simp; omega, fun i hi => ?_⟩
  rw [posR_loadByte hp, (sameSource_loadByte r).streamBit_eq]
  show (r.register ||| _).getMsbD i = _
  rw [BitVec.getMsbD_or, h.bits i hi, getMsbD_zext_byte _ _ _ ha hi]
  simp only [loadByte_available]
  by_cases h1 : i < r.available
  · simp [h1, show ¬ (r.available ≤ i) by omega, show i < r.available + 8 by omega]
  · by_cases h2 : i < r.available + 8
    · have e : posR r + i = r.cursorByte * 8 + (i - r.available) := by
        simp only [posR]
        omega
      have e1 : (posR r + i) / 8 = r.cursorByte := by omega
      have e2 : (posR r + i) % 8 = i - r.available := by omega
      simp [h1, h2, streamBit, e1, e2, show r.available ≤ i by omega]
    · simp [h1, h2]

/-- Everything FILL's loop does: it keeps the invariant, the source and the position, loads whole bytes, loads none when
more than 24 bits are buffered, and stops above 24 bits or at the end of the source. -/
theorem fillLoop_spec (fuel : Nat) (r : Reader) (h : ReaderOk r) :
    ReaderOk (fillLoop fuel r) ∧ SameSource r (fillLoop fuel r) ∧ posR (fillLoop fuel r) = posR r ∧
    r.cursorByte ≤ (fillLoop fuel r).cursorByte ∧
    (fillLoop fuel r).available = r.available + 8 * ((fillLoop fuel r).cursorByte - r.cursorByte) ∧
    (24 < r.available → fillLoop fuel r = r) ∧
    (32 ≤ r.available + 8 * fuel → 24 < (fillLoop fuel r).available ∨ (fillLoop fuel r).cursorByte = srcLen r) := by
  induction fuel generalizing r with
  | zero =>
    refine ⟨h, .rfl' r, rfl, le_rfl, by simp [fillLoop], fun _ => rfl, fun hf => ?_⟩
    simp only [fillLoop]
    omega
  | succ fuel ih =>
    simp only [fillLoop]
    split
    · rename_i hc
      obtain ⟨i1, i2, i3, i4, i5, i6, i7⟩ := ih (loadByte r) (readerOk_loadByte h hc.1 hc.2)
      refine ⟨i1, (sameSource_loadByte r).trans' i2, i3.trans (posR_loadByte h.position), ?_, ?_, ?_, ?_⟩
      · simp only [loadByte_cursorByte] at i4
        omega
      · simp only [loadByte_cursorByte, loadByte_available] at i4 i5
        omega
      · intro
        omega
      · intro hf
        exact i7 (by simp only [loadByte_available]; omega)
    · refine ⟨h, .rfl' r, rfl, le_rfl, by simp, fun _ => rfl, fun _ => ?_⟩
      have := h.cursor_le
      omega

/-- Everything FILL can answer from a reader that keeps the invariant. It errs exactly when the source is exhausted and
the stream has fewer bits left than needed (R100, R183). -/
theorem fill_cases (len : Word) (left need : Nat) (r : Reader) (h : ReaderOk r) :
    (∃ r', fill len left need r = .ok r' ∧ ReaderOk r' ∧ SameSource r r' ∧ posR r' = posR r ∧
      r.cursorByte ≤ r'.cursorByte ∧ r'.available = r.available + 8 * (r'.cursorByte - r.cursorByte) ∧
      (24 < r.available → r' = r) ∧ (24 < r'.available ∨ need ≤ r'.available) ∧ FilledThenDropped 0 r') ∨
    (fill len left need r = .error (.endOfStream len (BitVec.ofNat 32 left)) ∧ streamLeft r < need) := by
  obtain ⟨i1, i2, i3, i4, i5, i6, i7⟩ := fillLoop_spec 4 r h
  have i7 := i7 (by omega)
  simp only [fill]
  split
  · rename_i hc
    refine .inr ⟨rfl, ?_⟩
    have := i1.position
    rw [i2.srcLen_eq] at hc
    have hp : posR r = _ := i3.symm
    simp only [posR] at hp
    simp only [streamLeft, posR]
    omega
  · rename_i hc
    refine .inl ⟨_, rfl, i1, i2, i3, i4, i5, i6, ?_⟩
    have := i1.available_le
    rw [i2.srcLen_eq] at hc
    refine ⟨by omega, by omega, ?_⟩
    rw [i2.srcLen_eq]
    omega

/-! ### DROP and EXTRACT -/

/-- A drop right after a fill. -/
theorem FilledThenDropped.drop {n : Nat} {r : Reader} (h : FilledThenDropped 0 r) (hn : n ≤ r.available) :
    FilledThenDropped n (drop n r) := by
  obtain ⟨h1, h2⟩ := h
  refine ⟨?_, ?_⟩ <;> simp only [drop_available, drop_cursorByte, drop_srcLen] <;> omega

theorem posR_drop {n : Nat} {r : Reader} (hn : n ≤ r.available) (h : r.available ≤ r.cursorByte * 8) :
    posR (drop n r) = posR r + n := by
  simp only [posR, drop_cursorByte, drop_available]
  omega

/-- DROP keeps the reader's invariant (R101, R25). -/
theorem readerOk_drop {n : Nat} {r : Reader} (h : ReaderOk r) (hn : n ≤ r.available) : ReaderOk (drop n r) := by
  have hp := h.position
  have hl := h.available_le
  refine ⟨by simp; omega, by simpa using h.cursor_le, by simp; omega, fun i hi => ?_⟩
  rw [posR_drop hn hp, (sameSource_drop n r).streamBit_eq]
  simp only [drop_register, getMsbD_shl32, drop_available]
  by_cases hin : i + n < 32
  · rw [h.bits _ hin, Nat.add_assoc, Nat.add_comm n i]
    by_cases h1 : i < r.available - n
    · simp [h1, show i + n < r.available by omega]
    · simp [h1, show ¬ (i + n < r.available) by omega]
  · rw [BitVec.getMsbD_of_ge _ _ (by omega)]
    simp [show ¬ (i < r.available - n) by omega]

/-- EXTRACT(n) is the field of the next n stream bits (R101, R56). -/
theorem isField_extract {n : Nat} {r : Reader} (h : ReaderOk r) (h1 : 1 ≤ n) (hn : n ≤ r.available) :
    IsField (streamBit r) (posR r) n (extract n r) := by
  intro j hj
  have hl := h.available_le
  simp only [extract, BitVec.getLsbD_and, getLsbD_shr32, getLsbD_mask, hj, decide_true, Bool.true_and]
  by_cases hjn : j < n
  · have hb := h.bits (n - 1 - j) (by omega)
    rw [BitVec.getMsbD_eq_getLsbD] at hb
    have e : 32 - 1 - (n - 1 - j) = 32 - n + j := by omega
    rw [e] at hb
    simp only [show n - 1 - j < 32 by omega, show n - 1 - j < r.available by omega, decide_true, Bool.true_and] at hb
    simp [hjn, hb]
  · simp [hjn]

/-- A field is determined by its bits. -/
theorem IsField.unique {bit : Nat → Bool} {p l : Nat} {v v' : Word} (h : IsField bit p l v) (h' : IsField bit p l v') :
    v = v' := by
  apply BitVec.eq_of_getLsbD_eq
  intro i hi
  rw [h i hi, h' i hi]

/-- Two fields side by side are one field. -/
theorem IsField.append {bit : Nat → Bool} {p a k : Nat} {hi lo : Word} (h : IsField bit p a hi)
    (h' : IsField bit (p + a) k lo) (hk : k ≤ 32) : IsField bit p (a + k) (shl32 hi k ||| lo) := by
  intro j hj
  simp only [BitVec.getLsbD_or, getLsbD_shl32, hj, decide_true, Bool.true_and, h' j hj]
  by_cases hjk : j < k
  · have e : p + a + (k - 1 - j) = p + (a + k - 1 - j) := by omega
    simp [hjk, show ¬ (k ≤ j) by omega, show j < a + k by omega, e]
  · rw [h (j - k) (by omega)]
    have e : p + (a - 1 - (j - k)) = p + (a + k - 1 - j) := by omega
    rw [e]
    by_cases hja : j < a + k
    · simp [hjk, hja, show k ≤ j by omega, show j - k < a by omega]
    · simp [hjk, hja, show ¬ (j - k < a) by omega]

/-! ### The shape of a command on its unit -/

/-- Everything a reader command can do: refused when the reader is dead, its result, or its error. -/
theorem runReader_cases (f : Reader → Except Raised (Word × Reader)) (s : State) :
    (s.reader.dead = true ∧ runReader f s = .refused .deadReader) ∨
    (s.reader.dead = false ∧ ∃ v r, f s.reader = .ok (v, r) ∧
      runReader f s = .next (answer (okResponse v) { s with reader := r })) ∨
    (s.reader.dead = false ∧ ∃ e, f s.reader = .error e ∧ runReader f s = .next (deliver e s)) := by
  unfold runReader
  cases hd : s.reader.dead
  · rcases hf : f s.reader with e | ⟨v, r⟩
    · exact .inr (.inr ⟨rfl, e, rfl, rfl⟩)
    · exact .inr (.inl ⟨rfl, v, r, rfl, rfl⟩)
  · exact .inl ⟨rfl, rfl⟩

theorem runReader_ok {f : Reader → Except Raised (Word × Reader)} {s : State} {v : Word} {r : Reader}
    (hd : s.reader.dead = false) (hf : f s.reader = .ok (v, r)) :
    runReader f s = .next (answer (okResponse v) { s with reader := r }) := by
  simp [runReader, hd, hf]

theorem runReader_error {f : Reader → Except Raised (Word × Reader)} {s : State} {e : Raised}
    (hd : s.reader.dead = false) (hf : f s.reader = .error e) : runReader f s = .next (deliver e s) := by
  simp [runReader, hd, hf]

/-- Everything a writer command other than `W.COPYTO` can do. -/
theorem runWriter_cases (f : Writer → Except Raised (Word × Writer)) (s : State) :
    (s.writer.dead = true ∧ runWriter f s = .refused .deadWriter) ∨
    (s.writer.dead = false ∧ ∃ v w, f s.writer = .ok (v, w) ∧
      runWriter f s = .next (answer (okResponse v) { s with writer := w })) ∨
    (s.writer.dead = false ∧ ∃ e, f s.writer = .error e ∧ runWriter f s = .next (deliver e s)) := by
  unfold runWriter
  cases hd : s.writer.dead
  · rcases hf : f s.writer with e | ⟨v, r⟩
    · exact .inr (.inr ⟨rfl, e, rfl, rfl⟩)
    · exact .inr (.inl ⟨rfl, v, r, rfl, rfl⟩)
  · exact .inl ⟨rfl, rfl⟩

theorem runWriter_ok {f : Writer → Except Raised (Word × Writer)} {s : State} {v : Word} {w : Writer}
    (hd : s.writer.dead = false) (hf : f s.writer = .ok (v, w)) :
    runWriter f s = .next (answer (okResponse v) { s with writer := w }) := by
  simp [runWriter, hd, hf]

theorem runWriter_error {f : Writer → Except Raised (Word × Writer)} {s : State} {e : Raised}
    (hd : s.writer.dead = false) (hf : f s.writer = .error e) : runWriter f s = .next (deliver e s) := by
  simp [runWriter, hd, hf]

end Sys2Proof.Machine
end

