-- ==== Sys2Proof/Laws/ReaderCommands.lean ====
section
/-! SUPPORT. Everything each reader command can answer from a reader that keeps its invariant (40_reader). -/

namespace Sys2Proof.Machine

theorem wideRefused_iff (l : Nat) (r : Reader) :
    wideRefused l r = true ↔ 25 ≤ l ∧ 1 ≤ r.available ∧ r.available ≤ 23 := by
  simp [wideRefused, and_assoc]

theorem streamLeft_pos {r : Reader} (h : ReaderOk r) : streamLeft r + posR r = 8 * srcLen r := by
  have h2 := h.cursor_le
  have h3 := h.position
  simp only [streamLeft, posR]
  omega

/-- At least the buffered bits are left. -/
theorem available_le_streamLeft {r : Reader} (h : ReaderOk r) : r.available ≤ streamLeft r := by
  have h2 := h.cursor_le
  have h3 := h.position
  simp only [streamLeft, posR]
  omega

/-- Everything fill on demand can answer (R115, R100). -/
theorem fillOnDemand_cases (len : Word) (l : Nat) (r : Reader) (h : ReaderOk r) :
    (∃ r', fillOnDemand len l r = .ok r' ∧ ReaderOk r' ∧ SameSource r r' ∧ posR r' = posR r ∧
      r.cursorByte ≤ r'.cursorByte ∧ r'.available = r.available + 8 * (r'.cursorByte - r.cursorByte) ∧
      (24 < r.available → r' = r) ∧ (l ≤ r.available → r' = r) ∧ (24 < r'.available ∨ l ≤ r'.available) ∧
      (r.available < l → FilledThenDropped 0 r')) ∨
    (fillOnDemand len l r = .error (.endOfStream len (BitVec.ofNat 32 (streamLeft r))) ∧ streamLeft r < l) := by
  unfold fillOnDemand
  split
  · rename_i ha
    rcases fill_cases len (streamLeft r) l r h with ⟨r', e, h1, h2, h3, h4, h5, h6, h7, h8⟩ | ⟨e, hl⟩
    · exact .inl ⟨r', e, h1, h2, h3, h4, h5, h6, fun hl => by omega, h7, fun _ => h8⟩
    · exact .inr ⟨e, hl⟩
  · rename_i ha
    exact .inl ⟨r, rfl, h, .rfl' r, rfl, le_rfl, by simp, fun _ => rfl, fun _ => rfl, .inr (by omega), fun hl => by omega⟩

/-- What `R.PEEK` can answer (R103, R107, R116). -/
inductive PeekResult (len : Word) (r : Reader) : Except Raised (Word × Reader) → Prop
  | range (h : len.toInt ≤ 0 ∨ len.toInt > 32) : PeekResult len r (.error (.rangeError len))
  | refused (l : Nat) (hl : OperandIs len l) (h25 : 25 ≤ l) (h32 : l ≤ 32) (h1 : 1 ≤ r.available)
      (h23 : r.available ≤ 23) : PeekResult len r (.error (unaligned r len))
  | exhausted (l : Nat) (hl : OperandIs len l) (h1 : 1 ≤ l) (h32 : l ≤ 32)
      (hw : ¬(25 ≤ l ∧ 1 ≤ r.available ∧ r.available ≤ 23)) (hs : streamLeft r < l) :
      PeekResult len r (.error (.endOfStream len (BitVec.ofNat 32 (streamLeft r))))
  | tooWide (l : Nat) (hl : OperandIs len l) (h32 : l ≤ 32) (h25 : 25 ≤ r.available) (ha : r.available < l)
      (hs : l ≤ streamLeft r) : PeekResult len r (.error (unaligned r len))
  | field (l : Nat) (v : Word) (r' : Reader) (hl : OperandIs len l) (h1 : 1 ≤ l) (h32 : l ≤ 32)
      (hw : l ≤ 24 ∨ r.available = 0 ∨ r.available = 24 ∨ l ≤ r.available) (hs : l ≤ streamLeft r)
      (hv : IsField (streamBit r) (posR r) l v) (hv' : v = extract l r') (ok : ReaderOk r') (same : SameSource r r')
      (pos : posR r' = posR r) (cursor : r.cursorByte ≤ r'.cursorByte) (buffered : l ≤ r'.available)
      (unread : l ≤ r.available → r' = r) (filled : r.available < l → FilledThenDropped 0 r') :
      PeekResult len r (.ok (v, r'))

theorem peekField_result (len : Word) (r : Reader) (h : ReaderOk r) : PeekResult len r (peekField len r) := by
  unfold peekField
  rcases fieldWidth_cases len with ⟨hf, hr⟩ | ⟨l, hf, hl, h1, h32⟩
  · simp only [hf]
    exact .range hr
  simp only [hf]
  by_cases hw : wideRefused l r = true
  · simp only [hw, if_true]
    rw [wideRefused_iff] at hw
    exact .refused l hl hw.1 h32 hw.2.1 hw.2.2
  simp only [hw, Bool.false_eq_true, if_false]
  rw [wideRefused_iff] at hw
  have hsl := available_le_streamLeft h
  rcases fillOnDemand_cases len l r h with ⟨r', e, ok, same, pos, cur, av, full, unread, enough, fills⟩ |
    ⟨e, hs⟩
  · simp only [e]
    have hsl' := available_le_streamLeft ok
    have hst : streamLeft r' = streamLeft r := by simp [streamLeft, same.srcLen_eq, pos]
    have h32' := ok.available_le
    have hcl := ok.cursor_le
    rw [same.srcLen_eq] at hcl
    by_cases ha : r'.available < l
    · simp only [if_pos ha]
      have h25 : 25 ≤ r.available := by
        have : r.available ≤ 24 → 24 < r'.available := fun _ => by omega
        rcases Nat.lt_or_ge r.available 25 with hlt | hge
        · omega
        · exact hge
      have : r' = r := full (by omega)
      subst this
      refine .tooWide l hl h32 h25 ha ?_
      -- the source is not exhausted, or FILL had raised
      by_contra hs
      have hlt : r'.available < l := ha
      have : fillOnDemand len l r' = .error (.endOfStream len (BitVec.ofNat 32 (streamLeft r'))) := by
        have hfl : fillLoop 4 r' = r' := (fillLoop_spec 4 r' h).2.2.2.2.2.1 (by omega)
        have hc : r'.cursorByte = srcLen r' := by
          have := streamLeft_pos h
          have := h.position
          have hp : posR r' = r'.cursorByte * 8 - r'.available := rfl
          omega
        rw [fillOnDemand, if_pos hlt, fill, hfl]
        exact if_pos ⟨hlt, hc⟩
      rw [this] at e
      cases e
    · simp only [if_neg ha]
      have hx := isField_extract ok h1 (by omega : l ≤ r'.available)
      rw [same.streamBit_eq, pos] at hx
      refine .field l _ r' hl h1 h32 ?_ (by omega) hx rfl ok same pos cur (by omega) unread fills
      by_cases h24 : 24 < r.available
      · have := full h24
        subst this
        omega
      · omega
  · simp only [e]
    exact .exhausted l hl h1 h32 hw hs

/-- What `R.TAKE` can answer (R104, R106, R116). -/
inductive TakeResult (len : Word) (r : Reader) : Except Raised (Word × Reader) → Prop
  | range (h : len.toInt ≤ 0 ∨ len.toInt > 32) : TakeResult len r (.error (.rangeError len))
  | refused (l : Nat) (hl : OperandIs len l) (h25 : 25 ≤ l) (h32 : l ≤ 32) (h1 : 1 ≤ r.available)
      (h23 : r.available ≤ 23) : TakeResult len r (.error (unaligned r len))
  | exhausted (l : Nat) (hl : OperandIs len l) (h1 : 1 ≤ l) (h32 : l ≤ 32)
      (hw : ¬(25 ≤ l ∧ 1 ≤ r.available ∧ r.available ≤ 23)) (hs : streamLeft r < l) :
      TakeResult len r (.error (.endOfStream len (BitVec.ofNat 32 (streamLeft r))))
  | field (l : Nat) (v : Word) (r' : Reader) (hl : OperandIs len l) (h1 : 1 ≤ l) (h32 : l ≤ 32)
      (hw : ¬(25 ≤ l ∧ 1 ≤ r.available ∧ r.available ≤ 23)) (hs : l ≤ streamLeft r)
      (hv : IsField (streamBit r) (posR r) l v) (ok : ReaderOk r') (same : SameSource r r')
      (pos : posR r' = posR r + l) (cursor : r.cursorByte ≤ r'.cursorByte)
      (inside : l ≤ r.available → v = extract l r ∧ r' = drop l r)
      (filled : r.available < l → FilledThenDropped (if 25 ≤ l ∧ 0 < r.available then l - r.available else l) r') :
      TakeResult len r (.ok (v, r'))

theorem takeTwoPieces_result (len : Word) (l : Nat) (r : Reader) (h : ReaderOk r) (hl : OperandIs len l)
    (h25 : 25 ≤ l) (h32 : l ≤ 32) (h24 : 24 ≤ r.available) (ha : r.available < l) :
    TakeResult len r (takeTwoPieces len l r) := by
  unfold takeTwoPieces
  have hp := h.position
  have empty : ReaderOk { r with register := 0#32, available := 0 } :=
    ⟨by simp, h.cursor_le, by simp, fun i hi => by simp⟩
  have hpos : posR { r with register := 0#32, available := 0 } = posR r + r.available := by
    simp only [posR]
    omega
  have hsame : SameSource r { r with register := 0#32, available := 0 } := ⟨rfl, rfl, rfl⟩
  have hsl := streamLeft_pos h
  have hsl' := streamLeft_pos empty
  rw [hpos, hsame.srcLen_eq] at hsl'
  rcases fill_cases len (streamLeft r) (l - r.available) _ empty with ⟨r', e, ok, same, pos, cur, av, _, enough, fills⟩ | ⟨e, hs⟩
  · simp only [e]
    have hk : l - r.available ≤ r'.available := by omega
    have hlo := isField_extract ok (by omega : 1 ≤ l - r.available) hk
    rw [same.streamBit_eq, hsame.streamBit_eq, pos, hpos] at hlo
    have hhi := isField_extract h (by omega : 1 ≤ r.available) le_rfl
    have hv := hhi.append hlo (by omega)
    rw [show r.available + (l - r.available) = l by omega] at hv
    have hq := ok.position
    have hav := available_le_streamLeft ok
    have hst := streamLeft_pos ok
    rw [same.srcLen_eq, hsame.srcLen_eq, pos, hpos] at hst
    refine .field l _ _ hl (by omega) h32 (by omega) (by omega) hv (readerOk_drop ok hk)
      ((hsame.trans' same).trans' (sameSource_drop _ _)) ?_ ?_ (fun hla => by omega)
      (fun _ => by rw [if_pos ⟨h25, by omega⟩]; exact fills.drop hk)
    · rw [posR_drop hk hq, pos, hpos]
      omega
    · simpa using cur
  · simp only [e]
    exact .exhausted l hl (by omega) h32 (by omega) (by omega)

theorem takeField_result (len : Word) (r : Reader) (h : ReaderOk r) : TakeResult len r (takeField len r) := by
  unfold takeField
  rcases fieldWidth_cases len with ⟨hf, hr⟩ | ⟨l, hf, hl, h1, h32⟩
  · simp only [hf]
    exact .range hr
  simp only [hf]
  by_cases hw : wideRefused l r = true
  · simp only [hw, if_true]
    rw [wideRefused_iff] at hw
    exact .refused l hl hw.1 h32 hw.2.1 hw.2.2
  simp only [hw, Bool.false_eq_true, if_false]
  rw [wideRefused_iff] at hw
  split
  · rename_i h2
    exact takeTwoPieces_result len l r h hl h2.1 h32 h2.2.1 h2.2.2
  rename_i h2
  rcases fillOnDemand_cases len l r h with ⟨r', e, ok, same, pos, cur, av, full, unread, enough, fills⟩ |
    ⟨e, hs⟩
  · simp only [e]
    have h32' := ok.available_le
    have hb : l ≤ r'.available := by
      rcases enough with hgt | hge
      · have := h.available_le
        by_cases ha : l ≤ r.available
        · rw [unread ha]
          exact ha
        · omega
      · exact hge
    have hx := isField_extract ok h1 hb
    rw [same.streamBit_eq, pos] at hx
    have hsl := available_le_streamLeft ok
    have hst : streamLeft r' = streamLeft r := by simp [streamLeft, same.srcLen_eq, pos]
    refine .field l _ _ hl h1 h32 hw (by omega) hx (readerOk_drop ok hb) (same.trans' (sameSource_drop _ _)) ?_ ?_ ?_
      (fun ha => by rw [if_neg (by omega)]; exact (fills ha).drop hb)
    · rw [posR_drop hb ok.position, pos]
    · simpa using cur
    · intro ha
      rw [unread ha]
      exact ⟨rfl, rfl⟩
  · simp only [e]
    exact .exhausted l hl h1 h32 hw hs

/-- What `R.SKIP` can answer (R110). -/
inductive SkipResult (len : Word) (r : Reader) : Except Raised (Word × Reader) → Prop
  | range (h : len.toInt ≤ 0) : SkipResult len r (.error (.rangeError len))
  | exhausted (l : Nat) (hl : OperandIs len l) (h1 : 1 ≤ l) (hs : streamLeft r < l) :
      SkipResult len r (.error (.endOfStream len (BitVec.ofNat 32 (streamLeft r))))
  | moved (l : Nat) (r' : Reader) (hl : OperandIs len l) (h1 : 1 ≤ l) (hs : l ≤ streamLeft r) (ok : ReaderOk r')
      (same : SameSource r r') (pos : posR r' = posR r + l) (cursor : r.cursorByte ≤ r'.cursorByte)
      (inside : l ≤ r.available → r' = drop l r)
      (whole : r.available ≤ l → (l - r.available) % 8 = 0 → r'.available = 0)
      (filled : r.available < l → (l - r.available) % 8 ≠ 0 → FilledThenDropped ((l - r.available) % 8) r') :
      SkipResult len r (.ok (0#32, r'))

theorem skipBits_result (len : Word) (r : Reader) (h : ReaderOk r) : SkipResult len r (skipBits len r) := by
  unfold skipBits
  rcases skipLength_cases len with ⟨hf, hr⟩ | ⟨l, hf, hl, h1⟩
  · simp only [hf]
    exact .range hr
  simp only [hf]
  have hsl := streamLeft_pos h
  have hp := h.position
  have hc := h.cursor_le
  have dk := readerOk_drop h (Nat.min_le_right l r.available)
  have dpos := posR_drop (Nat.min_le_right l r.available) hp
  have hpr : posR r = r.cursorByte * 8 - r.available := rfl
  unfold skipRest
  simp only [drop_cursorByte, drop_srcLen]
  by_cases hin : l ≤ r.available
  · -- only DROP runs
    have e1 : min l r.available = l := Nat.min_eq_left hin
    rw [e1] at dk dpos
    simp only [e1, Nat.sub_self, Nat.zero_div, Nat.add_zero, Nat.zero_mod, Nat.lt_irrefl, gt_iff_lt,
      if_neg (by omega : ¬(srcLen r < r.cursorByte)), if_false]
    refine .moved l _ hl h1 (by omega) dk (sameSource_drop _ _) dpos (by simp) (fun _ => rfl) (fun h2 _ => ?_)
      (fun h2 => by omega)
    show r.available - l = 0
    omega
  · have e1 : min l r.available = r.available := Nat.min_eq_right (by omega)
    simp only [e1]
    by_cases hover : r.cursorByte + (l - r.available) / 8 > srcLen r
    · simp only [if_pos hover]
      exact .exhausted l hl h1 (by omega)
    simp only [if_neg hover]
    have hreg : (drop r.available r).register = 0#32 := by
      rw [e1] at dk
      apply BitVec.eq_of_getMsbD_eq
      intro i hi
      rw [dk.bits i hi]
      simp
    set m : Reader := { drop r.available r with cursorByte := r.cursorByte + (l - r.available) / 8 } with hm
    have msame : SameSource r m := ⟨rfl, rfl, rfl⟩
    have mav : m.available = 0 := by simp [hm]
    have mcur : m.cursorByte = r.cursorByte + (l - r.available) / 8 := rfl
    have mok : ReaderOk m := by
      refine ⟨by omega, ?_, by omega, fun i hi => ?_⟩
      · rw [msame.srcLen_eq]
        omega
      · have : m.register = 0#32 := hreg
        simp [this, mav]
    have mpos : posR m = posR r + r.available + 8 * ((l - r.available) / 8) := by
      simp only [posR, mav, mcur]
      omega
    by_cases hrest : (l - r.available) % 8 > 0
    · simp only [if_pos hrest]
      rcases fill_cases len (streamLeft r) ((l - r.available) % 8) m mok with
        ⟨r', e, ok, same, pos, cur, av, _, enough, fills⟩ | ⟨e, hs⟩
      · simp only [e]
        have hb : (l - r.available) % 8 ≤ r'.available := by omega
        have hst := streamLeft_pos ok
        have hav := available_le_streamLeft ok
        rw [same.srcLen_eq, msame.srcLen_eq, pos] at hst
        refine .moved l _ hl h1 (by omega) (readerOk_drop ok hb) ((msame.trans' same).trans' (sameSource_drop _ _)) ?_ ?_
          (fun h2 => by omega) (fun _ h2 => by omega) (fun _ _ => fills.drop hb)
        · rw [posR_drop hb ok.position, pos, mpos]
          omega
        · have : r.cursorByte ≤ r'.cursorByte := by omega
          simpa using this
      · simp only [e]
        have hst := streamLeft_pos mok
        rw [msame.srcLen_eq] at hst
        exact .exhausted l hl h1 (by omega)
    · simp only [if_neg hrest]
      refine .moved l _ hl h1 ?_ mok msame ?_ (by omega) (fun h2 => by omega) (fun _ _ => mav) (fun _ h2 => by omega)
      · have := streamLeft_pos mok
        rw [msame.srcLen_eq] at this
        omega
      · rw [mpos]
        omega

/-- What `R.BYTEALIGN` answers (R113). -/
theorem alignReader_spec (r : Reader) (h : ReaderOk r) :
    ∃ r', alignReader r = .ok (BitVec.ofNat 32 (r.available % 8), r') ∧ ReaderOk r' ∧ SameSource r r' ∧
      posR r' = posR r + r.available % 8 ∧ r'.cursorByte = r.cursorByte ∧
      r'.available = r.available - r.available % 8 := by
  unfold alignReader
  have hle : r.available % 8 ≤ r.available := Nat.mod_le _ _
  by_cases hn : r.available % 8 > 0
  · exact ⟨drop (r.available % 8) r, by simp [hn], readerOk_drop h hle, sameSource_drop _ _,
      posR_drop hle h.position, rfl, rfl⟩
  · exact ⟨r, by simp [hn], h, .rfl' r, by omega, rfl, by omega⟩

/-- The distance to the next byte boundary (10_state R27). -/
theorem available_mod_eight {r : Reader} (h : ReaderOk r) : r.available % 8 = (8 - posR r % 8) % 8 := by
  have hp := h.position
  simp only [posR]
  omega

end Sys2Proof.Machine
end

