-- ==== Sys2Proof/Laws/Writer.lean ====
section
/-! SUPPORT. What the writer's shared operations can do, said once for each: GROW, ENSURE, PUTCHUNK, the write loop, the
copy loop. -/

namespace Sys2Proof.Machine

/-! ### The writer's invariant, without the dead mark -/

/-- The clauses of `WriterInv`, and the canonical form of the storage. -/
structure WriterOk (maxCap : Nat) (w : Writer) : Prop where
  length_le : byteLength w ≤ cap w
  cap_le : cap w ≤ maxCap
  absent : w.hasStorage = false → w.capacity = 0
  below : memBelow (cap w) w.storage = true
  canonical : w.storage.wf .sto = true

theorem writerOk_of_inv {maxCap : Nat} {w : Writer} (h : WriterInv maxCap w) (hd : w.dead = false)
    (hm : w.storage.wf .sto = true) : WriterOk maxCap w :=
  ⟨(h hd).1, (h hd).2.1, (h hd).2.2.1, (h hd).2.2.2, hm⟩

theorem WriterOk.inv {maxCap : Nat} {w : Writer} (h : WriterOk maxCap w) : WriterInv maxCap w :=
  fun _ => ⟨h.length_le, h.cap_le, h.absent, h.below⟩

theorem WriterOk.capacity_eq {maxCap : Nat} {w : Writer} (h : WriterOk maxCap w) : cap w = w.capacity := by
  unfold cap
  cases hs : w.hasStorage
  · simp [h.absent hs]
  · simp

theorem byteLength_cases (w : Writer) :
    (w.bitOffset.val = 0 ∧ byteLength w = w.cursorByte ∧ posW w = w.cursorByte * 8) ∨
    (w.bitOffset.val ≠ 0 ∧ byteLength w = w.cursorByte + 1 ∧ posW w = w.cursorByte * 8 + w.bitOffset.val) := by
  unfold byteLength posW
  by_cases h : w.bitOffset = 0
  · simp [h]
  · have : w.bitOffset.val ≠ 0 := fun h' => h (Fin.ext h')
    simp [h, this]

/-- `byteLength` is the number of bytes up to the bit position (10_state R37, R38). -/
theorem byteLength_eq (w : Writer) : byteLength w = (posW w + 7) / 8 := by
  have := w.bitOffset.isLt
  rcases byteLength_cases w with ⟨_, h2, h3⟩ | ⟨_, h2, h3⟩ <;> rw [h2, h3] <;> omega

theorem StorageKept.rfl' (w : Writer) : StorageKept w w := ⟨le_rfl, id, rfl, rfl, rfl, rfl, rfl, rfl⟩

theorem StorageKept.trans' {a b c : Writer} (h : StorageKept a b) (h' : StorageKept b c) : StorageKept a c := by
  obtain ⟨a1, a2, a3, a4, a5, a6, a7, a8⟩ := h
  obtain ⟨b1, b2, b3, b4, b5, b6, b7, b8⟩ := h'
  exact ⟨a1.trans b1, b2 ∘ a2, b3.trans a3, b4.trans a4, b5.trans a5, b6.trans a6, b7.trans a7, b8.trans a8⟩

/-- A byte of the storage inside the capacity reads as the memory has it. -/
theorem readSto_eq {w : Writer} {a : Nat} (h : a < cap w) : readSto w a = some (byteAt .sto w.storage a) := by
  simp [readSto, h, memRead_sto]

theorem byteAt_of_memBelow {len a : Nat} {m : Memory} (h : memBelow len m = true) (ha : len ≤ a) :
    byteAt .sto m a = 0x00#8 := by
  simp [byteAt, memRead_of_memBelow h ha, unlisted]

/-! ### GROW and REPLACE -/

/-- A needed capacity that has a 32-bit form is the field's value. -/
theorem neededCapacity_of_lt {n : Nat} (h : n < 2 ^ 32) : neededCapacity n = BitVec.ofNat 32 n := if_pos h


theorem grow_le {maxCap new : Nat} {w : Writer} (h : grow maxCap w = some new) : new ≤ maxCap := by
  unfold grow at h
  split at h
  · split at h
    · cases h
    · cases h
      omega
  · cases h

theorem grow_unsupported {maxCap : Nat} {w : Writer} (h : w.gsel = .unsupported) : grow maxCap w = none := by
  simp [grow, strategySize, h]

/-- Cutting a storage at its own capacity changes no byte. -/
theorem byteAt_memCut_of_memBelow {len : Nat} {m : Memory} (h : memBelow len m = true) (a : Nat) :
    byteAt .sto (memCut len m) a = byteAt .sto m a := by
  by_cases ha : a < len
  · simp [byteAt, memRead_memCut, ha]
  · rw [byteAt_of_memBelow h (by omega), byteAt_of_memBelow (memBelow_memCut len m) (by omega)]

/-- REPLACE keeps the invariant, the old bytes and everything else (42_growth R167, R169). -/
theorem writerOk_replaceStorage {maxCap new : Nat} {w : Writer} (h : WriterOk maxCap w) (hnew : cap w ≤ new)
    (hmax : new ≤ maxCap) :
    WriterOk maxCap (replaceStorage new w) ∧ StorageKept w (replaceStorage new w) ∧
      ∀ a, byteAt .sto (replaceStorage new w).storage a = byteAt .sto w.storage a := by
  refine ⟨⟨?_, by simpa using hmax, by simp, ?_, wf_memCut h.canonical _⟩,
    ⟨by simpa using hnew, fun _ => rfl, rfl, rfl, rfl, rfl, rfl, rfl⟩, byteAt_memCut_of_memBelow h.below⟩
  · have := h.length_le
    show byteLength w ≤ new
    omega
  · exact memBelow_mono hnew (memBelow_memCut _ _)

/-- A strategy gives nothing that helps (41_writer R131). -/
def GrowFails (maxCap : Nat) (w : Writer) : Prop :=
  grow maxCap w = none ∨ ∃ new, grow maxCap w = some new ∧ w.hasStorage = true ∧ new ≤ w.capacity

/-- A strategy that can hold enough bytes gives more than there is. -/
theorem CanHold.grow {maxCap n : Nat} {w : Writer} (h : CanHold maxCap n w) (hn : 1 ≤ n)
    (hneed : w.hasStorage = false ∨ w.capacity < n) :
    ∃ new, grow maxCap w = some new ∧ (w.hasStorage = true → w.capacity < new) := by
  have found {new : Nat} (hs : strategySize w = some new) (hm : new ≤ maxCap)
      (hlt : w.hasStorage = true → w.capacity < new) :
      ∃ new, Machine.grow maxCap w = some new ∧ (w.hasStorage = true → w.capacity < new) := by
    refine ⟨new, ?_, hlt⟩
    simp only [Machine.grow, hs]
    exact if_neg (by omega)
  rcases h with ⟨hs, hc⟩ | ⟨hg, k, h1, h2⟩ | ⟨hg, k, h1, h2⟩
  · exfalso
    rcases hneed with hf | hlt
    · rw [hf] at hs
      cases hs
    · omega
  · have hk : 0 < 2 ^ k := Nat.two_pow_pos k
    rcases Bool.eq_false_or_eq_true w.hasStorage with hs | hs
    swap
    · simp only [doublingStart, hs, Bool.false_eq_true, if_false] at h1 h2
      refine found (new := w.wdefcap.toNat) (by simp [strategySize, hg, hs]) ?_ (by simp [hs])
      have := Nat.le_mul_of_pos_right (max w.wdefcap.toNat 1) hk
      omega
    · have hlt : w.capacity < n := by simpa [hs] using hneed
      simp only [doublingStart, hs, if_true] at h1 h2
      refine found (new := max (2 * w.capacity) 1) (by simp [strategySize, hg, hs]) ?_ (fun _ => by omega)
      rcases k with _ | k
      · omega
      · have : max w.capacity 1 * 2 ^ (k + 1) = 2 * (max w.capacity 1 * 2 ^ k) := by ring
        have := Nat.le_mul_of_pos_right (max w.capacity 1) (Nat.two_pow_pos k)
        omega
  · rcases k with _ | k
    · unfold cap at h1
      cases hs : w.hasStorage <;> simp [hs] at h1 hneed <;> omega
    · have hk : (k + 1) * w.wchunk.toNat = k * w.wchunk.toNat + w.wchunk.toNat := by ring
      rcases Bool.eq_false_or_eq_true w.hasStorage with hs | hs
      swap
      · refine found (new := w.wchunk.toNat) (by simp [strategySize, hg, hs]) (by omega) (by simp [hs])
      · have hc : cap w = w.capacity := by simp [cap, hs]
        have hlt : w.capacity < n := by simpa [hs] using hneed
        have hpos : 0 < w.wchunk.toNat := by
          rcases Nat.eq_zero_or_pos w.wchunk.toNat with h0 | h0
          · rw [h0] at h1
            omega
          · exact h0
        exact found (new := w.capacity + w.wchunk.toNat) (by simp [strategySize, hg, hs]) (by omega) (fun _ => by omega)

/-- A growth changes nothing of what the strategy can hold (42_growth R162, R163). -/
theorem canHold_replaceStorage {maxCap n new : Nat} {w : Writer} (hg : grow maxCap w = some new) (hn : 1 ≤ n) :
    CanHold maxCap n (replaceStorage new w) ↔ CanHold maxCap n w := by
  have hm := grow_le hg
  have hsz : strategySize w = some new := by
    unfold grow at hg
    split at hg
    · split at hg <;> simp_all
    · cases hg
  unfold CanHold
  simp only [replaceStorage_hasStorage, replaceStorage_capacity, replaceStorage_gsel, replaceStorage_wchunk,
    replaceStorage_cap, doublingStart, if_true, true_and]
  unfold strategySize at hsz
  rcases hw : w.gsel <;> simp only [hw, Option.some.injEq, reduceCtorEq] at hsz ⊢
  · -- doubling
    simp only [true_and, false_and, or_false]
    cases hs : w.hasStorage <;> simp only [hs, Bool.false_eq_true, if_true, if_false, false_and, true_and, false_or] at hsz ⊢
    · subst hsz
      refine ⟨fun h => ?_, .inr⟩
      rcases h with h | h
      · exact ⟨0, by omega, by omega⟩
      · exact h
    · by_cases h0 : w.capacity = 0
      · have e1 : new = 1 := by omega
        subst e1
        simp only [h0, Nat.zero_max, Nat.max_self]
        refine ⟨fun h => ?_, fun h => ?_⟩
        · rcases h with h | h
          · exact .inr ⟨0, by omega, by omega⟩
          · exact .inr h
        · rcases h with h | h
          · omega
          · exact .inr h
      · have e1 : new = 2 * w.capacity := by omega
        have e2 : max w.capacity 1 = w.capacity := by omega
        have e3 : max new 1 = new := by omega
        have e4 : ∀ k, w.capacity * 2 ^ (k + 1) = new * 2 ^ k := fun k => by rw [e1]; ring
        rw [e2, e3]
        refine ⟨fun h => ?_, fun h => ?_⟩
        · rcases h with h | ⟨k, h1, h2⟩
          · exact .inr ⟨1, by omega, by omega⟩
          · exact .inr ⟨k + 1, by rwa [e4], by rwa [e4]⟩
        · rcases h with h | ⟨_ | k, h1, h2⟩
          · exact .inl (by omega)
          · exact .inl (by omega)
          · exact .inr ⟨k, by rwa [← e4], by rwa [← e4]⟩
  · -- chunked
    simp only [true_and, false_and, false_or]
    have e1 : new = cap w + w.wchunk.toNat := by
      unfold cap
      cases hs : w.hasStorage <;> simp [hs] at hsz ⊢ <;> omega
    have e2 : ∀ k, cap w + (k + 1) * w.wchunk.toNat = new + k * w.wchunk.toNat := fun k => by rw [e1]; ring
    refine ⟨fun h => ?_, fun h => ?_⟩
    · rcases h with h | ⟨k, h1, h2⟩
      · exact .inr ⟨1, by omega, by omega⟩
      · exact .inr ⟨k + 1, by rwa [e2], by rwa [e2]⟩
    · rcases h with ⟨hs, h⟩ | ⟨_ | k, h1, h2⟩
      · have : cap w = w.capacity := by simp [cap, hs]
        exact .inl (by omega)
      · exact .inl (by omega)
      · exact .inr ⟨k, by rwa [← e2], by rwa [← e2]⟩

/-- `w'` is `w` after `k` growths, each of them from a size of at most `idx` (41_writer R131). -/
structure GrownBy (k idx : Nat) (w w' : Writer) : Prop where
  sizes : ∀ j, sizeAfter w' j = sizeAfter w (k + j)
  needed : ∀ j < k, sizeAfter w j ≤ idx
  storage : w'.hasStorage = (w.hasStorage || decide (0 < k))

theorem GrownBy.rfl' (idx : Nat) (w : Writer) : GrownBy 0 idx w w :=
  ⟨fun j => by rw [Nat.zero_add], fun j hj => by omega, by simp⟩

theorem GrownBy.trans' {k k' i i' idx : Nat} {a b c : Writer} (h : GrownBy k i a b) (h' : GrownBy k' i' b c)
    (hi : i ≤ idx) (hi' : i' ≤ idx) : GrownBy (k + k') idx a c := by
  refine ⟨fun j => by rw [h'.sizes, h.sizes, Nat.add_assoc], fun j hj => ?_, ?_⟩
  · by_cases hjk : j < k
    · exact (h.needed j hjk).trans hi
    · have := h'.needed (j - k) (by omega)
      rw [h.sizes, show k + (j - k) = j by omega] at this
      exact this.trans hi'
  · rw [h'.storage, h.storage, Bool.or_assoc]
    congr 1
    by_cases h1 : 0 < k <;> simp [h1]

/-- The sizes depend on the storage's size, the strategy and its parameters alone. -/
theorem sizeAfter_congr {w w' : Writer} (hc : cap w' = cap w) (hs : w'.hasStorage = w.hasStorage) (hg : w'.gsel = w.gsel)
    (hd : w'.wdefcap = w.wdefcap) (hk : w'.wchunk = w.wchunk) (k : Nat) : sizeAfter w' k = sizeAfter w k := by
  induction k with
  | zero => exact hc
  | succ k ih => simp only [sizeAfter, hg, hs, hd, hk, ih]

theorem GrownBy.congr {k idx : Nat} {a b c : Writer} (h : GrownBy k idx a b) (hc : cap c = cap b)
    (hs : c.hasStorage = b.hasStorage) (hg : c.gsel = b.gsel) (hd : c.wdefcap = b.wdefcap) (hk : c.wchunk = b.wchunk) :
    GrownBy k idx a c :=
  ⟨fun j => by rw [sizeAfter_congr hc hs hg hd hk, h.sizes], h.needed, by rw [hs, h.storage]⟩

/-- The strategy's next size, where it has one (42_growth R162, R163). -/
theorem strategySize_eq {w : Writer} {new : Nat} (h : strategySize w = some new) : sizeAfter w 1 = new := by
  unfold strategySize at h
  rcases hw : w.gsel <;> simp only [hw, Option.some.injEq, reduceCtorEq] at h <;> subst h <;>
    cases hs : w.hasStorage <;> simp [sizeAfter, hw, hs, cap]

theorem strategySize_of_grow {maxCap new : Nat} {w : Writer} (h : grow maxCap w = some new) :
    strategySize w = some new := by
  unfold grow at h
  split at h
  · split at h <;> simp_all
  · cases h

/-- REPLACE with the strategy's next size is one growth. -/
theorem grownBy_replaceStorage {maxCap idx new : Nat} {w : Writer} (hg : grow maxCap w = some new) (hi : cap w ≤ idx) :
    GrownBy 1 idx w (replaceStorage new w) := by
  have h1 := strategySize_eq (strategySize_of_grow hg)
  refine ⟨fun j => ?_, fun j hj => ?_, by simp⟩
  · induction j with
    | zero => simpa [sizeAfter] using h1.symm
    | succ j ih =>
      rw [show 1 + (j + 1) = (1 + j) + 1 by omega]
      simp only [sizeAfter, replaceStorage_gsel, replaceStorage_wchunk, replaceStorage_hasStorage, ih]
      rcases w.gsel <;> simp
  · have : j = 0 := by omega
    subst this
    exact hi

/-- The first size that is enough. -/
theorem GrownBy.firstSizeFor {k idx : Nat} {w w' : Writer} (h : GrownBy k idx w w') (hi : idx < cap w') :
    FirstSizeFor (idx + 1) (cap w') w :=
  ⟨hi, k, h.sizes 0, fun j hj => Nat.lt_succ_of_le (h.needed j hj)⟩

/-- Where a growth fails the strategy stops. -/
theorem GrownBy.stops {k idx maxCap : Nat} {w w' : Writer} (h : GrownBy k idx w w') (hf : GrowFails maxCap w')
    (hg : w'.gsel = w.gsel) (hl : cap w' ≤ maxCap) : GrowthStopsAt maxCap (cap w') w := by
  refine ⟨hl, k, h.sizes 0, ?_⟩
  rw [← h.sizes 1, ← hg]
  rcases hf with hn | ⟨new, hn, hs, hc⟩
  · unfold grow at hn
    split at hn
    · rename_i new hsz
      rw [strategySize_eq hsz]
      split at hn
      · exact .inr (.inl ‹_›)
      · cases hn
    · rename_i hsz
      refine .inl ?_
      unfold strategySize at hsz
      cases hw : w'.gsel <;> simp [hw] at hsz ⊢
  · rw [strategySize_eq (strategySize_of_grow hn)]
    have := h.storage
    rw [hs] at this
    refine .inr (.inr ⟨?_, ?_⟩)
    · simpa using this.symm
    · simpa [cap, hs] using hc

/-! ### ENSURE -/

/-- What ENSURE can answer (41_writer R131). -/
inductive EnsureResult (maxCap idx : Nat) (w : Writer) : Except Raised Writer → Prop
  | exists_ (w' : Writer) (ok : WriterOk maxCap w') (kept : StorageKept w w')
      (bytes : ∀ a, byteAt .sto w'.storage a = byteAt .sto w.storage a) (cursor : w'.cursorByte = w.cursorByte)
      (offset : w'.bitOffset = w.bitOffset) (storage : w'.hasStorage = true) (inside : idx < cap w')
      (lazy : w.hasStorage = true → idx < w.capacity → w' = w)
      (fixed : w.gsel = .unsupported → w' = w)
      (same : ∀ n, 1 ≤ n → (CanHold maxCap n w' ↔ CanHold maxCap n w)) (grown : ∃ k, GrownBy k idx w w') :
      EnsureResult maxCap idx w (.ok w')
  | fails (w' : Writer) (kept : StorageKept w w') (need : w'.hasStorage = false ∨ w'.capacity ≤ idx)
      (fail : GrowFails maxCap w') (fixed : w.gsel = .unsupported → w' = w)
      (hold : ¬CanHold maxCap (idx + 1) w) (grown : ∃ k, GrownBy k idx w w') (limit : cap w' ≤ maxCap) :
      EnsureResult maxCap idx w (.error (overflowAt idx w'))

theorem ensureLoop_result (maxCap idx : Nat) (fuel : Nat) (w : Writer) (h : WriterOk maxCap w)
    (hfuel : idx + 2 ≤ fuel + (if w.hasStorage then w.capacity + 1 else 0)) :
    EnsureResult maxCap idx w (ensureLoop maxCap idx fuel w) := by
  have done (hn : ¬(w.hasStorage = false ∨ w.capacity ≤ idx)) : EnsureResult maxCap idx w (.ok w) := by
    have hs : w.hasStorage = true := by
      cases hs : w.hasStorage <;> simp_all
    refine .exists_ w h (.rfl' w) (fun _ => rfl) rfl rfl hs ?_ (fun _ _ => rfl) (fun _ => rfl) (fun _ _ => .rfl)
      ⟨0, .rfl' idx w⟩
    have := h.capacity_eq
    omega
  induction fuel generalizing w with
  | zero =>
    have hn : ¬(w.hasStorage = false ∨ w.capacity ≤ idx) := by
      cases hs : w.hasStorage <;> simp [hs] at hfuel ⊢
      omega
    simp only [ensureLoop, if_neg hn]
    exact done hn
  | succ fuel ih =>
    simp only [ensureLoop]
    by_cases hn : w.hasStorage = false ∨ w.capacity ≤ idx
    · rw [if_pos hn]
      have hold_of (hc : CanHold maxCap (idx + 1) w) := hc.grow (by omega) (hn.imp id fun h => by omega)
      rcases hg : grow maxCap w with _ | new
      · refine .fails w (.rfl' w) hn (.inl hg) (fun _ => rfl) (fun hc => ?_) ⟨0, .rfl' idx w⟩ h.cap_le
        obtain ⟨new, hnew, _⟩ := hold_of hc
        rw [hnew] at hg
        cases hg
      · by_cases hbad : w.hasStorage = true ∧ new ≤ w.capacity
        · simp only [if_pos hbad]
          refine .fails w (.rfl' w) hn (.inr ⟨new, hg, hbad⟩) (fun _ => rfl) (fun hc => ?_) ⟨0, .rfl' idx w⟩ h.cap_le
          obtain ⟨new', hnew, hlt⟩ := hold_of hc
          rw [hnew] at hg
          cases hg
          have := hlt hbad.1
          omega
        · simp only [if_neg hbad]
          have hcap : cap w ≤ new := by
            unfold cap
            cases hs : w.hasStorage <;> simp [hs] at hbad ⊢
            omega
          obtain ⟨ok, kept, bytes⟩ := writerOk_replaceStorage h hcap (grow_le hg)
          have grown1 : GrownBy 1 idx w (replaceStorage new w) := by
            refine grownBy_replaceStorage hg ?_
            rw [h.capacity_eq]
            rcases hn with hs | hc
            · rw [h.absent hs]
              exact Nat.zero_le _
            · exact hc
          have hne : w.gsel ≠ .unsupported := fun hu => by simp [grow_unsupported hu] at hg
          have hnext : idx + 2 ≤ fuel + (if (replaceStorage new w).hasStorage then
              (replaceStorage new w).capacity + 1 else 0) := by
            simp only [replaceStorage_hasStorage, replaceStorage_capacity, if_true]
            cases hs : w.hasStorage <;> simp [hs] at hbad hfuel <;> omega
          have ih' := ih (replaceStorage new w) ok hnext (fun hn' => by
            refine .exists_ _ ok (.rfl' _) (fun _ => rfl) rfl rfl rfl ?_ (fun _ _ => rfl) (fun _ => rfl)
              (fun _ _ => .rfl) ⟨0, .rfl' idx _⟩
            simp only [replaceStorage_hasStorage, replaceStorage_capacity] at hn'
            simp only [replaceStorage_cap]
            simp at hn'
            omega)
          generalize ensureLoop maxCap idx fuel (replaceStorage new w) = res at ih'
          cases ih' with
          | exists_ w' ok' kept' bytes' cursor offset storage inside lazy fixed same grown =>
            obtain ⟨k, grown⟩ := grown
            refine .exists_ w' ok' (kept.trans' kept') (fun a => (bytes' a).trans (bytes a)) cursor offset storage inside
              (fun hs hi => ?_) (fun hu => absurd hu hne)
              (fun n hn1 => (same n hn1).trans (canHold_replaceStorage hg hn1)) ⟨_, grown1.trans' grown le_rfl le_rfl⟩
            simp [hs] at hn
            omega
          | fails w' kept' need fail fixed hold grown limit =>
            obtain ⟨k, grown⟩ := grown
            exact .fails w' (kept.trans' kept') need fail (fun hu => absurd hu hne)
              (fun hc => hold ((canHold_replaceStorage hg (by omega)).2 hc)) ⟨_, grown1.trans' grown le_rfl le_rfl⟩ limit
    · rw [if_neg hn]
      exact done hn

/-- ENSURE at the first byte past the storage, where the strategy gives more: one growth (41_writer R135). -/
theorem ensure_at_end {maxCap new : Nat} {w : Writer} (h : WriterOk maxCap w) (hg : grow maxCap w = some new)
    (hlt : cap w < new) : ensure maxCap (cap w) w = .ok (replaceStorage new w) := by
  have hn : w.hasStorage = false ∨ w.capacity ≤ cap w := .inr h.capacity_eq.ge
  have hb : ¬(w.hasStorage = true ∧ new ≤ w.capacity) := by
    rw [← h.capacity_eq]
    omega
  have hd : ¬((replaceStorage new w).hasStorage = false ∨ (replaceStorage new w).capacity ≤ cap w) := by
    simp only [replaceStorage_hasStorage, replaceStorage_capacity]
    simpa using hlt
  simp only [ensure, ensureLoop, if_pos hn, hg, if_neg hb, if_neg hd]

/-- Everything ENSURE can answer. -/
theorem ensure_result (maxCap idx : Nat) (w : Writer) (h : WriterOk maxCap w) :
    EnsureResult maxCap idx w (ensure maxCap idx w) :=
  ensureLoop_result maxCap idx (idx + 2) w h (by omega)

/-! ### PUTCHUNK -/

theorem getLsbD_mergeChunk (byte : Byte) (chunk : Word) (n sh k : Nat) (hk : k < 8)
    (hc : ∀ j, n ≤ j → chunk.getLsbD j = false) :
    (mergeChunk byte chunk n sh).getLsbD k =
      if sh ≤ k ∧ k < sh + n then chunk.getLsbD (k - sh) else byte.getLsbD k := by
  simp only [mergeChunk, BitVec.getLsbD_or, BitVec.getLsbD_and, BitVec.getLsbD_not, BitVec.getLsbD_setWidth,
    getLsbD_shl32, getLsbD_mask, hk, show k < 32 by omega, decide_true, Bool.true_and]
  by_cases h1 : sh ≤ k
  · by_cases h2 : k < sh + n
    · simp [h1, h2, show k - sh < 32 by omega, show k - sh < n by omega]
    · simp [h2, h1, hc (k - sh) (by omega), show ¬(k - sh < n) by omega]
  · simp [h1]

theorem chunkWidth_bounds (remaining : Nat) (w : Writer) (h : 1 ≤ remaining) :
    1 ≤ chunkWidth remaining w ∧ chunkWidth remaining w ≤ remaining ∧ w.bitOffset.val + chunkWidth remaining w ≤ 8 := by
  have := w.bitOffset.isLt
  unfold chunkWidth
  omega

theorem posW_advanceCursor (n : Nat) (w : Writer) (h1 : 1 ≤ n) (h8 : w.bitOffset.val + n ≤ 8) :
    posW (advanceCursor n w) = posW w + n := by
  unfold posW advanceCursor
  simp only [Fin.ofNat]
  split <;> omega

/-- Everything PUTCHUNK does (R132): the cursor moves by the chunk's width, the chunk's bits are written, every other bit
of the storage stands. -/
theorem putChunk_spec (maxCap : Nat) (v : Word) (remaining : Nat) (w : Writer) (h : WriterOk maxCap w)
    (hin : w.cursorByte < cap w) (h1 : 1 ≤ remaining) :
    WriterOk maxCap (putChunk v remaining w) ∧ StorageKept w (putChunk v remaining w) ∧
    posW (putChunk v remaining w) = posW w + chunkWidth remaining w ∧
    (∀ p, storageBit (putChunk v remaining w) p =
      if posW w ≤ p ∧ p < posW w + chunkWidth remaining w then v.getLsbD (remaining - 1 - (p - posW w))
      else storageBit w p) ∧
    ∀ a, a ≠ w.cursorByte →
      byteAt .sto (putChunk v remaining w).storage a = byteAt .sto w.storage a := by
  obtain ⟨n1, nr, n8⟩ := chunkWidth_bounds remaining w h1
  have hb8 := w.bitOffset.isLt
  have hpos : posW (putChunk v remaining w) = posW w + chunkWidth remaining w :=
    posW_advanceCursor (chunkWidth remaining w) _ n1 n8
  have hpw : posW w = w.cursorByte * 8 + w.bitOffset.val := rfl
  have hbyte : ∀ a, byteAt .sto (putChunk v remaining w).storage a =
      if a = w.cursorByte then
        mergeChunk (byteAt .sto w.storage w.cursorByte) (shr32 v (remaining - chunkWidth remaining w) &&&
          mask (chunkWidth remaining w)) (chunkWidth remaining w) (8 - w.bitOffset.val - chunkWidth remaining w)
      else byteAt .sto w.storage a := fun a => byteAt_memWrite h.canonical _ _ a
  refine ⟨⟨?_, by simpa using h.cap_le, by simpa using h.absent, ?_, wf_memWrite h.canonical _ _⟩,
    ⟨le_rfl, id, rfl, rfl, rfl, rfl, rfl, rfl⟩, hpos, fun p => ?_, fun a ha => ?_⟩
  · rw [byteLength_eq, hpos, putChunk_cap]
    omega
  · exact memBelow_memWrite h.below hin _
  · simp only [storageBit, hbyte]
    by_cases hp : p / 8 = w.cursorByte
    · rw [if_pos hp, getLsbD_mergeChunk _ _ _ _ _ (by omega) (fun j hj => by simp [hj])]
      have hp8 : p = w.cursorByte * 8 + p % 8 := by omega
      by_cases hr : posW w ≤ p ∧ p < posW w + chunkWidth remaining w
      · rw [if_pos hr, if_pos (by omega)]
        simp only [BitVec.getLsbD_and, getLsbD_shr32, getLsbD_mask]
        have e1 : remaining - chunkWidth remaining w + (7 - p % 8 - (8 - w.bitOffset.val - chunkWidth remaining w)) =
            remaining - 1 - (p - posW w) := by omega
        rw [e1]
        have e2 : 7 - p % 8 - (8 - w.bitOffset.val - chunkWidth remaining w) < 32 := by omega
        have e3 : 7 - p % 8 - (8 - w.bitOffset.val - chunkWidth remaining w) < chunkWidth remaining w := by omega
        simp [e2, e3]
      · rw [if_neg hr, if_neg (by omega), hp]
    · rw [if_neg hp, if_neg (by omega)]
  · rw [hbyte, if_neg ha]

/-! ### The write loop -/

/-- What the loop of `W.WRITE` can answer from a position with `remaining` bits to write (R133). -/
inductive WriteResult (maxCap : Nat) (v : Word) (remaining : Nat) (w : Writer) : Except Raised Writer → Prop
  | written (w' : Writer) (ok : WriterOk maxCap w') (kept : StorageKept w w') (pos : posW w' = posW w + remaining)
      (bits : ∀ p, storageBit w' p =
        if posW w ≤ p ∧ p < posW w + remaining then v.getLsbD (remaining - 1 - (p - posW w)) else storageBit w p)
      (bytes : ∀ a, (a < posW w / 8 ∨ (posW w + remaining - 1) / 8 < a) →
        byteAt .sto w'.storage a = byteAt .sto w.storage a)
      (lazy : w.hasStorage = true → posW w + remaining ≤ 8 * w.capacity → cap w' = cap w)
      (fixed : w.gsel = .unsupported → cap w' = cap w)
      (same : ∀ n, 1 ≤ n → (CanHold maxCap n w' ↔ CanHold maxCap n w))
      (grown : ∃ k, GrownBy k ((posW w + remaining - 1) / 8) w w') : WriteResult maxCap v remaining w (.ok w')
  | overflow (idx : Nat) (w' : Writer) (kept : StorageKept w w') (full : cap w' = idx)
      (low : posW w / 8 ≤ idx) (high : idx ≤ (posW w + remaining - 1) / 8) (fail : GrowFails maxCap w')
      (fixed : w.gsel = .unsupported → cap w' = cap w)
      (hold : ∀ n, posW w + remaining ≤ 8 * n → ¬CanHold maxCap n w)
      (grown : ∃ k, GrownBy k ((posW w + remaining - 1) / 8) w w') (limit : cap w' ≤ maxCap) :
      WriteResult maxCap v remaining w (.error (overflowAt idx w'))

theorem CanHold.mono {maxCap n n' : Nat} {w : Writer} (h : CanHold maxCap n w) (hn : n' ≤ n) : CanHold maxCap n' w := by
  rcases h with ⟨hs, hc⟩ | ⟨hg, k, h1, h2⟩ | ⟨hg, k, h1, h2⟩
  · exact .inl ⟨hs, by omega⟩
  · exact .inr (.inl ⟨hg, k, by omega, h2⟩)
  · exact .inr (.inr ⟨hg, k, by omega, h2⟩)

theorem writeLoop_result (maxCap : Nat) (v : Word) (fuel remaining : Nat) (w : Writer) (h : WriterOk maxCap w)
    (hf : remaining ≤ fuel) : WriteResult maxCap v remaining w (writeLoop maxCap v fuel remaining w) := by
  have done : WriteResult maxCap v 0 w (.ok w) :=
    .written w h (.rfl' w) rfl (fun p => by rw [if_neg (by omega)]) (fun _ _ => rfl) (fun _ _ => rfl)
      (fun _ => rfl) (fun _ _ => .rfl) ⟨0, .rfl' _ w⟩
  induction fuel generalizing remaining w with
  | zero =>
    have : remaining = 0 := by omega
    subst this
    exact done
  | succ fuel ih =>
    simp only [writeLoop]
    by_cases h0 : remaining = 0
    · subst h0
      exact done
    rw [if_neg h0]
    have hpw : posW w = w.cursorByte * 8 + w.bitOffset.val := rfl
    have hb8 := w.bitOffset.isLt
    have hen := ensure_result maxCap w.cursorByte w h
    generalize ensure maxCap w.cursorByte w = res at hen
    cases hen with
    | fails w' kept need fail fixed hold grown limit =>
      obtain ⟨k, grown⟩ := grown
      have hlen : w.cursorByte ≤ cap w := by
        have := h.length_le
        rw [byteLength_eq] at this
        omega
      have hfull : cap w' = w.cursorByte := by
        have := kept.1
        have : cap w' ≤ w.cursorByte := by
          unfold cap
          rcases need with hs | hc
          · simp [hs]
          · split
            · exact hc
            · omega
        omega
      exact .overflow _ w' kept hfull (by omega) (by omega) fail (fun hu => by rw [fixed hu])
        (fun n hn hc => hold (hc.mono (by omega)))
        ⟨_, grown.trans' (.rfl' _ _) (by omega : w.cursorByte ≤ (posW w + remaining - 1) / 8) le_rfl⟩ limit
    | exists_ w1 ok1 kept1 bytes1 cursor1 offset1 storage1 inside1 lazy1 fixed1 same1 grown1 =>
      simp only
      obtain ⟨k1, grown1⟩ := grown1
      have hpos1 : posW w1 = posW w := by simp [posW, cursor1, offset1]
      have hbit1 : storageBit w1 = storageBit w := by
        funext p
        simp [storageBit, bytes1]
      have hn : 1 ≤ remaining := by omega
      obtain ⟨n1, nr, n8⟩ := chunkWidth_bounds remaining w1 hn
      obtain ⟨ok2, kept2, pos2, bits2, bytes2⟩ :=
        putChunk_spec maxCap v remaining w1 ok1 (by rw [cursor1]; exact inside1) hn
      have hb1 : w1.bitOffset.val = w.bitOffset.val := by rw [offset1]
      rw [hpos1] at pos2
      rw [hpos1, hbit1] at bits2
      have ih' := ih (remaining - chunkWidth remaining w1) (putChunk v remaining w1) ok2 (by omega)
        (.written _ ok2 (.rfl' _) rfl (fun p => by rw [if_neg (by omega)]) (fun _ _ => rfl) (fun _ _ => rfl)
          (fun _ => rfl) (fun _ _ => .rfl) ⟨0, .rfl' _ _⟩)
      have kept12 := kept1.trans' kept2
      have grown2 : GrownBy k1 w.cursorByte w (putChunk v remaining w1) :=
        grown1.congr (putChunk_cap _ _ _) rfl rfl rfl rfl
      have same2 : ∀ n, CanHold maxCap n (putChunk v remaining w1) ↔ CanHold maxCap n w1 := fun _ => .rfl
      generalize writeLoop maxCap v fuel (remaining - chunkWidth remaining w1) (putChunk v remaining w1) = res at ih'
      cases ih' with
      | written w' ok kept pos bits bytes lazy fixed same grown =>
        obtain ⟨k, grown⟩ := grown
        refine .written w' ok (kept12.trans' kept) (by omega) (fun p => ?_) (fun a ha => ?_) (fun hs hfit => ?_)
          (fun hu => ?_) (fun n hn1 => (same n hn1).trans ((same2 n).trans (same1 n hn1)))
          ⟨_, grown2.trans' grown (by omega) (by omega)⟩
        · rw [bits p, pos2]
          by_cases hp : posW w + chunkWidth remaining w1 ≤ p ∧ p < posW w + chunkWidth remaining w1 +
              (remaining - chunkWidth remaining w1)
          · rw [if_pos hp, if_pos (by omega)]
            congr 1
            omega
          · rw [if_neg hp, bits2 p]
            by_cases hq : posW w ≤ p ∧ p < posW w + chunkWidth remaining w1
            · rw [if_pos hq, if_pos (by omega)]
            · rw [if_neg hq, if_neg (by omega)]
        · by_cases hlast : remaining - chunkWidth remaining w1 = 0
          · -- the loop ends here: the byte written is the cursor's
            have hsame : byteAt .sto w'.storage a = byteAt .sto (putChunk v remaining w1).storage a := by
              by_cases hx : a < posW (putChunk v remaining w1) / 8
              · exact bytes a (.inl hx)
              · by_cases hy : (posW (putChunk v remaining w1) + (remaining - chunkWidth remaining w1) - 1) / 8 < a
                · exact bytes a (.inr hy)
                · omega
            rw [hsame, bytes2 a (by omega), bytes1]
          · rw [bytes a (by omega), bytes2 a (by omega), bytes1]
        · have e1 : w1 = w := lazy1 hs (by omega)
          subst e1
          have := lazy (by simpa using hs) (by
            simp only [putChunk_capacity]
            omega)
          rw [this, putChunk_cap]
        · have e1 : w1 = w := fixed1 hu
          rw [fixed (by simpa [e1] using hu), putChunk_cap, e1]
      | overflow idx w' kept full low high fail fixed hold grown limit =>
        obtain ⟨k, grown⟩ := grown
        refine .overflow idx w' (kept12.trans' kept) full (by omega) (by omega) fail (fun hu => ?_) (fun n hfit hc => ?_)
          ⟨_, grown2.trans' grown (by omega) (by omega)⟩ limit
        · have e1 : w1 = w := fixed1 hu
          rw [fixed (by simpa [e1] using hu), putChunk_cap, e1]
        · exact hold n (by omega) ((same2 n).2 ((same1 n (by omega)).2 hc))

/-! ### The commands' functions -/

theorem posW_atPosition (p : Nat) (w : Writer) : posW (atPosition p w) = p := by
  simp only [posW, atPosition_cursorByte, atPosition_bitOffset]
  omega

/-- What `W.SKIP` can answer (R138). -/
inductive WriterSkipResult (maxCap : Nat) (width : Word) (w : Writer) : Except Raised (Word × Writer) → Prop
  | range (h : width.toInt ≤ 0) : WriterSkipResult maxCap width w (.error (.rangeError width))
  | overflow (wd : Nat) (hl : OperandIs width wd) (h1 : 1 ≤ wd) (w' : Writer) (kept : StorageKept w w')
      (full : cap w' ≤ (posW w + wd + 7) / 8 - 1) (fail : GrowFails maxCap w')
      (fixed : w.gsel = .unsupported → w' = w) (hold : ¬CanHold maxCap ((posW w + wd + 7) / 8) w)
      (grown : ∃ k, GrownBy k ((posW w + wd + 7) / 8 - 1) w w') (limit : cap w' ≤ maxCap) :
      WriterSkipResult maxCap width w (.error (overflowAt ((posW w + wd + 7) / 8 - 1) w'))
  | moved (wd : Nat) (hl : OperandIs width wd) (h1 : 1 ≤ wd) (w' : Writer) (ok : WriterOk maxCap w')
      (kept : StorageKept w w') (pos : posW w' = posW w + wd)
      (bytes : ∀ a, byteAt .sto w'.storage a = byteAt .sto w.storage a)
      (lazy : w.hasStorage = true → posW w + wd ≤ 8 * w.capacity → w' = atPosition (posW w + wd) w)
      (fixed : w.gsel = .unsupported → cap w' = cap w)
      (same : ∀ n, 1 ≤ n → (CanHold maxCap n w' ↔ CanHold maxCap n w))
      (grown : ∃ k, GrownBy k ((posW w + wd + 7) / 8 - 1) w w') :
      WriterSkipResult maxCap width w (.ok (0#32, w'))

theorem skipField_result (maxCap : Nat) (width : Word) (w : Writer) (h : WriterOk maxCap w) :
    WriterSkipResult maxCap width w (skipField maxCap width w) := by
  unfold skipField
  rcases skipLength_cases width with ⟨hf, hr⟩ | ⟨wd, hf, hl, h1⟩
  · simp only [hf]
    exact .range hr
  simp only [hf]
  have hidx : byteLength (atPosition (posW w + wd) w) = (posW w + wd + 7) / 8 := by
    rw [byteLength_eq, posW_atPosition]
  rw [hidx]
  have hen := ensure_result maxCap ((posW w + wd + 7) / 8 - 1) w h
  generalize ensure maxCap ((posW w + wd + 7) / 8 - 1) w = res at hen
  cases hen with
  | fails w' kept need fail fixed hold grown limit =>
    refine .overflow wd hl h1 w' kept ?_ fail fixed ?_ grown limit
    · unfold cap
      rcases need with hs | hc
      · simp [hs]
      · split
        · exact hc
        · omega
    · have : (posW w + wd + 7) / 8 - 1 + 1 = (posW w + wd + 7) / 8 := by omega
      rwa [this] at hold
  | exists_ w1 ok1 kept1 bytes1 cursor1 offset1 storage1 inside1 lazy1 fixed1 same1 grown1 =>
    obtain ⟨k, grown1⟩ := grown1
    refine .moved wd hl h1 _ ⟨?_, ok1.cap_le, ok1.absent, ok1.below, ok1.canonical⟩ kept1 (posW_atPosition _ _) bytes1
      (fun hs hfit => ?_) (fun hu => by rw [atPosition_cap, fixed1 hu]) same1
      ⟨k, grown1.congr (atPosition_cap _ _) rfl rfl rfl rfl⟩
    · rw [byteLength_eq, posW_atPosition, atPosition_cap]
      omega
    · rw [lazy1 hs (by omega)]

/-- What `W.BYTEALIGN` answers (R141). -/
theorem alignWriter_spec (maxCap : Nat) (w : Writer) (h : WriterOk maxCap w) :
    ∃ w', alignWriter w = .ok (BitVec.ofNat 32 ((8 - posW w % 8) % 8), w') ∧ WriterOk maxCap w' ∧
      StorageKept w w' ∧ posW w' = posW w + (8 - posW w % 8) % 8 ∧ w'.storage = w.storage ∧
      w'.hasStorage = w.hasStorage ∧ w'.capacity = w.capacity ∧ byteLength w' = byteLength w := by
  have hb8 := w.bitOffset.isLt
  have hpw : posW w = w.cursorByte * 8 + w.bitOffset.val := rfl
  have e : (8 - posW w % 8) % 8 = (8 - w.bitOffset.val) % 8 := by omega
  unfold alignWriter
  rw [e]
  by_cases hn : (8 - w.bitOffset.val) % 8 > 0
  · have hpos : posW { w with bitOffset := 0, cursorByte := w.cursorByte + 1 } =
        posW w + (8 - w.bitOffset.val) % 8 := by
      simp only [posW, Fin.val_zero]
      omega
    have hlen : byteLength { w with bitOffset := 0, cursorByte := w.cursorByte + 1 } = byteLength w := by
      rw [byteLength_eq, byteLength_eq, hpos]
      omega
    refine ⟨{ w with bitOffset := 0, cursorByte := w.cursorByte + 1 }, by simp only [hn, if_true], ⟨?_, h.cap_le, h.absent, h.below, h.canonical⟩, .rfl' w, hpos, rfl, rfl,
      rfl, hlen⟩
    rw [hlen]
    exact h.length_le
  · exact ⟨w, by simp only [hn, if_false], h, .rfl' w, by omega, rfl, rfl, rfl, rfl⟩

/-- The copy loop (R145): the bytes copied, every other byte of `DST` as before, the canonical form kept. -/
theorem copyBytes_spec (w : Writer) (offset count : Nat) (d : Memory) (hd : d.wf .dst = true) :
    (copyBytes w offset count d).wf .dst = true ∧
    ∀ a, memRead .dst (copyBytes w offset count d) a =
      if offset ≤ a ∧ a < offset + count then some (byteAt .sto w.storage (a - offset)) else memRead .dst d a := by
  induction count with
  | zero => exact ⟨hd, fun a => by rw [if_neg (by omega)]; rfl⟩
  | succ count ih =>
    refine ⟨wf_memWrite ih.1 _ _, fun a => ?_⟩
    simp only [copyBytes]
    rw [memRead_memWrite ((wf_iff _ _).1 ih.1).1, ih.2 a]
    by_cases ha : a = offset + count
    · subst ha
      rw [if_pos rfl, if_pos (by omega), Nat.add_sub_cancel_left]
    · rw [if_neg ha]
      by_cases hb : offset ≤ a ∧ a < offset + count
      · rw [if_pos hb, if_pos (by omega)]
      · rw [if_neg hb, if_neg (by omega)]

end Sys2Proof.Machine
end

