-- ==== Sys2Proof/Laws/Exec.lean ====
section
/-! SUPPORT. What a command can do, said once for all commands: the shape of exec, of `W.COPYTO`, of a reset, and what an
error leaves. -/

namespace Sys2Proof.Machine

theorem MachineInv.readerOk {s : State} (h : MachineInv s) (hd : s.reader.dead = false) : ReaderOk s.reader :=
  (readerInv_iff _).1 h.1 hd

theorem MachineInv.writerOk {s : State} (h : MachineInv s) (hd : s.writer.dead = false) : WriterOk s.maxCap.toNat s.writer :=
  writerOk_of_inv h.2.1 hd h.2.2.2.1

theorem ReaderOk.inv {r : Reader} (h : ReaderOk r) : ReaderInv r := (readerInv_iff _).2 fun _ => h

theorem OperandIs.unique {x : Word} {l l' : Nat} (h : OperandIs x l) (h' : OperandIs x l') : l = l' := by
  simp only [OperandIs] at h h'
  omega

/-- The admission test fails exactly for 1 to 23 buffered bits (40_reader R105). -/
theorem not_wideAdmitted_iff {a : Nat} (h : a ≤ 32) : ¬WideAdmitted a ↔ 1 ≤ a ∧ a ≤ 23 := by
  unfold WideAdmitted
  omega

/-! ### The shape of exec -/

/-- A reader command is `runReader` of a function of the reader alone. -/
theorem exec_reader {i : Instr} (h : unitOf i = .reader) : ∃ f, ∀ s, exec i s = runReader f s := by
  cases i
  case rPeek len => exact ⟨peekField len, fun _ => rfl⟩
  case rTake len => exact ⟨takeField len, fun _ => rfl⟩
  case rSkip len => exact ⟨skipBits len, fun _ => rfl⟩
  case rIsAligned => exact ⟨fun r => .ok (boolResult (readerAligned r), r), fun _ => rfl⟩
  case rByteAlign => exact ⟨alignReader, fun _ => rfl⟩
  all_goals cases h

/-- A writer command is `W.COPYTO`, or `runWriter` of a function of the writer and `MAX_CAP`. -/
theorem exec_writer {i : Instr} (h : unitOf i = .writer) :
    (∃ o d, i = .wCopyTo o d) ∨ ∃ f : Nat → Writer → Except Raised (Word × Writer),
      ∀ s, exec i s = runWriter (f s.maxCap.toNat) s := by
  cases i
  case wWrite v w => exact .inr ⟨fun m => writeField m v w, fun _ => rfl⟩
  case wSkip w => exact .inr ⟨fun m => skipField m w, fun _ => rfl⟩
  case wIsAligned => exact .inr ⟨fun _ w => .ok (boolResult (writerAligned w), w), fun _ => rfl⟩
  case wByteAlign => exact .inr ⟨fun _ => alignWriter, fun _ => rfl⟩
  case wByteLength => exact .inr ⟨fun _ w => .ok (BitVec.ofNat 32 (byteLength w), w), fun _ => rfl⟩
  case wCopyTo o d => exact .inl ⟨o, d, rfl⟩
  all_goals cases h

/-- Everything `W.COPYTO` can do (41_writer R145). -/
theorem execWCopyTo_cases (offset dlen : Word) (s : State) :
    (s.writer.dead = true ∧ execWCopyTo offset dlen s = .refused .deadWriter) ∨
    (s.writer.dead = false ∧ dlen.toNat < offset.toNat + byteLength s.writer ∧
      execWCopyTo offset dlen s = .next (deliver (noSpace offset.toNat dlen.toNat s.writer) s)) ∨
    (s.writer.dead = false ∧ offset.toNat + byteLength s.writer ≤ dlen.toNat ∧ cap s.writer < byteLength s.writer ∧
      execWCopyTo offset dlen s = .fault (.outsideStorage (cap s.writer))) ∨
    (s.writer.dead = false ∧ offset.toNat + byteLength s.writer ≤ dlen.toNat ∧ byteLength s.writer ≤ cap s.writer ∧
      execWCopyTo offset dlen s = .next (answer (okResponse 0#32)
        { s with dst := copyBytes s.writer offset.toNat (byteLength s.writer) s.dst })) := by
  unfold execWCopyTo unsignedOperand
  by_cases hd : s.writer.dead = true
  · exact .inl ⟨hd, if_pos hd⟩
  rw [if_neg hd]
  have hd' : s.writer.dead = false := by simpa using hd
  by_cases h1 : offset.toNat + byteLength s.writer > dlen.toNat
  · exact .inr (.inl ⟨hd', h1, if_pos h1⟩)
  rw [if_neg h1]
  by_cases h2 : byteLength s.writer > cap s.writer
  · exact .inr (.inr (.inl ⟨hd', by omega, h2, if_pos h2⟩))
  · exact .inr (.inr (.inr ⟨hd', by omega, by omega, if_neg h2⟩))

/-! ### What an error leaves -/

/-- An error changes nothing, or kills its unit (60_exceptions R191, R192). -/
theorem errorEffect_cases (e : Raised) (s : State) :
    (errorEffect e s = s ∧ statusCode e ∈ [1#8, 3#8, 5#8, 6#8]) ∨
    (errorEffect e s = killReader s ∧ statusCode e = 2#8) ∨ (errorEffect e s = killWriter s ∧ statusCode e = 4#8) := by
  cases e <;> simp [statusCode]

theorem memoryInv_errorEffect {s : State} (h : MemoryInv s) (e : Raised) : MemoryInv (errorEffect e s) := by
  rcases errorEffect_cases e s with ⟨he, _⟩ | ⟨he, _⟩ | ⟨he, _⟩ <;> rw [he]
  · exact h
  · exact h
  · exact ⟨h.1, wf_memOfCells _ _, h.2.2⟩

theorem inv_errorEffect {s : State} (h : MachineInv s) (e : Raised) : MachineInv (errorEffect e s) := by
  refine ⟨?_, ?_, memoryInv_errorEffect h.2.2 e⟩
  · rcases errorEffect_cases e s with ⟨he, _⟩ | ⟨he, _⟩ | ⟨he, _⟩ <;> rw [he]
    · exact h.1
    · exact fun hd => by simp at hd
    · exact h.1
  · rcases errorEffect_cases e s with ⟨he, _⟩ | ⟨he, _⟩ | ⟨he, _⟩ <;> rw [he]
    · exact h.2.1
    · exact h.2.1
    · exact fun hd => by simp at hd

/-! ### Reset (70 R210, 10_state R48) -/

theorem readerOk_freshReader (n : Word) (src : List Host.Cell) : ReaderOk (freshReader n src) :=
  ⟨by simp [freshReader], by simp [freshReader], by simp [freshReader], fun i hi => by simp [freshReader]⟩

/-- `BUF` is the high bit of `WCFG`. -/
theorem bufField_eq : ∀ cfg : BitVec 3, bufField cfg = decide (4 ≤ cfg.toNat) := by decide

theorem writerOk_freshWriter {maxCap : Nat} {cfg : BitVec 3} {len : Word} (defcap chunk : Word) (init : List Host.Cell)
    (h : bufField cfg = false ∨ len.toNat ≤ maxCap) : WriterOk maxCap (freshWriter cfg len defcap chunk init) := by
  cases hb : bufField cfg
  · refine ⟨by simp [freshWriter, byteLength], by simp [freshWriter, cap, hb], by simp [freshWriter, hb], ?_, ?_⟩
    · simp [freshWriter, hb, memBelow]
    · simpa [freshWriter, hb] using wf_nil .sto
  · have hl : len.toNat ≤ maxCap := by simpa [hb] using h
    refine ⟨by simp [freshWriter, byteLength], by simpa [freshWriter, cap, hb] using hl, by simp [freshWriter, hb], ?_, ?_⟩
    · simpa [freshWriter, hb, cap] using memBelow_memImage _ _ _
    · simpa [freshWriter, hb] using wf_memImage _ _ _

end Sys2Proof.Machine
end

