-- ==== Sys2Proof/Laws/PerInstr.lean ====
section
/-! SUPPORT. The fields of a command word, and the statements made per instruction. -/

namespace Sys2Proof

/-! ### The fields of a command word (30_encoding R71) -/

@[simp] theorem opField_commandWord (op : BitVec 8) (a b : Word) : opField (commandWord op a b) = op := by
  apply BitVec.eq_of_getLsbD_eq
  intro i hi
  simp only [opField, commandWord, BitVec.getLsbD_append, BitVec.getLsbD_extractLsb', hi, decide_true, Bool.true_and,
    if_neg (by omega : ¬(64 + i < 32)), if_neg (by omega : ¬(64 + i - 32 < 32))]
  congr 1
  omega

@[simp] theorem aField_commandWord (op : BitVec 8) (a b : Word) : aField (commandWord op a b) = a := by
  apply BitVec.eq_of_getLsbD_eq
  intro i hi
  simp only [aField, commandWord, BitVec.getLsbD_append, BitVec.getLsbD_extractLsb', hi, decide_true, Bool.true_and,
    if_neg (by omega : ¬(32 + i < 32)), if_pos (by omega : 32 + i - 32 < 32)]
  congr 1
  omega

@[simp] theorem bField_commandWord (op : BitVec 8) (a b : Word) : bField (commandWord op a b) = b := by
  apply BitVec.eq_of_getLsbD_eq
  intro i hi
  simp only [bField, commandWord, BitVec.getLsbD_append, BitVec.getLsbD_extractLsb', hi, decide_true, Bool.true_and,
    if_pos (by omega : 0 + i < 32)]
  congr 1
  omega

/-- A command word is its three fields. -/
theorem commandWord_fields (w : CommandWord) : commandWord (opField w) (aField w) (bField w) = w := by
  apply BitVec.eq_of_getLsbD_eq
  intro i hi
  simp only [opField, aField, bField, commandWord, BitVec.getLsbD_append, BitVec.getLsbD_extractLsb']
  by_cases h1 : i < 32
  · simp [h1]
  · by_cases h2 : i < 64
    · simp [h1, show i - 32 < 32 by omega, show 32 + (i - 32) = i by omega]
    · simp [h1, show ¬(i - 32 < 32) by omega, show i - 32 - 32 < 8 by omega, show 64 + (i - 32 - 32) = i by omega]

/-! ### The opcode of each command's encoding (30_encoding R78) -/

/-- The encoded word carries the row's opcode. -/
def Laws.OpcodeField.Statement (i : Instr) : Prop := opField (encode i) = opcodeOf i

theorem Laws.OpcodeField.rPeek (len : Word) : Laws.OpcodeField.Statement (.rPeek len) := opField_commandWord _ _ _
theorem Laws.OpcodeField.rTake (len : Word) : Laws.OpcodeField.Statement (.rTake len) := opField_commandWord _ _ _
theorem Laws.OpcodeField.rSkip (len : Word) : Laws.OpcodeField.Statement (.rSkip len) := opField_commandWord _ _ _
theorem Laws.OpcodeField.rIsAligned : Laws.OpcodeField.Statement .rIsAligned := opField_commandWord _ _ _
theorem Laws.OpcodeField.rByteAlign : Laws.OpcodeField.Statement .rByteAlign := opField_commandWord _ _ _
theorem Laws.OpcodeField.wWrite (value width : Word) : Laws.OpcodeField.Statement (.wWrite value width) :=
  opField_commandWord _ _ _
theorem Laws.OpcodeField.wSkip (width : Word) : Laws.OpcodeField.Statement (.wSkip width) := opField_commandWord _ _ _
theorem Laws.OpcodeField.wIsAligned : Laws.OpcodeField.Statement .wIsAligned := opField_commandWord _ _ _
theorem Laws.OpcodeField.wByteAlign : Laws.OpcodeField.Statement .wByteAlign := opField_commandWord _ _ _
theorem Laws.OpcodeField.wByteLength : Laws.OpcodeField.Statement .wByteLength := opField_commandWord _ _ _
theorem Laws.OpcodeField.wCopyTo (offset dlen : Word) : Laws.OpcodeField.Statement (.wCopyTo offset dlen) :=
  opField_commandWord _ _ _

end Sys2Proof
end

