-- ==== Sys2Proof/Machine/Assembler.lean ====
section
/-! DEFINITION. The assembler syntax (30_encoding R85), the pseudo-instructions in it (R88 to R91) and the listing lines
of 95_test_vectors.md (R86). Text is a list of characters. What R85 leaves open of the notation is log entry 18. No
command's meaning uses this file. -/

namespace Sys2Proof.Machine

/-- A line or a piece of one. -/
abbrev Text := List Char

/-! ### Numbers -/

/-- The value of a digit in base 10 or 16; hexadecimal digits in either case. -/
def digitValue (base : Nat) (c : Char) : Option Nat :=
  let n := c.toNat
  let v := if 48 ≤ n ∧ n ≤ 57 then some (n - 48)
    else if 65 ≤ n ∧ n ≤ 70 then some (n - 55)
    else if 97 ≤ n ∧ n ≤ 102 then some (n - 87)
    else none
  v.filter (· < base)

/-- Digits, most significant first, after `acc`. -/
def parseDigits (base : Nat) : Nat → Text → Option Nat
  | acc, [] => some acc
  | acc, c :: cs => (digitValue base c).bind fun d => parseDigits base (acc * base + d) cs

/-- A number: decimal, or hexadecimal with `0x` (R85). Leading zeros are accepted in it (log entry 18). -/
def parseNumber : Text → Option Nat
  | [] => none
  | ['0', 'x'] => none
  | '0' :: 'x' :: cs => parseDigits 16 0 cs
  | cs => parseDigits 10 0 cs

/-- A `len` or `width`: a leading `-` makes it negative, encoded in two's complement (R85, R74). The range and `-0` are
log entry 18. -/
def parseSigned : Text → Option Word
  | '-' :: cs => ((parseNumber cs).filter (· ≤ 2 ^ 31)).map fun n => BitVec.ofInt 32 (-(n : Int))
  | cs => ((parseNumber cs).filter (· < 2 ^ 31)).map (BitVec.ofNat 32)

/-- An `offset` or `dlen` (R74). -/
def parseUnsigned (t : Text) : Option Word := ((parseNumber t).filter (· < 2 ^ 32)).map (BitVec.ofNat 32)

/-- A `value`: a number, or `true` for 1 and `false` for 0 (R85). -/
def parseValue : Text → Option Word
  | ['t', 'r', 'u', 'e'] => some 1#32
  | ['f', 'a', 'l', 's', 'e'] => some 0#32
  | t => parseUnsigned t

/-! ### Lines -/

/-- A space between the parts of a line. -/
def isBlank (c : Char) : Bool := c = ' ' || c = '\t' || c = '\r'

/-- Without blanks at either end. -/
def trimText (t : Text) : Text := ((t.dropWhile isBlank).reverse.dropWhile isBlank).reverse

/-- The pieces between the separators, at least one. -/
def splitAtChar (sep : Char) : Text → List Text
  | [] => [[]]
  | c :: cs =>
    match splitAtChar sep cs with
    | [] => [[]]
    | piece :: rest => if c = sep then [] :: piece :: rest else (c :: piece) :: rest

/-- The operands of a line, separated by commas (R85). -/
def parseOperands (t : Text) : List Text :=
  match trimText t with
  | [] => []
  | t => (splitAtChar ',' t).map trimText

/-- The mnemonics of R78, upper case. -/
def mnemonicText : Instr → Text
  | .rPeek _ => ['R', '.', 'P', 'E', 'E', 'K']
  | .rTake _ => ['R', '.', 'T', 'A', 'K', 'E']
  | .rSkip _ => ['R', '.', 'S', 'K', 'I', 'P']
  | .rIsAligned => ['R', '.', 'I', 'S', 'A', 'L', 'I', 'G', 'N', 'E', 'D']
  | .rByteAlign => ['R', '.', 'B', 'Y', 'T', 'E', 'A', 'L', 'I', 'G', 'N']
  | .wWrite _ _ => ['W', '.', 'W', 'R', 'I', 'T', 'E']
  | .wSkip _ => ['W', '.', 'S', 'K', 'I', 'P']
  | .wIsAligned => ['W', '.', 'I', 'S', 'A', 'L', 'I', 'G', 'N', 'E', 'D']
  | .wByteAlign => ['W', '.', 'B', 'Y', 'T', 'E', 'A', 'L', 'I', 'G', 'N']
  | .wByteLength => ['W', '.', 'B', 'Y', 'T', 'E', 'L', 'E', 'N', 'G', 'T', 'H']
  | .wCopyTo _ _ => ['W', '.', 'C', 'O', 'P', 'Y', 'T', 'O']

/-- The command a mnemonic of R78 and its operands stand for. -/
def parseCommand (m : Text) (operands : List Text) : Option Instr :=
  match operands with
  | [] =>
    if m = mnemonicText .rIsAligned then some .rIsAligned
    else if m = mnemonicText .rByteAlign then some .rByteAlign
    else if m = mnemonicText .wIsAligned then some .wIsAligned
    else if m = mnemonicText .wByteAlign then some .wByteAlign
    else if m = mnemonicText .wByteLength then some .wByteLength
    else none
  | [a] =>
    if m = mnemonicText (.rPeek 0) then (parseSigned a).map .rPeek
    else if m = mnemonicText (.rTake 0) then (parseSigned a).map .rTake
    else if m = mnemonicText (.rSkip 0) then (parseSigned a).map .rSkip
    else if m = mnemonicText (.wSkip 0) then (parseSigned a).map .wSkip
    else none
  | [a, b] =>
    if m = mnemonicText (.wWrite 0 0) then (parseValue a).bind fun v => (parseSigned b).map (.wWrite v)
    else if m = mnemonicText (.wCopyTo 0 0) then (parseUnsigned a).bind fun o => (parseUnsigned b).map (.wCopyTo o)
    else none
  | _ => none

/-- The pseudo-instruction a mnemonic and its operands stand for: `W.ON`, `W.OFF`, and the 32 mnemonics `W.WRITE1` to
`W.WRITE32` (R88, R89), no others (R91): an `n` with a leading zero makes no mnemonic of the 32. -/
def parsePseudo (m : Text) (operands : List Text) : Option Pseudo :=
  if m = ['W', '.', 'O', 'N'] then (if operands = [] then some .on else none)
  else if m = ['W', '.', 'O', 'F', 'F'] then (if operands = [] then some .off else none)
  else if m.take 7 = mnemonicText (.wWrite 0 0) ∧ m.drop 7 ≠ [] ∧ (m.drop 7).head? ≠ some '0' then
    ((parseDigits 10 0 (m.drop 7)).filter fun n => decide (1 ≤ n ∧ n ≤ 32)).bind fun n =>
      (operands.mapM parseValue).map (.writeN n)
  else none

/-- One line of assembly (R85): the commands it stands for, `none` where it is no line of the syntax. A comment starts
with `;`, and an empty line stands for nothing. -/
def assembleLine (line : Text) : Option (List Instr) :=
  let t := trimText (line.takeWhile (· ≠ ';'))
  if t = [] then some []
  else
    let m := t.takeWhile fun c => !isBlank c
    let operands := parseOperands (t.dropWhile fun c => !isBlank c)
    match parseCommand m operands with
    | some i => some [i]
    | none => (parsePseudo m operands).map expandPseudo

/-- A source text: one command per line, no labels, no directives, no branches (R85). -/
def assemble (source : Text) : Option (List Instr) :=
  ((splitAtChar '\n' source).mapM assembleLine).map List.flatten

/-! ### Listings (R86) -/

/-- `count` hexadecimal digits of `n`, most significant first. -/
def hexText : Nat → Nat → Text
  | 0, _ => []
  | count + 1, n => hexText count (n / 16) ++ [(Nat.digitChar (n % 16)).toUpper]

/-- A number in decimal. -/
def decimalText (n : Nat) : Text := Nat.toDigits 10 n

/-- A signed operand in decimal. -/
def signedText (x : Word) : Text :=
  if signedOperand x < 0 then '-' :: decimalText (signedOperand x).natAbs else decimalText (unsignedOperand x)

/-- A command in the syntax of R85. -/
def assemblyText (i : Instr) : Text :=
  match i with
  | .rPeek len => mnemonicText i ++ ' ' :: signedText len
  | .rTake len => mnemonicText i ++ ' ' :: signedText len
  | .rSkip len => mnemonicText i ++ ' ' :: signedText len
  | .rIsAligned => mnemonicText i
  | .rByteAlign => mnemonicText i
  | .wWrite value width => mnemonicText i ++ ' ' :: decimalText value.toNat ++ ',' :: ' ' :: signedText width
  | .wSkip width => mnemonicText i ++ ' ' :: signedText width
  | .wIsAligned => mnemonicText i
  | .wByteAlign => mnemonicText i
  | .wByteLength => mnemonicText i
  | .wCopyTo offset dlen => mnemonicText i ++ ' ' :: decimalText offset.toNat ++ ',' :: ' ' :: decimalText dlen.toNat

/-- The names of the errors (60_exceptions R180) by their codes; status 0 has none. -/
def errorNameText (status : BitVec 8) : Text :=
  match status with
  | 1#8 => ['R', 'a', 'n', 'g', 'e', 'E', 'r', 'r', 'o', 'r']
  | 2#8 => ['E', 'n', 'd', 'O', 'f', 'S', 't', 'r', 'e', 'a', 'm']
  | 3#8 => ['U', 'n', 'a', 'l', 'i', 'g', 'n', 'e', 'd', 'P', 'e', 'e', 'k']
  | 4#8 => ['B', 'u', 'f', 'f', 'e', 'r', 'O', 'v', 'e', 'r', 'f', 'l', 'o', 'w']
  | 5#8 => ['I', 'n', 's', 'u', 'f', 'f', 'i', 'c', 'i', 'e', 'n', 't', 'S', 'p', 'a', 'c', 'e']
  | 6#8 => ['I', 'l', 'l', 'e', 'g', 'a', 'l', 'C', 'o', 'm', 'm', 'a', 'n', 'd']
  | _ => []

/-- A response as a listing writes it: `OK v`, or `<ErrorName>(info_a, info_b)` (R86). -/
def responseText (r : Response) : Text :=
  if r.status = 0#8 then ['O', 'K', ' '] ++ decimalText r.value.toNat
  else
    errorNameText r.status ++ '(' :: decimalText r.infoA.toNat ++ ',' :: ' ' :: decimalText r.infoB.toNat ++ [')']

/-- A listing line: 18 hexadecimal digits, the assembly, the response (R86, R71). -/
def listingText (i : Instr) (r : Response) : Text :=
  hexText 18 (encode i).toNat ++ ' ' :: ' ' :: assemblyText i ++ [' ', ' ', '-', '>', ' '] ++ responseText r

end Sys2Proof.Machine
end

