-- ==== Sys2Proof/Tests/Slice0.lean ====
section
/-! SUPPORT. Tests: words written out from the encoding, ill-formed terms refused, one step per command with the result
the spec's worked examples and test vectors give, and for each statement a state and operands that meet its
hypotheses. -/

namespace Sys2Proof.Tests

open Sys2Proof Sys2Proof.Machine

/-! ### Decoding: 18 hexadecimal digits, two for `op`, eight for `A`, eight for `B` (30_encoding R71, R78) -/

theorem test_decode_rPeek : decode 0x010000000100000000#72 = .ok (.rPeek 1#32) := by decide
theorem test_decode_rTake : decode 0x020000002000000000#72 = .ok (.rTake 32#32) := by decide
theorem test_decode_rSkip : decode 0x030000000400000000#72 = .ok (.rSkip 4#32) := by decide
theorem test_decode_rIsAligned : decode 0x040000000000000000#72 = .ok .rIsAligned := by decide
theorem test_decode_rByteAlign : decode 0x050000000000000000#72 = .ok .rByteAlign := by decide
theorem test_decode_wWrite : decode 0x100000000200000003#72 = .ok (.wWrite 2#32 3#32) := by decide
theorem test_decode_wSkip : decode 0x110000001100000000#72 = .ok (.wSkip 17#32) := by decide
theorem test_decode_wIsAligned : decode 0x120000000000000000#72 = .ok .wIsAligned := by decide
theorem test_decode_wByteAlign : decode 0x130000000000000000#72 = .ok .wByteAlign := by decide
theorem test_decode_wByteLength : decode 0x140000000000000000#72 = .ok .wByteLength := by decide
theorem test_decode_wCopyTo : decode 0x150000000100000004#72 = .ok (.wCopyTo 1#32 4#32) := by decide

/-- Bit by bit: op 0001_0000, A with bit 31 alone, B = 33. -/
theorem test_decode_bits :
    decode 0b000100001000000000000000000000000000000000000000000000000000000000100001#72 =
      .ok (.wWrite 0x80000000#32 33#32) := by decide

/-- The neighbours of the map's opcodes are illegal (R79). -/
theorem test_decode_illegal :
    ∀ op ∈ [0x00#8, 0x06#8, 0x0F#8, 0x16#8, 0x1F#8, 0x20#8, 0xFF#8],
      decode (commandWord op 1#32 1#32) = .error (.illegalOpcode op) := by decide

theorem test_encode_wWrite : encode (.wWrite 0x12345678#32 32#32) = 0x101234567800000020#72 := by decide
theorem test_encode_negative_length : encode (.rTake (BitVec.ofInt 32 (-5))) = 0x02FFFFFFFB00000000#72 := by decide

/-- P104 (R76): RangeError for a width of 33. -/
theorem test_response_word :
    responseWord { status := 1#8, value := 0#32, infoA := 33#32, infoB := 0#32 } = 0x01000000000000002100000000#104 := by
  decide

/-! ### WellFormed refuses the ill-formed -/

theorem test_wellFormed_write0 : Pseudo.wellFormed (.writeN 0 [1#32]) = false := by decide
theorem test_wellFormed_write33 : Pseudo.wellFormed (.writeN 33 [1#32]) = false := by decide
theorem test_wellFormed_write32 : Pseudo.wellFormed (.writeN 32 []) = true := by decide
theorem test_inputs_defcap0 : writerInputsWellFormed 8#32 2#32 0#32 1#32 [] = false := by decide
theorem test_inputs_defcap_large : writerInputsWellFormed 8#32 2#32 9#32 1#32 [] = false := by decide
theorem test_inputs_chunk0 : writerInputsWellFormed 8#32 2#32 1#32 0#32 [] = false := by decide
theorem test_inputs_chunk_large : writerInputsWellFormed 8#32 2#32 1#32 9#32 [] = false := by decide
theorem test_inputs_buffer_large : writerInputsWellFormed 8#32 9#32 1#32 1#32 [] = false := by decide
theorem test_inputs_init_outside : writerInputsWellFormed 8#32 2#32 1#32 1#32 [(2, 0xFF#8)] = false := by decide
theorem test_inputs_legal : writerInputsWellFormed 8#32 8#32 8#32 8#32 [(7, 0xFF#8)] = true := by decide

/-! ### Small states -/

/-- The bytes of a list from index 0 on, as a host lists them. -/
def cells (l : List Byte) : List Host.Cell := l.zipIdx.map fun c => (c.2, c.1)

/-- A reader just reset over the bytes. -/
def reading (l : List Byte) : State :=
  { State.reset with reader := freshReader (BitVec.ofNat 32 l.length) (cells l) }

/-- A reader in the middle of the bytes. -/
def readingAt (l : List Byte) (cursor available : Nat) (register : Word) : State :=
  { State.reset with
    reader :=
      { freshReader (BitVec.ofNat 32 l.length) (cells l) with
        cursorByte := cursor, available := available, register := register } }

/-- A writer over a supplied buffer, with an explicit strategy and its cursor in the middle. -/
def writingAt (g : Strategy) (l : List Byte) (cursor : Nat) (offset : Fin 8) : State :=
  { State.reset with
    writer :=
      { freshWriter 4#3 (BitVec.ofNat 32 l.length) 1#32 3#32 (cells l) with
        gsel := g, cursorByte := cursor, bitOffset := offset } }

/-- A writer without a buffer. -/
def writingNone (g : Strategy) : State :=
  { State.reset with writer := { freshWriter 0#3 0#32 4#32 3#32 [] with gsel := g } }

/-- The source of 95_test_vectors 1.3, after `R.SKIP 4`. -/
def midState : State := readingAt [0x01#8, 0x23#8, 0x45#8, 0x67#8, 0x80#8] 4 28 0x12345670#32

/-- The response of an outcome. -/
def responseOf : Host.Outcome State Fault Refusal → Option Response
  | .next t => t.response
  | .fault _ => none
  | .refused _ => none

/-- The reader's cursor, buffered bits and register after an outcome. -/
def readerOf : Host.Outcome State Fault Refusal → Option (Nat × Nat × Word)
  | .next t => some (t.reader.cursorByte, t.reader.available, t.reader.register)
  | .fault _ => none
  | .refused _ => none

/-- The writer's cursor and bytes after an outcome. -/
def writerOf : Host.Outcome State Fault Refusal → Option (Nat × Fin 8 × List (Option Byte))
  | .next t => some (t.writer.cursorByte, t.writer.bitOffset, (List.range (cap t.writer)).map (readSto t.writer))
  | .fault _ => none
  | .refused _ => none

/-- The bytes of `DST` from index 0 on after an outcome. -/
def dstOf (n : Nat) : Host.Outcome State Fault Refusal → Option (List (Option Byte))
  | .next t => some ((List.range n).map (readDst t))
  | .fault _ => none
  | .refused _ => none

/-- An error's response, by its code and details. -/
def err (status : BitVec 8) (a b : Word) : Option Response :=
  some { status := status, value := 0#32, infoA := a, infoB := b }

/-! ### One step per command (the worked examples of 40_reader and 41_writer, 95_test_vectors 1.1 to 1.3) -/

theorem test_rPeek :
    responseOf (exec (.rPeek 1#32) (reading [0xFF#8, 0x00#8, 0x81#8, 0x18#8])) = some (okResponse 1#32) ∧
    readerOf (exec (.rPeek 1#32) (reading [0xFF#8, 0x00#8, 0x81#8, 0x18#8])) = some (4, 32, 0xFF008118#32) := by decide
/-- 40_reader R107: 28 bits buffered, 32 asked, a byte left. -/
theorem test_rPeek_beyond :
    responseOf (exec (.rPeek 32#32) midState) = err 3#8 28#32 32#32 ∧
    readerOf (exec (.rPeek 32#32) midState) = some (4, 28, 0x12345670#32) := by decide
/-- The two-piece take. -/
theorem test_rTake :
    responseOf (exec (.rTake 32#32) midState) = some (okResponse 0x12345678#32) ∧
    readerOf (exec (.rTake 32#32) midState) = some (5, 4, 0#32) := by decide
theorem test_rTake_range : responseOf (exec (.rTake 33#32) midState) = err 1#8 33#32 0#32 := by decide
theorem test_rSkip :
    responseOf (exec (.rSkip 4#32) (reading [0x01#8, 0x23#8, 0x45#8, 0x67#8, 0x80#8])) = some (okResponse 0#32) ∧
    readerOf (exec (.rSkip 4#32) (reading [0x01#8, 0x23#8, 0x45#8, 0x67#8, 0x80#8])) =
      some (4, 28, 0x12345670#32) := by decide
theorem test_rSkip_end : responseOf (exec (.rSkip 37#32) midState) = err 2#8 37#32 36#32 := by decide
theorem test_rIsAligned :
    responseOf (exec .rIsAligned (readingAt [0xFF#8, 0x00#8, 0x81#8, 0x18#8] 4 31 0xFE010230#32)) =
      some (okResponse 0#32) := by decide
theorem test_rByteAlign :
    responseOf (exec .rByteAlign (readingAt [0xFF#8, 0x00#8, 0x81#8, 0x18#8] 4 31 0xFE010230#32)) =
      some (okResponse 7#32) ∧
    readerOf (exec .rByteAlign (readingAt [0xFF#8, 0x00#8, 0x81#8, 0x18#8] 4 31 0xFE010230#32)) =
      some (4, 24, 0x00811800#32) := by decide

theorem test_wWrite :
    writerOf (exec (.wWrite 1#32 1#32) (writingAt .unsupported [0xFF#8, 0x80#8] 1 2)) =
      some (1, 3, [some 0xFF#8, some 0xA0#8]) := by decide
/-- Sixteen bits fill the buffer, the seventeenth overflows (42_growth R164). -/
theorem test_wWrite_full :
    responseOf (exec (.wWrite 1#32 1#32) (writingAt .unsupported [0xFF#8, 0xA5#8] 2 0)) = err 4#8 3#32 2#32 := by decide
theorem test_wSkip :
    writerOf (exec (.wSkip 3#32) (writingAt .unsupported [0x00#8, 0x00#8] 0 0)) =
      some (0, 3, [some 0x00#8, some 0x00#8]) := by decide
theorem test_wSkip_full :
    responseOf (exec (.wSkip 17#32) (writingAt .unsupported [0x00#8, 0x00#8] 0 0)) = err 4#8 3#32 2#32 := by decide
theorem test_wIsAligned :
    responseOf (exec .wIsAligned (writingAt .unsupported [0x00#8] 0 3)) = some (okResponse 0#32) := by decide
theorem test_wByteAlign :
    responseOf (exec .wByteAlign (writingAt .chunked (List.replicate 8 0x00#8) 7 1)) = some (okResponse 7#32) ∧
    (writerOf (exec .wByteAlign (writingAt .chunked (List.replicate 8 0x00#8) 7 1))).map (fun w => (w.1, w.2.1)) =
      some (8, 0) := by decide
theorem test_wByteLength :
    responseOf (exec .wByteLength (writingAt .chunked [1#8, 2#8, 3#8] 2 4)) = some (okResponse 3#32) := by decide
theorem test_wCopyTo :
    dstOf 4 (exec (.wCopyTo 1#32 4#32) (writingAt .unsupported [0xFF#8, 0xA5#8] 2 0)) =
      some [none, some 0xFF#8, some 0xA5#8, none] := by decide
theorem test_wCopyTo_space :
    responseOf (exec (.wCopyTo 3#32 4#32) (writingAt .unsupported [0xFF#8, 0xA5#8] 2 0)) = err 5#8 2#32 1#32 := by decide

/-- The sizes of the strategies (the examples of 42_growth R162, R163). -/
theorem test_grow :
    grow 100 (writingAt .doubling (List.replicate 8 0#8) 0 0).writer = some 16 ∧
    grow 100 (writingAt .doubling [] 0 0).writer = some 1 ∧ grow 100 (writingNone .doubling).writer = some 4 ∧
    grow 100 (writingNone .chunked).writer = some 3 ∧ grow 100 (writingAt .chunked [1#8, 2#8, 3#8] 0 0).writer = some 6 ∧
    grow 15 (writingAt .doubling (List.replicate 8 0#8) 0 0).writer = none ∧
    grow 100 (writingNone .unsupported).writer = none := by decide

/-- A step runs the host's command, here the first after reset (30_encoding R80). -/
theorem test_step_runs :
    responseOf (step (State.reset.withFetchWord 72 0x140000000000000000)) = some (okResponse 0#32) ∧
    responseOf (step (State.reset.withFetchWord 72 0x200000000000000000)) = err 6#8 0x20#32 0#32 := by decide

/-! ### Assembler text and listings (30_encoding R85, R86, R88, R89) -/

theorem test_assemble :
    assembleLine "  W.WRITE4 true, 0xA ; two fields".toList = some [.wWrite 1#32 4#32, .wWrite 10#32 4#32] ∧
    assembleLine "W.OFF".toList = some [.wWrite 0#32 1#32] ∧
    assembleLine "R.TAKE -5".toList = some [.rTake 0xFFFFFFFB#32] ∧ assembleLine "W.WRITE33 1".toList = none ∧
    assembleLine "W.WRITE32 1".toList = some [.wWrite 1#32 32#32] ∧ assembleLine "W.WRITE08 1".toList = none ∧
    assembleLine "R.PEEK".toList = none := by decide
theorem test_listing :
    listingText (.wWrite 1#32 1#32) (okResponse 0#32) = "100000000100000001  W.WRITE 1, 1  -> OK 0".toList ∧
    listingText (.wSkip 17#32) { status := 4#8, value := 0#32, infoA := 3#32, infoB := 2#32 } =
      "110000001100000000  W.SKIP 17  -> BufferOverflow(3, 2)".toList := by decide

/-! ### Witnesses: for each statement with hypotheses, a state and operands that meet them all, clause by clause -/

/-- The state with these events from the host. -/
def given (s : State) (events : List HostEvent) : State := { s with host := events }

/-- Both units dead. -/
def deadState : State := beforeReset State.reset

/-- The reader alone dead. -/
def deadReaderState : State := killReader State.reset

/-- The writer alone dead. -/
def deadWriterState : State := killWriter State.reset

theorem inv_reset : MachineInv State.reset := by
  unfold MachineInv ReaderInv WriterInv MemoryInv
  decide

theorem inv_midState : MachineInv midState := by
  unfold MachineInv ReaderInv WriterInv MemoryInv
  decide

/-- Four source bytes, all buffered: the register is full. -/
def fullState : State := readingAt [0xFF#8, 0x00#8, 0x81#8, 0x18#8] 4 32 0xFF008118#32

theorem inv_fullState : MachineInv fullState := by
  unfold MachineInv ReaderInv WriterInv MemoryInv
  decide

/-- Five source bytes, 24 bits buffered at position 8. -/
def state24 : State := readingAt [0xFF#8, 0x00#8, 0x81#8, 0x18#8, 0x42#8] 4 24 0x00811800#32

theorem inv_state24 : MachineInv state24 := by
  unfold MachineInv ReaderInv WriterInv MemoryInv
  decide

/-- The same five bytes at the same position, nothing buffered. -/
def state24Empty : State := readingAt [0xFF#8, 0x00#8, 0x81#8, 0x18#8, 0x42#8] 1 0 0#32

theorem inv_state24Empty : MachineInv state24Empty := by
  unfold MachineInv ReaderInv WriterInv MemoryInv
  decide

/-- Five source bytes, one bit buffered, and 23. -/
def state1 : State := readingAt [0xFF#8, 0x00#8, 0x81#8, 0x18#8, 0x42#8] 1 1 0x80000000#32

theorem inv_state1 : MachineInv state1 := by
  unfold MachineInv ReaderInv WriterInv MemoryInv
  decide

def state23 : State := readingAt [0xFF#8, 0x00#8, 0x81#8, 0x18#8, 0x42#8] 4 23 0x01023000#32

theorem inv_state23 : MachineInv state23 := by
  unfold MachineInv ReaderInv WriterInv MemoryInv
  decide

/-- Four source bytes with the last 25 bits buffered. -/
def state25 : State := readingAt [0xFF#8, 0x00#8, 0x81#8, 0x18#8] 4 25 0x80408C00#32

theorem inv_state25 : MachineInv state25 := by
  unfold MachineInv ReaderInv WriterInv MemoryInv
  decide

/-- A fixed buffer of two bytes, one bit left. -/
def fixedState : State := writingAt .unsupported [0xFF#8, 0xA4#8] 1 7

theorem inv_fixedState : MachineInv fixedState := by
  unfold MachineInv ReaderInv WriterInv MemoryInv
  decide

/-- A full buffer of two bytes, doubling and chunked. -/
def fullDoubling : State := writingAt .doubling [0xFF#8, 0xA5#8] 2 0

theorem inv_fullDoubling : MachineInv fullDoubling := by
  unfold MachineInv ReaderInv WriterInv MemoryInv
  decide

def fullChunked : State := writingAt .chunked [0xFF#8, 0xA5#8] 2 0

theorem inv_fullChunked : MachineInv fullChunked := by
  unfold MachineInv ReaderInv WriterInv MemoryInv
  decide

/-- The same with `MAX_CAP` at 3. -/
def limited (s : State) : State := { s with maxCap := 3#32 }

theorem inv_limited : MachineInv (limited fullDoubling) ∧ MachineInv (limited fullChunked) := by
  unfold MachineInv ReaderInv WriterInv MemoryInv
  decide

theorem inv_writingNone : MachineInv (writingNone .doubling) ∧ MachineInv (writingNone .chunked) := by
  unfold MachineInv ReaderInv WriterInv MemoryInv
  decide

theorem witness_DecodeInvertsEncode : (Instr.wWrite 0xFFFFFFFF#32 33#32).wellFormed = true := by decide

theorem witness_DecodeReadsTheFieldsOfItsRow : decode 0x10FFFFFFFF00000021#72 = .ok (.wWrite 0xFFFFFFFF#32 33#32) := by
  decide

theorem witness_UnusedFieldsAreIgnored :
    (0x14#8 ≠ 0x10#8 ∧ 0x14#8 ≠ 0x15#8) ∧ 0x14#8 ∉ [0x01#8, 0x02#8, 0x03#8, 0x10#8, 0x11#8, 0x15#8] ∧
    usesA .wByteLength = false ∧ usesB (.rTake 1#32) = false ∧
    opField 0x140000000100000002#72 = opField 0x140000000000000000#72 ∧
    decode 0x140000000100000002#72 = .ok .wByteLength ∧ decode 0x140000000000000000#72 = .ok .wByteLength := by decide

/-- The ends of the ranges of illegal opcodes, with the units that must not be dead. -/
theorem witness_IllegalCommandIsAnswered :
    (given deadWriterState [.command 0x060000000000000000#72]).host = .command 0x060000000000000000#72 :: [] ∧
    deadWriterState.reader.dead = false ∧ (opField 0x000000000000000000#72).toNat = 0x00 ∧
    (opField 0x060000000000000000#72).toNat = 0x06 ∧ (opField 0x0F0000000000000000#72).toNat = 0x0F ∧
    (given deadReaderState [.command 0x160000000000000000#72]).host = .command 0x160000000000000000#72 :: [] ∧
    deadReaderState.writer.dead = false ∧
    (opField 0x160000000000000000#72).toNat = 0x16 ∧ (opField 0x1F0000000000000000#72).toNat = 0x1F ∧
    (given State.reset [.command 0x200000000000000000#72]).host = .command 0x200000000000000000#72 :: [] ∧
    State.reset.reader.dead = false ∧ State.reset.writer.dead = false ∧
    (opField 0x200000000000000000#72).toNat = 0x20 ∧ (opField 0xFF0000000000000000#72).toNat = 0xFF := by decide

theorem witness_IllegalCommandAtDeadUnits :
    (given deadReaderState [.command 0x0F0000000000000000#72]).host = .command 0x0F0000000000000000#72 :: [] ∧
    deadReaderState.reader.dead = true ∧ (opField 0x0F0000000000000000#72).toNat = 0x0F ∧
    (given deadWriterState [.command 0x160000000000000000#72]).host = .command 0x160000000000000000#72 :: [] ∧
    deadWriterState.writer.dead = true ∧ (opField 0x160000000000000000#72).toNat = 0x16 ∧
    (given deadState [.command 0x200000000000000000#72]).host = .command 0x200000000000000000#72 :: [] ∧
    deadState.reader.dead = true ∧ deadState.writer.dead = true ∧ (opField 0x200000000000000000#72).toNat = 0x20 ∧
    deadWriterState.reader.dead = false := by decide

theorem witness_StepRunsTheDecodedCommand :
    (given State.reset [.command 0x140000000000000000#72]).host = .command 0x140000000000000000#72 :: [] ∧
    decode 0x140000000000000000#72 = .ok .wByteLength ∧ Instr.wByteLength.wellFormed = true ∧
    (∃ t, exec .wByteLength (given State.reset [.command 0x140000000000000000#72]) = .next t) ∧
    State.reset.host = [] := ⟨rfl, by decide, rfl, ⟨_, rfl⟩, rfl⟩

theorem witness_ReaderResetBindsTheSource :
    (given deadState [.resetReader 2#32 (cells [0xFF#8, 0xA5#8])]).host =
      .resetReader 2#32 (cells [0xFF#8, 0xA5#8]) :: [] := rfl

/-- A buffer one byte too long, one of exactly `MAX_CAP` bytes, and none. -/
theorem witness_WriterResetTakesTheConfiguration :
    (given (limited deadState) [.resetWriter 4#3 4#32 1#32 1#32 []]).host = .resetWriter 4#3 4#32 1#32 1#32 [] :: [] ∧
    (4 ≤ (4#3).toNat ∧ (4#32).toNat > (limited deadState).maxCap.toNat) ∧
    (given (limited deadState) [.resetWriter 4#3 3#32 1#32 1#32 []]).host = .resetWriter 4#3 3#32 1#32 1#32 [] :: [] ∧
    (3#32).toNat ≤ (limited deadState).maxCap.toNat ∧
    (given (limited deadState) [.resetWriter 3#3 4#32 1#32 1#32 []]).host = .resetWriter 3#3 4#32 1#32 1#32 [] :: [] ∧
    (3#3).toNat < 4 := by decide

/-- A command, a reset of each unit, and no event. -/
theorem witness_EveryStepKeepsTheInvariant :
    MachineInv midState ∧ (∃ t, step (given midState [.command 0x020000002000000000#72]) = .next t) ∧
    (∃ t, step (given midState [.resetReader 1#32 [(0, 0xFF#8)]]) = .next t) ∧
    (∃ t, step (given midState [.resetWriter 7#3 1#32 1#32 1#32 []]) = .next t) ∧ ∃ t, step midState = .next t :=
  ⟨inv_midState, ⟨_, rfl⟩, ⟨_, rfl⟩, ⟨_, rfl⟩, ⟨_, rfl⟩⟩

theorem witness_EveryStepKeepsMemoryCanonical :
    MemoryInv fullDoubling ∧ ∃ t, step (given fullDoubling [.command 0x100000000100000001#72]) = .next t :=
  ⟨inv_fullDoubling.2.2, ⟨_, rfl⟩⟩

/-- A state with the invariant; a source and a storage with another byte just past
their ends; a writer about to begin a byte; a copy that
fits exactly, with the first byte past it. -/
theorem witness_NoIndexOutsideASpace :
    MachineInv midState ∧
    (∀ a, a < srcLen midState.reader →
      byteAt .src (midState.reader.source ++ [(5, 0xFF#8)]) a = byteAt .src midState.reader.source a) ∧
    (WriterInv fullDoubling.maxCap.toNat fullDoubling.writer ∧ fullDoubling.writer.dead = false ∧
      fullDoubling.writer.storage.wf .sto = true ∧ fullDoubling.writer.cursorByte = cap fullDoubling.writer) ∧
    (∀ a, a < cap fullDoubling.writer →
      byteAt .sto (fullDoubling.writer.storage ++ [(2, 0xFF#8)]) a = byteAt .sto fullDoubling.writer.storage a) ∧
    (MachineInv fixedState ∧ ∃ t, exec (.wCopyTo 1#32 3#32) fixedState = .next t ∧ (3#32 : Word).toNat ≤ 3) := by
  refine ⟨inv_midState, fun a ha => ?_, ⟨inv_fullDoubling.2.1, rfl, inv_fullDoubling.2.2.2.1, rfl⟩, fun a ha => ?_,
    inv_fixedState, _, rfl, by decide⟩
  · have : a < 5 := ha
    interval_cases a <;> rfl
  · have : a < 2 := ha
    interval_cases a <;> rfl

theorem witness_FillLeavesHeadroom : state24.reader.dead = false ∧ ReaderInv state24.reader := ⟨rfl, inv_state24.1⟩

/-- 24 bits from one buffered; 32 from none, from 24 and from 32. -/
theorem witness_PeekReturnsTheNextBits :
    (MachineInv state1 ∧ state1.reader.dead = false ∧ OperandIs 24#32 24 ∧ 24 ≤ streamLeft state1.reader) ∧
    (MachineInv state24Empty ∧ state24Empty.reader.dead = false ∧ OperandIs 32#32 32 ∧ state24Empty.reader.available = 0 ∧
      32 ≤ streamLeft state24Empty.reader) ∧
    (MachineInv state24 ∧ state24.reader.dead = false ∧ state24.reader.available = 24 ∧ 32 ≤ streamLeft state24.reader) ∧
    (MachineInv fullState ∧ fullState.reader.dead = false ∧ 32 ≤ fullState.reader.available ∧
      32 ≤ streamLeft fullState.reader) :=
  ⟨⟨inv_state1, rfl, rfl, by decide⟩, ⟨inv_state24Empty, rfl, rfl, rfl, by decide⟩, ⟨inv_state24, rfl, rfl, by decide⟩,
    ⟨inv_fullState, rfl, by decide, by decide⟩⟩

theorem witness_PeekBeyondTheBufferIsRefused :
    (MachineInv midState ∧ midState.reader.dead = false ∧ OperandIs 29#32 29 ∧ 25 ≤ midState.reader.available ∧
      midState.reader.available < 29 ∧ midState.reader.cursorByte < srcLen midState.reader) ∧
    (MachineInv state25 ∧ state25.reader.dead = false ∧ OperandIs 32#32 32 ∧ 25 ≤ state25.reader.available ∧
      state25.reader.available < 32 ∧ state25.reader.cursorByte = srcLen state25.reader) :=
  ⟨⟨inv_midState, rfl, rfl, by decide, by decide, by decide⟩, inv_state25, rfl, rfl, by decide, by decide, rfl⟩

/-- A narrow take from one buffered bit; a take in two pieces from 28 and from 24; one from an empty register; one inside
it. -/
theorem witness_TakeReturnsTheNextBits :
    (MachineInv state1 ∧ state1.reader.dead = false ∧ OperandIs 24#32 24 ∧ 24 ≤ streamLeft state1.reader) ∧
    (MachineInv midState ∧ midState.reader.dead = false ∧ OperandIs 32#32 32 ∧ WideAdmitted midState.reader.available ∧
      32 ≤ streamLeft midState.reader) ∧
    (MachineInv state24 ∧ state24.reader.dead = false ∧ WideAdmitted state24.reader.available ∧
      state24.reader.available = 24 ∧ 32 ≤ streamLeft state24.reader) ∧
    (MachineInv state24Empty ∧ state24Empty.reader.dead = false ∧ state24Empty.reader.available = 0 ∧
      32 ≤ streamLeft state24Empty.reader) ∧
    (MachineInv fullState ∧ fullState.reader.dead = false ∧ 32 ≤ fullState.reader.available ∧
      32 ≤ streamLeft fullState.reader) :=
  ⟨⟨inv_state1, rfl, rfl, by decide⟩, ⟨inv_midState, rfl, rfl, .inr (.inr (by decide)), by decide⟩,
    ⟨inv_state24, rfl, .inr (.inr (by decide)), rfl, by decide⟩, ⟨inv_state24Empty, rfl, rfl, by decide⟩,
    inv_fullState, rfl, by decide, by decide⟩

theorem witness_PeekThenTakeAgree :
    MachineInv fullState ∧ OperandIs 32#32 32 ∧ ∃ t, exec (.rPeek 32#32) fullState = .next t ∧
      t.response = some { status := 0#8, value := 0xFF008118#32, infoA := 0#32, infoB := 0#32 } :=
  ⟨inv_fullState, rfl, _, rfl, by decide⟩

/-- 1 and 23 bits are refused, 24 and 32 admitted. -/
theorem witness_WideReadAdmission :
    (MachineInv state1 ∧ state1.reader.dead = false ∧ OperandIs 25#32 25 ∧ ¬WideAdmitted state1.reader.available) ∧
    (MachineInv state23 ∧ state23.reader.dead = false ∧ OperandIs 32#32 32 ∧ ¬WideAdmitted state23.reader.available) ∧
    (MachineInv state24 ∧ state24.reader.dead = false ∧ WideAdmitted state24.reader.available) ∧
    (MachineInv fullState ∧ fullState.reader.dead = false ∧ WideAdmitted fullState.reader.available) := by
  refine ⟨⟨inv_state1, rfl, rfl, ?_⟩, ⟨inv_state23, rfl, rfl, ?_⟩, ⟨inv_state24, rfl, ?_⟩, inv_fullState, rfl, ?_⟩ <;>
    (unfold WideAdmitted; decide)

/-- One bit more than the stream has left: a peek of 26 with 25, a take of 32 with 25, a skip of 37 with 36. -/
theorem witness_EndOfStreamMeansTooFewBitsLeft :
    (MachineInv state25 ∧ state25.reader.dead = false ∧ OperandIs 26#32 26 ∧ WideAdmitted state25.reader.available ∧
      streamLeft state25.reader < 26) ∧
    (MachineInv midState ∧ midState.reader.dead = false ∧ OperandIs 37#32 37 ∧ streamLeft midState.reader < 37) ∧
    (∃ t resp, exec (.rSkip 37#32) midState = .next t ∧ t.response = some resp ∧ resp.status = 2#8) ∧
    ∃ t resp, exec (.rTake 32#32) state25 = .next t ∧ t.response = some resp ∧ resp.status = 2#8 :=
  ⟨⟨inv_state25, rfl, rfl, .inr (.inr (by decide)), by decide⟩, ⟨inv_midState, rfl, rfl, by decide⟩,
    ⟨_, _, rfl, rfl, by decide⟩, ⟨_, _, rfl, rfl, by decide⟩⟩

/-- To the end of the stream exactly; inside the register; a whole number of bytes past it; a byte and a bit past it. -/
theorem witness_SkipMovesThePosition :
    (MachineInv midState ∧ midState.reader.dead = false ∧ OperandIs 36#32 36 ∧ 36 ≤ streamLeft midState.reader) ∧
    28 ≤ midState.reader.available ∧ (36 - midState.reader.available) % 8 = 0 ∧
    (MachineInv state24 ∧ state24.reader.dead = false ∧ OperandIs 25#32 25 ∧ 25 ≤ streamLeft state24.reader ∧
      state24.reader.available < 25 ∧ (25 - state24.reader.available) % 8 ≠ 0) :=
  ⟨⟨inv_midState, rfl, rfl, by decide⟩, by decide, by decide, inv_state24, rfl, rfl, by decide, by decide, by decide⟩

theorem witness_NarrowReadsSeeOnlyThePosition :
    MachineInv state24 ∧ MachineInv state24Empty ∧ state24.reader.dead = false ∧ state24Empty.reader.dead = false ∧
    state24.reader.source = state24Empty.reader.source ∧ state24.reader.rsrclen = state24Empty.reader.rsrclen ∧
    posR state24.reader = posR state24Empty.reader ∧ (24#32 : Word).toInt ≤ 24 :=
  ⟨inv_state24, inv_state24Empty, rfl, rfl, rfl, rfl, by decide, by decide⟩

theorem witness_ReaderAlignmentQuery : MachineInv state24 ∧ state24.reader.dead = false := ⟨inv_state24, rfl⟩

theorem witness_ReaderByteAlignment :
    MachineInv midState ∧ midState.reader.dead = false ∧
    ∃ r, (∃ t, exec .rByteAlign midState = .next t ∧ t.reader = r) ∧ ∃ t : State, t.reader = r :=
  ⟨inv_midState, rfl, _, ⟨_, rfl, rfl⟩, ⟨_, rfl⟩⟩

/-- Room in the storage; a doubling to exactly `MAX_CAP`; a chunk to below it; the first storage. -/
theorem witness_WriteStoresTheField :
    (MachineInv fixedState ∧ fixedState.writer.dead = false ∧ OperandIs 1#32 1 ∧
      CanHold fixedState.maxCap.toNat ((posW fixedState.writer + 1 + 7) / 8) fixedState.writer) ∧
    (MachineInv fullDoubling ∧ fullDoubling.writer.dead = false ∧ OperandIs 16#32 16 ∧
      CanHold 4 ((posW fullDoubling.writer + 16 + 7) / 8) fullDoubling.writer) ∧
    (MachineInv fullChunked ∧ fullChunked.writer.dead = false ∧ OperandIs 32#32 32 ∧
      CanHold fullChunked.maxCap.toNat ((posW fullChunked.writer + 32 + 7) / 8) fullChunked.writer) ∧
    (MachineInv (writingNone .doubling) ∧ (writingNone .doubling).writer.dead = false ∧
      CanHold (writingNone .doubling).maxCap.toNat ((posW (writingNone .doubling).writer + 1 + 7) / 8)
        (writingNone .doubling).writer) :=
  ⟨⟨inv_fixedState, rfl, rfl, .inl ⟨rfl, by decide⟩⟩,
    ⟨inv_fullDoubling, rfl, rfl, .inr (.inl ⟨rfl, 1, by decide, by decide⟩)⟩,
    ⟨inv_fullChunked, rfl, rfl, .inr (.inr ⟨rfl, 2, by decide, by decide⟩)⟩,
    ⟨inv_writingNone.1, rfl, .inr (.inl ⟨rfl, 0, by decide, by decide⟩)⟩⟩

theorem witness_WriterSkipMovesThePosition :
    MachineInv fullDoubling ∧ fullDoubling.writer.dead = false ∧ OperandIs 100#32 100 ∧
    CanHold fullDoubling.maxCap.toNat ((posW fullDoubling.writer + 100 + 7) / 8) fullDoubling.writer :=
  ⟨inv_fullDoubling, rfl, rfl, .inr (.inl ⟨rfl, 3, by decide, by decide⟩)⟩

theorem witness_AcceptedWritesHaveTheirEffect :
    MachineInv fullDoubling ∧
    (∃ t resp, exec (.wWrite 1#32 1#32) fullDoubling = .next t ∧ t.response = some resp ∧ resp.status = 0#8) ∧
    ∃ t resp, exec (.wSkip 1#32) fullDoubling = .next t ∧ t.response = some resp ∧ resp.status = 0#8 :=
  ⟨inv_fullDoubling, ⟨_, _, rfl, rfl, rfl⟩, ⟨_, _, rfl, rfl, rfl⟩⟩

/-- One bit past a fixed buffer; one bit past a full buffer whose doubling `MAX_CAP` forbids. -/
theorem witness_OverflowWhenTheStrategyCannotSupply :
    (MachineInv fixedState ∧ fixedState.writer.dead = false ∧ OperandIs 2#32 2 ∧
      ¬CanHold fixedState.maxCap.toNat ((posW fixedState.writer + 2 + 7) / 8) fixedState.writer) ∧
    (MachineInv (limited fullDoubling) ∧ (limited fullDoubling).writer.dead = false ∧ OperandIs 1#32 1 ∧
      ¬CanHold (limited fullDoubling).maxCap.toNat ((posW (limited fullDoubling).writer + 1 + 7) / 8)
        (limited fullDoubling).writer) := by
  refine ⟨⟨inv_fixedState, rfl, rfl, ?_⟩, inv_limited.1, rfl, rfl, ?_⟩
  · rintro (⟨_, h⟩ | ⟨h, _⟩ | ⟨h, _⟩)
    · exact absurd h (by decide)
    · exact absurd h (by decide)
    · exact absurd h (by decide)
  · rintro (⟨_, h⟩ | ⟨_, k, h1, h2⟩ | ⟨h, _⟩)
    · exact absurd h (by decide)
    · have e1 : (posW (limited fullDoubling).writer + 1 + 7) / 8 = 3 := by decide
      have e2 : doublingStart (limited fullDoubling).writer = 2 := by decide
      have e3 : (limited fullDoubling).maxCap.toNat = 3 := by decide
      rw [e1, e2] at h1
      rw [e2, e3] at h2
      omega
    · exact absurd h (by decide)

/-- Sizes 4 and 8 are reached, 16 is above `MAX_CAP`: a skip that needs 11 bytes names the capacity 8 (41_writer R131,
60_exceptions R186). -/
theorem witness_OverflowAfterGrowth :
    responseOf (exec (.wSkip 81#32) { writingNone .doubling with maxCap := 10#32 }) = err 4#8 11#32 8#32 ∧
    GrowthStopsAt 10 8 (writingNone .doubling).writer :=
  ⟨by decide, by decide, 2, by decide, .inr (.inl (by decide))⟩

/-- The last bit of the storage. -/
theorem witness_GrowthOnlyWhenNeeded :
    MachineInv fixedState ∧ fixedState.writer.dead = false ∧ OperandIs 1#32 1 ∧ fixedState.writer.hasStorage = true ∧
    posW fixedState.writer + 1 ≤ 8 * cap fixedState.writer := ⟨inv_fixedState, rfl, rfl, rfl, by decide⟩

/-- Each strategy with and without storage, a size of at most `MAX_CAP` and one above it. -/
theorem witness_GrowthSizes :
    OperandIs 8#32 8 ∧
    (MachineInv fullDoubling ∧ fullDoubling.writer.dead = false ∧ posW fullDoubling.writer = 8 * cap fullDoubling.writer ∧
      fullDoubling.writer.gsel = .doubling ∧ max (2 * cap fullDoubling.writer) 1 = 4) ∧
    (MachineInv (writingNone .doubling) ∧ posW (writingNone .doubling).writer = 8 * cap (writingNone .doubling).writer ∧
      (writingNone .doubling).writer.hasStorage = false ∧ (writingNone .doubling).writer.wdefcap.toNat = 4) ∧
    (MachineInv fullChunked ∧ posW fullChunked.writer = 8 * cap fullChunked.writer ∧ fullChunked.writer.gsel = .chunked ∧
      cap fullChunked.writer + fullChunked.writer.wchunk.toNat = 5) ∧
    4 ≤ fullDoubling.maxCap.toNat ∧
    (MachineInv (limited fullDoubling) ∧ MachineInv (limited fullChunked) ∧ (limited fullDoubling).maxCap.toNat < 4 ∧
      (limited fullChunked).maxCap.toNat < 5) :=
  ⟨rfl, ⟨inv_fullDoubling, rfl, rfl, rfl, rfl⟩, ⟨inv_writingNone.1, rfl, rfl, rfl⟩, ⟨inv_fullChunked, rfl, rfl, rfl⟩,
    by decide, inv_limited.1, inv_limited.2, by decide, by decide⟩

/-- One bit too many. -/
theorem witness_UnsupportedNeverGrows :
    MachineInv fixedState ∧ fixedState.writer.dead = false ∧ fixedState.writer.gsel = .unsupported ∧ OperandIs 2#32 2 ∧
    8 * cap fixedState.writer < posW fixedState.writer + 2 := ⟨inv_fixedState, rfl, rfl, rfl, by decide⟩

theorem witness_ContentSurvivesGrowth : cap fullDoubling.writer ≤ 2 := by decide

theorem witness_WriterAlignmentQuery : State.reset.writer.dead = false := rfl

theorem witness_WriterByteAlignment :
    MachineInv fixedState ∧ fixedState.writer.dead = false ∧
    ∃ w, (∃ t, exec .wByteAlign fixedState = .next t ∧ t.writer = w) ∧ ∃ t : State, t.writer = w :=
  ⟨inv_fixedState, rfl, _, ⟨_, rfl, rfl⟩, ⟨_, rfl⟩⟩

theorem witness_ByteLengthIsAnswered : MachineInv fixedState ∧ fixedState.writer.dead = false := ⟨inv_fixedState, rfl⟩

/-- The copy fits exactly. -/
theorem witness_CopyToCopiesTheView :
    MachineInv fixedState ∧ fixedState.writer.dead = false ∧
    (1#32 : Word).toNat + byteLength fixedState.writer ≤ (3#32 : Word).toNat := ⟨inv_fixedState, rfl, by decide⟩

/-- One byte too few; and an offset past the end. -/
theorem witness_CopyToWithoutSpace :
    fixedState.writer.dead = false ∧ (1#32 : Word).toNat + byteLength fixedState.writer > (2#32 : Word).toNat ∧
    (1#32 : Word).toNat + byteLength State.reset.writer > (0#32 : Word).toNat := by decide

/-- 0 and 33, and the most negative number. -/
theorem witness_RangeErrors :
    midState.reader.dead = false ∧ midState.writer.dead = false ∧ (0#32 : Word).toInt ≤ 0 ∧
    32 < (33#32 : Word).toInt ∧ (0x80000000#32 : Word).toInt ≤ 0 := by decide

theorem witness_ErrorsOfEachCommand : ∃ t, exec (.rTake 0#32) State.reset = .next t := ⟨_, rfl⟩

/-- An error and a success. -/
theorem witness_ResponsesAreWellShaped :
    (∃ t resp, exec (.rTake 0#32) State.reset = .next t ∧ t.response = some resp ∧ resp.status ≠ 0#8) ∧
    ∃ t resp, exec (.wSkip 1#32) fixedState = .next t ∧ t.response = some resp ∧ resp.status = 0#8 :=
  ⟨⟨_, _, rfl, rfl, by decide⟩, _, _, rfl, rfl, by decide⟩

/-- One command word for each of the four errors. -/
theorem witness_LocalErrorsChangeNothing :
    (∃ t resp, step (given midState [.command 0x020000000000000000#72]) = .next t ∧ t.response = some resp ∧
      resp.status = 1#8) ∧
    (∃ t resp, step (given midState [.command 0x010000002000000000#72]) = .next t ∧ t.response = some resp ∧
      resp.status = 3#8) ∧
    (∃ t resp, step (given fixedState [.command 0x150000000100000002#72]) = .next t ∧ t.response = some resp ∧
      resp.status = 5#8) ∧
    ∃ t resp, step (given midState [.command 0x200000000000000000#72]) = .next t ∧ t.response = some resp ∧
      resp.status = 6#8 :=
  ⟨⟨_, _, rfl, rfl, by decide⟩, ⟨_, _, rfl, rfl, by decide⟩, ⟨_, _, rfl, rfl, by decide⟩, _, _, rfl, rfl, by decide⟩

theorem witness_FatalErrorsKillTheUnit :
    (∃ t resp, exec (.rSkip 37#32) midState = .next t ∧ t.response = some resp ∧ resp.status = 2#8) ∧
    (∃ t resp, exec (.wSkip 2#32) fixedState = .next t ∧ t.response = some resp ∧ resp.status = 4#8) ∧
    (∃ t resp, exec (.wSkip 1#32) fixedState = .next t ∧ t.response = some resp ∧ resp.status ≠ 2#8 ∧
      resp.status ≠ 4#8) ∧
    (unitOf (.rPeek 1#32) = .reader ∧ deadState.reader.dead = true) ∧
    (unitOf .wByteLength = .writer ∧ deadState.writer.dead = true) :=
  ⟨⟨_, _, rfl, rfl, by decide⟩, ⟨_, _, rfl, rfl, by decide⟩, ⟨_, _, rfl, rfl, by decide⟩, ⟨rfl, rfl⟩, rfl, rfl⟩

theorem witness_UnitsShareNoState :
    (∃ t, exec (.rTake 32#32) midState = .next t) ∧ unitOf (.rTake 32#32) = .reader ∧
    (∃ t, exec (.wWrite 1#32 1#32) midState = .next t) ∧ unitOf (.wWrite 1#32 1#32) = .writer ∧
    ∀ o d, Instr.wWrite 1#32 1#32 ≠ .wCopyTo o d :=
  ⟨⟨_, rfl⟩, rfl, ⟨_, rfl⟩, rfl, fun _ _ h => by cases h⟩

/-- Both units still alive after it, so that both last clauses are met. -/
theorem witness_UnitsCommute :
    unitOf (.rTake 32#32) = .reader ∧ unitOf (.wWrite 1#32 1#32) = .writer ∧
    ∃ t u, exec (.rTake 32#32) midState = .next t ∧ exec (.wWrite 1#32 1#32) t = .next u ∧ u.reader.dead = false ∧
      u.writer.dead = false := ⟨rfl, rfl, _, _, rfl, rfl, rfl, rfl⟩

theorem witness_CursorsOnlyMoveForward :
    MachineInv midState ∧ (∃ t, exec (.rTake 32#32) midState = .next t ∧ t.reader.dead = false) ∧
    MachineInv fixedState ∧ ∃ t, exec (.wWrite 1#32 1#32) fixedState = .next t ∧ t.writer.dead = false ∧
      fixedState.writer.hasStorage = true :=
  ⟨inv_midState, ⟨_, rfl, rfl⟩, inv_fixedState, _, rfl, rfl, rfl⟩

/-- The writer of the round trip's witness. -/
def roundTripWriter : State := writingAt .unsupported [0x00#8, 0x00#8] 0 0

/-- The reader over what it has written: 101 and 1010 1010 1, then four bits unwritten. -/
def roundTripReader : State := reading [0xB5#8, 0x50#8]

/-- 3 and 9 bits written into two bytes, copied to `DST` from 1 on, and read from there. -/
theorem witness_RoundTrip :
    (MachineInv roundTripWriter ∧ roundTripWriter.writer.dead = false ∧ posW roundTripWriter.writer = 0) ∧
    (∃ t u, writeAll [(5#32, 3#32), (0x155#32, 9#32)] roundTripWriter = some t ∧
      exec (.wCopyTo 1#32 3#32) t = .next u ∧ u.response = some (okResponse 0#32) ∧
      srcLen roundTripReader.reader = byteLength t.writer ∧
      ∀ a, a < byteLength t.writer → readSrc roundTripReader.reader a = readDst u ((1#32 : Word).toNat + a)) ∧
    (MachineInv roundTripReader ∧ roundTripReader.reader.dead = false ∧ posR roundTripReader.reader = 0) ∧
    ∀ f ∈ [(5#32, 3#32), (0x155#32, 9#32)], (f.2 : Word).toInt ≤ 24 := by
  refine ⟨⟨?_, rfl, rfl⟩, ⟨_, _, rfl, rfl, rfl, rfl, fun a ha => ?_⟩, ⟨?_, rfl, rfl⟩, fun f hf => ?_⟩
  · unfold MachineInv ReaderInv WriterInv MemoryInv
    decide
  · have : a < 2 := ha
    interval_cases a <;> rfl
  · unfold MachineInv ReaderInv WriterInv MemoryInv
    decide
  · simp only [List.mem_cons, List.not_mem_nil, or_false] at hf
    rcases hf with rfl | rfl <;> decide

/-- A take of 32 after one of 16 raises UnalignedPeek (41_writer R147). -/
theorem witness_RoundTrip_unaligned :
    ∃ e, takeAll [16#32, 32#32] (reading [1#8, 2#8, 3#8, 4#8, 5#8, 6#8]) = .error (some e) ∧ e.status = 3#8 :=
  ⟨_, rfl, by decide⟩

end Sys2Proof.Tests
end

section
/-! SUPPORT. What every command keeps from EVERY state, the invariant or not (the laws of Laws/Reader and Laws/Writer take
it as a premise): a unit's operation keeps what its unit sampled at reset, and never raises the error that kills the other
unit (60_exceptions R192). From these follow the frames of 00_scope R2 and 20_memory R65. -/

namespace Sys2Proof.Machine

/-! ### Errors -/

/-- Only BufferOverflow reaches the writer (60_exceptions R191, R192). -/
theorem errorEffect_writer {e : Raised} (h : statusCode e ≠ 4#8) (s : State) : (errorEffect e s).writer = s.writer := by
  rcases errorEffect_cases e s with ⟨he, _⟩ | ⟨he, _⟩ | ⟨_, hc⟩
  · rw [he]
  · rw [he, killReader_writer]
  · exact absurd hc h

/-- Only EndOfStream reaches the reader (60_exceptions R191, R192). -/
theorem errorEffect_reader {e : Raised} (h : statusCode e ≠ 2#8) (s : State) : (errorEffect e s).reader = s.reader := by
  rcases errorEffect_cases e s with ⟨he, _⟩ | ⟨_, hc⟩ | ⟨he, _⟩
  · rw [he]
  · exact absurd hc h
  · rw [he, killWriter_reader]

/-- `SRC` stands after every error, also where the reader dies of it (10_state R20). -/
theorem errorEffect_source (e : Raised) (s : State) : (errorEffect e s).reader.source = s.reader.source := by
  cases e <;> rfl

/-- `N` stands after every error, also where the reader dies of it (10_state R43). -/
theorem errorEffect_rsrclen (e : Raised) (s : State) : (errorEffect e s).reader.rsrclen = s.reader.rsrclen := by
  cases e <;> rfl

/-- The configuration inputs a writer sampled at its reset are the same (10_state R43, R44). -/
structure SameConfiguration (w w' : Writer) : Prop where
  wcfg : w'.wcfg = w.wcfg
  wbuflen : w'.wbuflen = w.wbuflen
  wdefcap : w'.wdefcap = w.wdefcap
  wchunk : w'.wchunk = w.wchunk

theorem StorageKept.sameConfiguration {w w' : Writer} (h : StorageKept w w') : SameConfiguration w w' := by
  obtain ⟨_, _, hcfg, hbuf, hdef, hchunk, _, _⟩ := h
  exact ⟨hcfg, hbuf, hdef, hchunk⟩

/-- The sampled inputs stand after every error, also where the writer dies of it (10_state R43). -/
theorem sameConfiguration_errorEffect (e : Raised) (s : State) :
    SameConfiguration s.writer (errorEffect e s).writer := by
  cases e <;> exact ⟨rfl, rfl, rfl, rfl⟩

/-! ### The reader's operations -/

/-- What a reader command may answer from any reader: a result over the same source, or one of the reader's
three errors. -/
inductive ReaderAnswer (r : Reader) : Except Raised (Word × Reader) → Prop
  | ok (v : Word) {r' : Reader} (same : SameSource r r') : ReaderAnswer r (.ok (v, r'))
  | range (operand : Word) : ReaderAnswer r (.error (.rangeError operand))
  | exhausted (len left : Word) : ReaderAnswer r (.error (.endOfStream len left))
  | unaligned (available len : Word) : ReaderAnswer r (.error (.unalignedPeek available len))

/-- No reader command raises BufferOverflow. -/
theorem ReaderAnswer.not_overflow {r : Reader} {e : Raised} (h : ReaderAnswer r (.error e)) : statusCode e ≠ 4#8 := by
  cases h <;> simp [statusCode]

theorem sameSource_fillLoop (fuel : Nat) (r : Reader) : SameSource r (fillLoop fuel r) := by
  induction fuel generalizing r with
  | zero => exact .rfl' r
  | succ fuel ih =>
    simp only [fillLoop]
    split
    · exact (sameSource_loadByte r).trans' (ih _)
    · exact .rfl' r

/-- Everything FILL can answer from any reader (R100). -/
theorem fill_answer (len : Word) (left need : Nat) (r : Reader) :
    (∃ r', fill len left need r = .ok r' ∧ SameSource r r') ∨
    fill len left need r = .error (.endOfStream len (BitVec.ofNat 32 left)) := by
  simp only [fill]
  split
  · exact .inr rfl
  · exact .inl ⟨_, rfl, sameSource_fillLoop 4 r⟩

/-- Everything fill on demand can answer from any reader (R115). -/
theorem fillOnDemand_answer (len : Word) (l : Nat) (r : Reader) :
    (∃ r', fillOnDemand len l r = .ok r' ∧ SameSource r r') ∨
    fillOnDemand len l r = .error (.endOfStream len (BitVec.ofNat 32 (streamLeft r))) := by
  unfold fillOnDemand
  split
  · exact fill_answer len (streamLeft r) l r
  · exact .inl ⟨r, rfl, .rfl' r⟩

theorem peekField_answer (len : Word) (r : Reader) : ReaderAnswer r (peekField len r) := by
  unfold peekField
  rcases fieldWidth_cases len with ⟨hw, _⟩ | ⟨l, hw, _⟩ <;> simp only [hw]
  · exact .range _
  split
  · exact .unaligned _ _
  rcases fillOnDemand_answer len l r with ⟨r', hf, same⟩ | hf <;> simp only [hf]
  · split
    · exact .unaligned _ _
    · exact .ok _ same
  · exact .exhausted _ _

theorem takeTwoPieces_answer (len : Word) (l : Nat) (r : Reader) : ReaderAnswer r (takeTwoPieces len l r) := by
  have emptied : SameSource r { r with register := 0#32, available := 0 } := ⟨rfl, rfl, rfl⟩
  unfold takeTwoPieces
  rcases fill_answer len (streamLeft r) (l - r.available) { r with register := 0#32, available := 0 } with
    ⟨r', hf, same⟩ | hf <;> simp only [hf]
  · exact .ok _ ((emptied.trans' same).trans' (sameSource_drop _ r'))
  · exact .exhausted _ _

theorem takeField_answer (len : Word) (r : Reader) : ReaderAnswer r (takeField len r) := by
  unfold takeField
  rcases fieldWidth_cases len with ⟨hw, _⟩ | ⟨l, hw, _⟩ <;> simp only [hw]
  · exact .range _
  split
  · exact .unaligned _ _
  split
  · exact takeTwoPieces_answer len l r
  rcases fillOnDemand_answer len l r with ⟨r', hf, same⟩ | hf <;> simp only [hf]
  · exact .ok _ (same.trans' (sameSource_drop l r'))
  · exact .exhausted _ _

/-- Everything the end of a skip can answer from any reader (R110). -/
theorem skipRest_answer (len : Word) (left rest : Nat) (r : Reader) :
    (∃ r', skipRest len left rest r = .ok r' ∧ SameSource r r') ∨
    skipRest len left rest r = .error (.endOfStream len (BitVec.ofNat 32 left)) := by
  have passed : SameSource r { r with cursorByte := r.cursorByte + rest / 8 } := ⟨rfl, rfl, rfl⟩
  simp only [skipRest]
  split
  · exact .inr rfl
  split
  · rcases fill_answer len left (rest % 8) { r with cursorByte := r.cursorByte + rest / 8 } with
      ⟨r', hf, same⟩ | hf <;> rw [hf]
    · exact .inl ⟨_, rfl, (passed.trans' same).trans' (sameSource_drop _ r')⟩
    · exact .inr rfl
  · exact .inl ⟨_, rfl, passed⟩

theorem skipBits_answer (len : Word) (r : Reader) : ReaderAnswer r (skipBits len r) := by
  unfold skipBits
  rcases skipLength_cases len with ⟨hw, _⟩ | ⟨l, hw, _⟩ <;> simp only [hw]
  · exact .range _
  rcases skipRest_answer len (streamLeft r) (l - min l r.available) (drop (min l r.available) r) with
    ⟨r', hs, same⟩ | hs <;> simp only [hs]
  · exact .ok _ ((sameSource_drop _ r).trans' same)
  · exact .exhausted _ _

theorem alignReader_answer (r : Reader) : ReaderAnswer r (alignReader r) := by
  unfold alignReader
  refine .ok _ ?_
  split
  · exact sameSource_drop _ r
  · exact .rfl' r

/-! ### The writer's operations -/

/-- What a writer command may answer from any writer: a result that keeps its storage and configuration, or one of the
two errors `runWriter` meets (InsufficientSpace is `W.COPYTO`'s). -/
inductive WriterAnswer (w : Writer) : Except Raised (Word × Writer) → Prop
  | ok (v : Word) {w' : Writer} (kept : StorageKept w w') : WriterAnswer w (.ok (v, w'))
  | range (operand : Word) : WriterAnswer w (.error (.rangeError operand))
  | overflow (needed capacity : Word) : WriterAnswer w (.error (.bufferOverflow needed capacity))

/-- No writer command raises EndOfStream. -/
theorem WriterAnswer.not_endOfStream {w : Writer} {e : Raised} (h : WriterAnswer w (.error e)) :
    statusCode e ≠ 2#8 := by
  cases h <;> simp [statusCode]

theorem storageKept_replaceStorage {new : Nat} {w : Writer} (h : cap w ≤ new) : StorageKept w (replaceStorage new w) :=
  ⟨h, fun _ => rfl, rfl, rfl, rfl, rfl, rfl, rfl⟩

theorem storageKept_putChunk (v : Word) (remaining : Nat) (w : Writer) : StorageKept w (putChunk v remaining w) :=
  ⟨le_rfl, id, rfl, rfl, rfl, rfl, rfl, rfl⟩

theorem storageKept_atPosition (p : Nat) (w : Writer) : StorageKept w (atPosition p w) :=
  ⟨le_rfl, id, rfl, rfl, rfl, rfl, rfl, rfl⟩

/-- A pass of ENSURE's loop that does not fail raises the capacity, or gives a writer without storage its first one. -/
theorem cap_le_of_growth {new : Nat} {w : Writer} (h : ¬(w.hasStorage = true ∧ new ≤ w.capacity)) : cap w ≤ new := by
  unfold cap
  split
  case isTrue hs => exact (Nat.lt_of_not_le fun hle => h ⟨hs, hle⟩).le
  case isFalse => exact Nat.zero_le new

/-- Everything ENSURE's loop can answer from any writer (R131). -/
theorem ensureLoop_answer (maxCap idx fuel : Nat) (w : Writer) :
    (∃ w', ensureLoop maxCap idx fuel w = .ok w' ∧ StorageKept w w') ∨
    ∃ w', ensureLoop maxCap idx fuel w = .error (overflowAt idx w') := by
  induction fuel generalizing w with
  | zero =>
    simp only [ensureLoop]
    split
    · exact .inr ⟨w, rfl⟩
    · exact .inl ⟨w, rfl, .rfl' w⟩
  | succ fuel ih =>
    simp only [ensureLoop]
    split
    case isFalse => exact .inl ⟨w, rfl, .rfl' w⟩
    case isTrue =>
      rcases grow maxCap w with _ | new
      · exact .inr ⟨w, rfl⟩
      dsimp only
      split
      case isTrue => exact .inr ⟨w, rfl⟩
      case isFalse hmore =>
        rcases ih (replaceStorage new w) with ⟨w', he, kept⟩ | failed
        · exact .inl ⟨w', he, (storageKept_replaceStorage (cap_le_of_growth hmore)).trans' kept⟩
        · exact .inr failed

theorem ensure_answer (maxCap idx : Nat) (w : Writer) :
    (∃ w', ensure maxCap idx w = .ok w' ∧ StorageKept w w') ∨
    ∃ w', ensure maxCap idx w = .error (overflowAt idx w') :=
  ensureLoop_answer maxCap idx (idx + 2) w

/-- Everything the loop of `W.WRITE` can answer from any writer (R133). -/
theorem writeLoop_answer (maxCap : Nat) (v : Word) (fuel remaining : Nat) (w : Writer) :
    (∃ w', writeLoop maxCap v fuel remaining w = .ok w' ∧ StorageKept w w') ∨
    ∃ idx w', writeLoop maxCap v fuel remaining w = .error (overflowAt idx w') := by
  induction fuel generalizing remaining w with
  | zero => exact .inl ⟨w, rfl, .rfl' w⟩
  | succ fuel ih =>
    simp only [writeLoop]
    split
    · exact .inl ⟨w, rfl, .rfl' w⟩
    rcases ensure_answer maxCap w.cursorByte w with ⟨grown, he, kept⟩ | ⟨w', he⟩ <;> simp only [he]
    · rcases ih (remaining - chunkWidth remaining grown) (putChunk v remaining grown) with ⟨w', hl, kept'⟩ | failed
      · exact .inl ⟨w', hl, (kept.trans' (storageKept_putChunk v remaining grown)).trans' kept'⟩
      · exact .inr failed
    · exact .inr ⟨_, w', rfl⟩

theorem writeField_answer (maxCap : Nat) (value width : Word) (w : Writer) :
    WriterAnswer w (writeField maxCap value width w) := by
  unfold writeField
  rcases fieldWidth_cases width with ⟨hw, _⟩ | ⟨wd, hw, _⟩ <;> simp only [hw]
  · exact .range _
  rcases writeLoop_answer maxCap value wd wd w with ⟨w', hl, kept⟩ | ⟨idx, w', hl⟩ <;> simp only [hl]
  · exact .ok _ kept
  · exact .overflow _ _

theorem skipField_answer (maxCap : Nat) (width : Word) (w : Writer) : WriterAnswer w (skipField maxCap width w) := by
  unfold skipField
  rcases skipLength_cases width with ⟨hw, _⟩ | ⟨wd, hw, _⟩ <;> simp only [hw]
  · exact .range _
  rcases ensure_answer maxCap (byteLength (atPosition (posW w + wd) w) - 1) w with ⟨grown, he, kept⟩ | ⟨w', he⟩ <;>
    simp only [he]
  · exact .ok _ (kept.trans' (storageKept_atPosition _ grown))
  · exact .overflow _ _

theorem alignWriter_answer (w : Writer) : WriterAnswer w (alignWriter w) := by
  unfold alignWriter
  refine .ok _ ?_
  split
  · exact ⟨le_rfl, id, rfl, rfl, rfl, rfl, rfl, rfl⟩
  · exact .rfl' w

/-! ### The frames of the commands -/

/-- A command whose answers are the reader's own leaves everything outside the reader, and `SRC` and `N`. -/
theorem runReader_frame {f : Reader → Except Raised (Word × Reader)} {s t : State}
    (hf : ReaderAnswer s.reader (f s.reader)) (h : runReader f s = .next t) : OnlyReaderChanged s t := by
  rcases runReader_cases f s with ⟨_, hr⟩ | ⟨_, v, r, hok, hr⟩ | ⟨_, e, herr, hr⟩ <;> rw [hr] at h <;> cases h
  · rw [hok] at hf
    obtain ⟨_, same⟩ := hf
    exact ⟨rfl, rfl, rfl, rfl, same.source, same.rsrclen⟩
  · rw [herr] at hf
    exact ⟨errorEffect_writer hf.not_overflow s, deliver_dst e s, deliver_maxCap e s, deliver_host e s,
      errorEffect_source e s, errorEffect_rsrclen e s⟩

/-- A command whose answers are the writer's own leaves everything outside the writer, and its sampled configuration. -/
theorem runWriter_frame {f : Writer → Except Raised (Word × Writer)} {s t : State}
    (hf : WriterAnswer s.writer (f s.writer)) (h : runWriter f s = .next t) :
    OnlyWriterChanged s t ∧ SameConfiguration s.writer t.writer := by
  rcases runWriter_cases f s with ⟨_, hr⟩ | ⟨_, v, w, hok, hr⟩ | ⟨_, e, herr, hr⟩ <;> rw [hr] at h <;> cases h
  · rw [hok] at hf
    obtain ⟨_, kept⟩ := hf
    exact ⟨⟨rfl, rfl, rfl, rfl⟩, kept.sameConfiguration⟩
  · rw [herr] at hf
    exact ⟨⟨errorEffect_reader hf.not_endOfStream s, deliver_dst e s, deliver_maxCap e s, deliver_host e s⟩,
      sameConfiguration_errorEffect e s⟩

/-- Every reader command leaves everything outside the reader, and `SRC` and `N` (00_scope R2, 20_memory R65). -/
theorem exec_reader_frame {i : Instr} {s t : State} (hi : unitOf i = .reader) (h : exec i s = .next t) :
    OnlyReaderChanged s t := by
  cases i
  case rPeek len => exact runReader_frame (peekField_answer len s.reader) h
  case rTake len => exact runReader_frame (takeField_answer len s.reader) h
  case rSkip len => exact runReader_frame (skipBits_answer len s.reader) h
  case rIsAligned =>
    exact runReader_frame (f := fun r => .ok (boolResult (readerAligned r), r)) (.ok _ (.rfl' s.reader)) h
  case rByteAlign => exact runReader_frame (alignReader_answer s.reader) h
  all_goals cases hi

/-- Every writer command but `W.COPYTO` leaves everything outside the writer (00_scope R2, 20_memory R65). -/
theorem exec_writer_frame {i : Instr} {s t : State} (hi : unitOf i = .writer) (hc : ∀ o d, i ≠ .wCopyTo o d)
    (h : exec i s = .next t) : OnlyWriterChanged s t ∧ SameConfiguration s.writer t.writer := by
  cases i
  case wWrite value width => exact runWriter_frame (writeField_answer s.maxCap.toNat value width s.writer) h
  case wSkip width => exact runWriter_frame (skipField_answer s.maxCap.toNat width s.writer) h
  case wIsAligned =>
    exact runWriter_frame (f := fun w => .ok (boolResult (writerAligned w), w)) (.ok _ (.rfl' s.writer)) h
  case wByteAlign => exact runWriter_frame (alignWriter_answer s.writer) h
  case wByteLength =>
    exact runWriter_frame (f := fun w => .ok (BitVec.ofNat 32 (byteLength w), w)) (.ok _ (.rfl' s.writer)) h
  case wCopyTo o d => exact absurd rfl (hc o d)
  all_goals cases hi

/-- `W.COPYTO` changes neither unit, whether it copies or raises (41_writer R145). -/
theorem execWCopyTo_frame {offset dlen : Word} {s t : State} (h : execWCopyTo offset dlen s = .next t) :
    t.reader = s.reader ∧ t.writer = s.writer ∧ t.maxCap = s.maxCap ∧ t.host = s.host.tail := by
  rcases execWCopyTo_cases offset dlen s with ⟨_, hr⟩ | ⟨_, _, hr⟩ | ⟨_, _, _, hr⟩ | ⟨_, _, _, hr⟩ <;>
    rw [hr] at h <;> cases h <;> exact ⟨rfl, rfl, rfl, rfl⟩

/-- Every command of the writer leaves the reader, `MAX_CAP` and the writer's sampled configuration, and takes
one event. -/
theorem exec_writer_shared_frame {i : Instr} {s t : State} (hi : unitOf i = .writer) (h : exec i s = .next t) :
    t.reader = s.reader ∧ t.maxCap = s.maxCap ∧ t.host = s.host.tail ∧ SameConfiguration s.writer t.writer := by
  by_cases hc : ∃ o d, i = .wCopyTo o d
  · obtain ⟨o, d, rfl⟩ := hc
    obtain ⟨hreader, hwriter, hmax, hhost⟩ := execWCopyTo_frame h
    exact ⟨hreader, hmax, hhost, by rw [hwriter]; exact ⟨rfl, rfl, rfl, rfl⟩⟩
  · obtain ⟨⟨hreader, _, hmax, hhost⟩, same⟩ := exec_writer_frame hi (fun o d he => hc ⟨o, d, he⟩) h
    exact ⟨hreader, hmax, hhost, same⟩

/-- Settles O45, by the frame of each unit's commands. -/
theorem unitsShareNoState : Obligations.UnitsShareNoState := by
  intro i s t h
  refine ⟨fun hi => exec_reader_frame hi h, fun hi => ?_⟩
  obtain ⟨hreader, hmax, hhost, same⟩ := exec_writer_shared_frame hi h
  refine ⟨hreader, hmax, hhost, same.wcfg, same.wbuflen, same.wdefcap, same.wchunk, fun hc => ?_⟩
  obtain ⟨⟨_, hdst, _, _⟩, _⟩ := exec_writer_frame hi hc h
  exact hdst

/-! ### The step -/

/-- A command takes exactly one event off the host's list (30_encoding R70). -/
theorem exec_host {i : Instr} {s t : State} (h : exec i s = .next t) : t.host = s.host.tail := by
  cases hi : unitOf i
  · obtain ⟨_, _, _, hhost, _⟩ := exec_reader_frame hi h
    exact hhost
  · obtain ⟨_, _, hhost, _⟩ := exec_writer_shared_frame hi h
    exact hhost

/-- With no event of the host's the step leaves the state as it is (00_scope R10). -/
theorem step_of_no_event {s : State} (h : s.host = []) : step s = .next s := by
  simp only [step, h]

/-- A command word that decodes is executed (30_encoding R80). -/
theorem step_of_decode {s : State} {w : CommandWord} {rest : List HostEvent} {i : Instr}
    (h : s.host = .command w :: rest) (hd : decode w = .ok i) : step s = exec i s := by
  simp only [step, h, hd]

/-- Settles O9, by the step's equation for a word that decodes and the one event each command takes. -/
theorem stepRunsTheDecodedCommand : Obligations.StepRunsTheDecodedCommand := by
  refine ⟨fun s w rest i h hd _ => ⟨step_of_decode h hd, fun t ht => ?_⟩, fun s h => step_of_no_event h⟩
  rw [exec_host ht, h, List.tail_cons]

end Sys2Proof.Machine
end

section
/-! SUPPORT. What every step keeps (10_state): the step taken apart once, what a completed command does to the two
cursors, the canonical form of the three spaces, and from these the invariant of the machine. -/

namespace Sys2Proof.Machine

/-! ### What a step can do -/

/-- What a step can do: nothing, a command, the answer to an illegal opcode, a refusal, or the reset of one unit
(00_scope R10; 30_encoding R80; 70 R210). -/
inductive StepResult (s : State) : Host.Outcome State Fault Refusal → Prop
  | idle : StepResult s (.next s)
  | command (i : Instr) {o : Host.Outcome State Fault Refusal} (h : exec i s = o) : StepResult s o
  | illegal (op : Word) : StepResult s (.next (deliver (.illegalCommand op) s))
  | refused (why : Refusal) : StepResult s (.refused why)
  | resetReader (n : Word) (src : List Host.Cell) :
      StepResult s (.next { s with reader := freshReader n src, host := s.host.tail })
  | resetWriter (cfg : BitVec 3) (len defcap chunk : Word) (init : List Host.Cell)
      (fits : bufField cfg = false ∨ len.toNat ≤ s.maxCap.toNat) :
      StepResult s (.next { s with writer := freshWriter cfg len defcap chunk init, host := s.host.tail })

theorem runIllegal_result (op : BitVec 8) (s : State) : StepResult s (runIllegal op s) := by
  have guarded (dead : Bool) (why : Refusal) :
      StepResult s (if dead then .refused why else .next (deliver (.illegalCommand (zext32 op)) s)) := by
    split
    · exact .refused why
    · exact .illegal _
  unfold runIllegal
  rcases selectedUnit op with _ | _ | _
  · exact guarded (s.reader.dead && s.writer.dead) .noLiveUnit
  · exact guarded s.reader.dead .deadReader
  · exact guarded s.writer.dead .deadWriter

/-- A reset of the writer is refused when its buffer is longer than `MAX_CAP`, and only then (93 U8; log entry 10). -/
theorem applyResetWriter_cases (cfg : BitVec 3) (len defcap chunk : Word) (init : List Host.Cell) (s : State) :
    ((bufField cfg = true ∧ s.maxCap.toNat < len.toNat) ∧
      applyResetWriter cfg len defcap chunk init s = .refused .bufferBeyondMaxCap) ∨
    ((bufField cfg = false ∨ len.toNat ≤ s.maxCap.toNat) ∧
      applyResetWriter cfg len defcap chunk init s =
        .next { s with writer := freshWriter cfg len defcap chunk init, host := s.host.tail }) := by
  unfold applyResetWriter
  by_cases hlong : bufField cfg = true ∧ len.toNat > s.maxCap.toNat
  · exact .inl ⟨hlong, if_pos hlong⟩
  · refine .inr ⟨?_, if_neg hlong⟩
    cases hb : bufField cfg
    · exact .inl rfl
    · exact .inr (Nat.le_of_not_lt fun hlt => hlong ⟨hb, hlt⟩)

theorem step_result (s : State) : StepResult s (step s) := by
  unfold step
  split
  case h_1 => exact .idle
  case h_2 w _ _ =>
    split
    · exact .command _ rfl
    · exact runIllegal_result _ s
  case h_3 n src _ _ => exact .resetReader n src
  case h_4 cfg len defcap chunk init _ _ =>
    rcases applyResetWriter_cases cfg len defcap chunk init s with ⟨_, hr⟩ | ⟨fits, hr⟩ <;> rw [hr]
    · exact .refused _
    · exact .resetWriter cfg len defcap chunk init fits

/-! ### What a completed command does to a cursor -/

/-- The reader keeps its invariant and its cursors have not fallen (10_state R21, R24). -/
structure ReaderAdvances (r r' : Reader) : Prop where
  ok : ReaderOk r'
  cursor : r.cursorByte ≤ r'.cursorByte
  position : posR r ≤ posR r'

theorem ReaderOk.advances {r : Reader} (h : ReaderOk r) : ReaderAdvances r r := ⟨h, le_rfl, le_rfl⟩

theorem peekField_advances {len v : Word} {r r' : Reader} (h : ReaderOk r) (hf : peekField len r = .ok (v, r')) :
    ReaderAdvances r r' := by
  have res := peekField_result len r h
  rw [hf] at res
  cases res with
  | field l _ _ _ _ _ _ _ _ _ ok _ pos cursor => exact ⟨ok, cursor, pos.ge⟩

theorem takeField_advances {len v : Word} {r r' : Reader} (h : ReaderOk r) (hf : takeField len r = .ok (v, r')) :
    ReaderAdvances r r' := by
  have res := takeField_result len r h
  rw [hf] at res
  cases res with
  | field l _ _ _ _ _ _ _ _ ok _ pos cursor => exact ⟨ok, cursor, by omega⟩

theorem skipBits_advances {len v : Word} {r r' : Reader} (h : ReaderOk r) (hf : skipBits len r = .ok (v, r')) :
    ReaderAdvances r r' := by
  have res := skipBits_result len r h
  rw [hf] at res
  cases res with
  | moved l _ _ _ _ ok _ pos cursor => exact ⟨ok, cursor, by omega⟩

theorem alignReader_advances {v : Word} {r r' : Reader} (h : ReaderOk r) (hf : alignReader r = .ok (v, r')) :
    ReaderAdvances r r' := by
  obtain ⟨r1, h1, ok, _, pos, cursor, _⟩ := alignReader_spec r h
  rw [hf] at h1
  cases h1
  exact ⟨ok, cursor.ge, by omega⟩

/-- A reader command whose results advance leaves a reader that has advanced, or is dead. -/
theorem runReader_advances {f : Reader → Except Raised (Word × Reader)} {s t : State} (hr : ReaderInv s.reader)
    (hf : ∀ v r', ReaderOk s.reader → f s.reader = .ok (v, r') → ReaderAdvances s.reader r')
    (h : runReader f s = .next t) (hd : t.reader.dead = false) : ReaderAdvances s.reader t.reader := by
  rcases runReader_cases f s with ⟨_, he⟩ | ⟨live, v, r, hok, he⟩ | ⟨live, e, _, he⟩ <;> rw [he] at h <;> cases h
  · exact hf v r ((readerInv_iff _).1 hr live) hok
  · have same : (deliver e s).reader = s.reader := by
      refine errorEffect_reader (fun h2 => ?_) s
      rcases errorEffect_cases e s with ⟨_, hc⟩ | ⟨hk, _⟩ | ⟨_, hc⟩
      · simp [h2] at hc
      · simp [hk] at hd
      · simp [h2] at hc
    rw [same]
    exact ((readerInv_iff _).1 hr live).advances

/-- Every command leaves a reader that keeps its invariant and has not moved back, or is dead. -/
theorem exec_readerAdvances {i : Instr} {s t : State} (hr : ReaderInv s.reader) (h : exec i s = .next t)
    (hd : t.reader.dead = false) : ReaderAdvances s.reader t.reader := by
  cases hu : unitOf i with
  | writer =>
    obtain ⟨same, _⟩ := exec_writer_shared_frame hu h
    rw [same] at hd ⊢
    exact ((readerInv_iff _).1 hr hd).advances
  | reader =>
    cases i
    case rPeek len => exact runReader_advances hr (fun _ _ => peekField_advances) h hd
    case rTake len => exact runReader_advances hr (fun _ _ => takeField_advances) h hd
    case rSkip len => exact runReader_advances hr (fun _ _ => skipBits_advances) h hd
    case rIsAligned =>
      exact runReader_advances (f := fun r => .ok (boolResult (readerAligned r), r)) hr
        (fun _ _ ok hf => by cases hf; exact ok.advances) h hd
    case rByteAlign => exact runReader_advances hr (fun _ _ => alignReader_advances) h hd
    all_goals cases hu

/-- The writer keeps its invariant and its storage, and its position has not fallen (10_state R32, R37, R39). -/
structure WriterAdvances (maxCap : Nat) (w w' : Writer) : Prop where
  ok : WriterOk maxCap w'
  kept : StorageKept w w'
  position : posW w ≤ posW w'

theorem WriterOk.advances {maxCap : Nat} {w : Writer} (h : WriterOk maxCap w) : WriterAdvances maxCap w w :=
  ⟨h, .rfl' w, le_rfl⟩

/-- `w.cursorByte` is the byte of the position (10_state R37). -/
theorem cursorByte_eq (w : Writer) : w.cursorByte = posW w / 8 := by
  have := w.bitOffset.isLt
  simp only [posW]
  omega

/-- Where `W.WRITE` completes, its loop has written a field of a width from 1 to 32, and the value is 0 (41_writer
R133). -/
theorem writeField_ok {maxCap : Nat} {value width v : Word} {w w' : Writer} (h : WriterOk maxCap w)
    (hf : writeField maxCap value width w = .ok (v, w')) :
    v = 0#32 ∧ ∃ wd, OperandIs width wd ∧ 1 ≤ wd ∧ wd ≤ 32 ∧ WriteResult maxCap value wd w (.ok w') := by
  unfold writeField at hf
  rcases fieldWidth_cases width with ⟨hw, _⟩ | ⟨wd, hw, hwd, h1, h32⟩ <;> simp only [hw] at hf
  · cases hf
  have res := writeLoop_result maxCap value wd wd w h le_rfl
  rcases hl : writeLoop maxCap value wd wd w with e | written <;> rw [hl] at res <;> simp only [hl] at hf <;> cases hf
  exact ⟨rfl, wd, hwd, h1, h32, res⟩

theorem writeField_advances {maxCap : Nat} {value width v : Word} {w w' : Writer} (h : WriterOk maxCap w)
    (hf : writeField maxCap value width w = .ok (v, w')) : WriterAdvances maxCap w w' := by
  obtain ⟨_, wd, _, _, _, res⟩ := writeField_ok h hf
  cases res with
  | written _ ok kept pos => exact ⟨ok, kept, by omega⟩

theorem skipField_advances {maxCap : Nat} {width v : Word} {w w' : Writer} (h : WriterOk maxCap w)
    (hf : skipField maxCap width w = .ok (v, w')) : WriterAdvances maxCap w w' := by
  have res := skipField_result maxCap width w h
  rw [hf] at res
  cases res with
  | moved wd _ _ _ ok kept pos => exact ⟨ok, kept, by omega⟩

theorem alignWriter_advances {maxCap : Nat} {v : Word} {w w' : Writer} (h : WriterOk maxCap w)
    (hf : alignWriter w = .ok (v, w')) : WriterAdvances maxCap w w' := by
  obtain ⟨w1, h1, ok, kept, pos, _⟩ := alignWriter_spec maxCap w h
  rw [hf] at h1
  cases h1
  exact ⟨ok, kept, by omega⟩

/-- A writer command whose results advance leaves a writer that has advanced, or is dead. -/
theorem runWriter_advances {f : Writer → Except Raised (Word × Writer)} {s t : State} (hinv : MachineInv s)
    (hf : ∀ v w', WriterOk s.maxCap.toNat s.writer → f s.writer = .ok (v, w') →
      WriterAdvances s.maxCap.toNat s.writer w')
    (h : runWriter f s = .next t) (hd : t.writer.dead = false) :
    WriterAdvances s.maxCap.toNat s.writer t.writer := by
  rcases runWriter_cases f s with ⟨_, he⟩ | ⟨live, v, w, hok, he⟩ | ⟨live, e, _, he⟩ <;> rw [he] at h <;> cases h
  · exact hf v w (hinv.writerOk live) hok
  · have same : (deliver e s).writer = s.writer := by
      refine errorEffect_writer (fun h4 => ?_) s
      rcases errorEffect_cases e s with ⟨_, hc⟩ | ⟨_, hc⟩ | ⟨hk, _⟩
      · simp [h4] at hc
      · simp [h4] at hc
      · simp [hk] at hd
    rw [same]
    exact (hinv.writerOk live).advances

/-- Every command leaves a writer that keeps its invariant and has not moved back, or is dead. -/
theorem exec_writerAdvances {i : Instr} {s t : State} (hinv : MachineInv s) (h : exec i s = .next t)
    (hd : t.writer.dead = false) : WriterAdvances s.maxCap.toNat s.writer t.writer := by
  cases hu : unitOf i with
  | reader =>
    obtain ⟨same, _⟩ := exec_reader_frame hu h
    rw [same] at hd ⊢
    exact (hinv.writerOk hd).advances
  | writer =>
    cases i
    case wWrite value width => exact runWriter_advances hinv (fun _ _ => writeField_advances) h hd
    case wSkip width => exact runWriter_advances hinv (fun _ _ => skipField_advances) h hd
    case wIsAligned =>
      exact runWriter_advances (f := fun w => .ok (boolResult (writerAligned w), w)) hinv
        (fun _ _ ok hf => by cases hf; exact ok.advances) h hd
    case wByteAlign => exact runWriter_advances hinv (fun _ _ => alignWriter_advances) h hd
    case wByteLength =>
      exact runWriter_advances (f := fun w => .ok (BitVec.ofNat 32 (byteLength w), w)) hinv
        (fun _ _ ok hf => by cases hf; exact ok.advances) h hd
    case wCopyTo offset dlen =>
      obtain ⟨_, same, _⟩ := execWCopyTo_frame h
      rw [same] at hd ⊢
      exact (hinv.writerOk hd).advances
    all_goals cases hu

/-- Settles O47, by what every command does to each unit's cursor. -/
theorem cursorsOnlyMoveForward : Obligations.CursorsOnlyMoveForward := by
  intro i s t hinv h
  refine ⟨fun hd => ?_, fun hd => ?_⟩
  · have adv := exec_readerAdvances hinv.1 h hd
    exact ⟨adv.cursor, adv.position⟩
  · have adv := exec_writerAdvances hinv h hd
    obtain ⟨hcap, hstorage, _⟩ := adv.kept
    refine ⟨?_, adv.position, hcap, hstorage⟩
    rw [cursorByte_eq, cursorByte_eq]
    exact Nat.div_le_div_right adv.position

/-! ### The canonical form of the three spaces -/

theorem ensureLoop_canonical {maxCap idx fuel : Nat} {w w' : Writer} (hw : w.storage.wf .sto = true)
    (h : ensureLoop maxCap idx fuel w = .ok w') : w'.storage.wf .sto = true := by
  induction fuel generalizing w with
  | zero =>
    simp only [ensureLoop] at h
    split at h <;> cases h
    exact hw
  | succ fuel ih =>
    simp only [ensureLoop] at h
    split at h
    case isFalse =>
      cases h
      exact hw
    case isTrue =>
      rcases hg : grow maxCap w with _ | new <;> simp only [hg] at h
      · cases h
      split at h
      · cases h
      · exact ih (wf_memCut hw _) h

theorem writeLoop_canonical {maxCap fuel remaining : Nat} {v : Word} {w w' : Writer} (hw : w.storage.wf .sto = true)
    (h : writeLoop maxCap v fuel remaining w = .ok w') : w'.storage.wf .sto = true := by
  induction fuel generalizing remaining w with
  | zero =>
    cases h
    exact hw
  | succ fuel ih =>
    simp only [writeLoop] at h
    split at h
    · cases h
      exact hw
    rcases he : ensure maxCap w.cursorByte w with e | grown <;> simp only [he] at h
    · cases h
    · exact ih (wf_memWrite (ensureLoop_canonical hw he) _ _) h

theorem writeField_canonical {maxCap : Nat} {value width v : Word} {w w' : Writer} (hw : w.storage.wf .sto = true)
    (h : writeField maxCap value width w = .ok (v, w')) : w'.storage.wf .sto = true := by
  unfold writeField at h
  rcases hf : fieldWidth width with e | wd <;> simp only [hf] at h
  · cases h
  rcases hl : writeLoop maxCap value wd wd w with e | written <;> simp only [hl] at h <;> cases h
  exact writeLoop_canonical hw hl

theorem skipField_canonical {maxCap : Nat} {width v : Word} {w w' : Writer} (hw : w.storage.wf .sto = true)
    (h : skipField maxCap width w = .ok (v, w')) : w'.storage.wf .sto = true := by
  unfold skipField at h
  rcases hf : skipLength width with e | wd <;> simp only [hf] at h
  · cases h
  rcases he : ensure maxCap (byteLength (atPosition (posW w + wd) w) - 1) w with e | grown <;> simp only [he] at h <;>
    cases h
  rw [atPosition_storage]
  exact ensureLoop_canonical hw he

theorem alignWriter_storage {v : Word} {w w' : Writer} (h : alignWriter w = .ok (v, w')) : w'.storage = w.storage := by
  unfold alignWriter at h
  cases h
  split <;> rfl

/-- A writer command whose results are canonical leaves a canonical storage, a dead writer's included. -/
theorem runWriter_canonical {f : Writer → Except Raised (Word × Writer)} {s t : State} (hs : MemoryInv s)
    (hf : ∀ v w', f s.writer = .ok (v, w') → w'.storage.wf .sto = true) (h : runWriter f s = .next t) :
    t.writer.storage.wf .sto = true := by
  rcases runWriter_cases f s with ⟨_, he⟩ | ⟨_, v, w, hok, he⟩ | ⟨_, e, _, he⟩ <;> rw [he] at h <;> cases h
  · exact hf v w hok
  · exact (memoryInv_errorEffect hs e).2.1

/-- `W.COPYTO` leaves a canonical `DST`. -/
theorem execWCopyTo_canonical {offset dlen : Word} {s t : State} (hs : MemoryInv s)
    (h : execWCopyTo offset dlen s = .next t) : t.dst.wf .dst = true := by
  obtain ⟨_, _, hdst⟩ := hs
  rcases execWCopyTo_cases offset dlen s with ⟨_, he⟩ | ⟨_, _, he⟩ | ⟨_, _, _, he⟩ | ⟨_, _, _, he⟩ <;>
    rw [he] at h <;> cases h
  · exact hdst
  · exact (copyBytes_spec s.writer offset.toNat (byteLength s.writer) s.dst hdst).1

/-- Every writer command but `W.COPYTO` leaves a canonical storage. -/
theorem exec_storage_canonical {i : Instr} {s t : State} (hs : MemoryInv s) (hu : unitOf i = .writer)
    (hc : ∀ o d, i ≠ .wCopyTo o d) (h : exec i s = .next t) : t.writer.storage.wf .sto = true := by
  have hw := hs.2.1
  cases i
  case wWrite value width => exact runWriter_canonical hs (fun _ _ => writeField_canonical hw) h
  case wSkip width => exact runWriter_canonical hs (fun _ _ => skipField_canonical hw) h
  case wByteAlign => exact runWriter_canonical (f := alignWriter) hs (fun _ _ ha => by rwa [alignWriter_storage ha]) h
  case wIsAligned =>
    exact runWriter_canonical (f := fun w => .ok (boolResult (writerAligned w), w)) hs (fun _ _ hf => by cases hf; exact hw) h
  case wByteLength =>
    exact runWriter_canonical (f := fun w => .ok (BitVec.ofNat 32 (byteLength w), w)) hs (fun _ _ hf => by cases hf; exact hw) h
  case wCopyTo o d => exact absurd rfl (hc o d)
  all_goals cases hu

/-- Every command keeps the canonical form, from every state that has it. -/
theorem exec_memoryInv {i : Instr} {s t : State} (hs : MemoryInv s) (h : exec i s = .next t) : MemoryInv t := by
  have ⟨hsrc, hsto, hdst⟩ := hs
  cases hu : unitOf i with
  | reader =>
    obtain ⟨hw, hd, _, _, hsource, _⟩ := exec_reader_frame hu h
    exact ⟨by rwa [hsource], by rwa [hw], by rwa [hd]⟩
  | writer =>
    by_cases hc : ∃ o d, i = .wCopyTo o d
    · obtain ⟨o, d, rfl⟩ := hc
      obtain ⟨hr, hw, _⟩ := execWCopyTo_frame h
      exact ⟨by rwa [hr], by rwa [hw], execWCopyTo_canonical hs h⟩
    · have hc : ∀ o d, i ≠ .wCopyTo o d := fun o d he => hc ⟨o, d, he⟩
      obtain ⟨⟨hr, hd, _, _⟩, _⟩ := exec_writer_frame hu hc h
      exact ⟨by rwa [hr], exec_storage_canonical hs hu hc h, by rwa [hd]⟩

/-! ### Resets -/

/-- A writer just reset has a canonical storage, whatever its configuration. -/
theorem freshWriter_canonical (cfg : BitVec 3) (len defcap chunk : Word) (init : List Host.Cell) :
    (freshWriter cfg len defcap chunk init).storage.wf .sto = true := by
  unfold freshWriter
  dsimp only
  split
  · exact wf_memImage _ _ _
  · exact wf_nil .sto

theorem freshReader_canonical (n : Word) (src : List Host.Cell) : (freshReader n src).source.wf .src = true :=
  wf_memImage _ _ _

/-- Settles O14, by the cases of a step. -/
theorem everyStepKeepsMemoryCanonical : Obligations.EveryStepKeepsMemoryCanonical := by
  intro s t hs h
  have ⟨hsrc, hsto, hdst⟩ := hs
  have res := step_result s
  rw [h] at res
  cases res with
  | idle => exact hs
  | command i he => exact exec_memoryInv hs he
  | illegal op => exact hs
  | resetReader n src => exact ⟨freshReader_canonical n src, hsto, hdst⟩
  | resetWriter cfg len defcap chunk init => exact ⟨hsrc, freshWriter_canonical cfg len defcap chunk init, hdst⟩

/-! ### The invariant -/

/-- No command changes `MAX_CAP` (00_scope R8). -/
theorem exec_maxCap {i : Instr} {s t : State} (h : exec i s = .next t) : t.maxCap = s.maxCap := by
  cases hu : unitOf i with
  | reader =>
    obtain ⟨_, _, hmax, _⟩ := exec_reader_frame hu h
    exact hmax
  | writer =>
    obtain ⟨_, hmax, _⟩ := exec_writer_shared_frame hu h
    exact hmax

/-- Every command keeps the invariant. -/
theorem exec_machineInv {i : Instr} {s t : State} (hinv : MachineInv s) (h : exec i s = .next t) : MachineInv t := by
  have ⟨hreader, _, hmem⟩ := hinv
  refine ⟨fun hd => ?_, fun hd => ?_, exec_memoryInv hmem h⟩
  · exact (exec_readerAdvances hreader h hd).ok.inv hd
  · rw [exec_maxCap h]
    exact (exec_writerAdvances hinv h hd).ok.inv hd

/-- Settles O13, by the cases of a step: a command keeps each unit's invariant because it advances the unit or kills it,
and a reset establishes the invariant afresh. -/
theorem everyStepKeepsTheInvariant : Obligations.EveryStepKeepsTheInvariant := by
  intro s t hinv h
  have ⟨hreader, hwriter, hmem⟩ := hinv
  have hmem' := everyStepKeepsMemoryCanonical s t hmem h
  have res := step_result s
  rw [h] at res
  cases res with
  | idle => exact hinv
  | command i he => exact exec_machineInv hinv he
  | illegal op => exact hinv
  | resetReader n src => exact ⟨(readerOk_freshReader n src).inv, hwriter, hmem'⟩
  | resetWriter cfg len defcap chunk init fits =>
    exact ⟨hreader, (writerOk_freshWriter defcap chunk init fits).inv, hmem'⟩

/-- Settles O12: `State.reset` is the reset of both units (10_state R48). -/
theorem invariantHoldsAtReset : Obligations.InvariantHoldsAtReset := by
  obtain ⟨hreader, hwriter⟩ := reset_units
  refine ⟨?_, ?_, ?_, ?_, wf_nil .dst⟩
  · rw [hreader]
    exact (readerOk_freshReader _ _).inv
  · rw [hwriter]
    exact (writerOk_freshWriter _ _ _ (.inl rfl)).inv
  · rw [hreader]
    exact freshReader_canonical _ _
  · rw [hwriter]
    exact freshWriter_canonical _ _ _ _ _

/-- What a host's list reads as at an index that exists in `SRC` or `STO`: the first listed byte, else 0x00 (log entries
8 and 9). -/
theorem memRead_cells {sp : Space} (hsp : unlisted sp = some 0x00#8) (cells : List Host.Cell) (a : Nat) :
    memRead sp cells a = some ((cellAt cells a).getD 0x00#8) := by
  unfold memRead
  rw [hsp]
  cases cellAt cells a <;> rfl

theorem readSrc_freshReader (n : Word) (src : List Host.Cell) (a : Nat) :
    readSrc (freshReader n src) a = if a < n.toNat then some ((cellAt src a).getD 0x00#8) else none := by
  show (if a < n.toNat then memRead .src (memImage .src n.toNat src) a else none) = _
  split
  · rw [memRead_memImage, if_pos ‹_›, memRead_cells rfl]
  · rfl

/-- Settles O10, by what a reader just reset reads. -/
theorem readerResetBindsTheSource : Obligations.ReaderResetBindsTheSource := by
  intro s n src rest h
  refine ⟨freshReader n src, ?_, rfl, rfl, rfl, rfl, rfl, rfl, fun a ha => ?_, fun a ha => ?_,
    (readerOk_freshReader n src).inv⟩
  · simp only [step, h, applyResetReader, List.tail_cons]
  · rw [readSrc_freshReader, if_pos ha]
  · rw [readSrc_freshReader, if_neg (by omega)]

theorem cap_freshWriter (cfg : BitVec 3) (len defcap chunk : Word) (init : List Host.Cell) :
    cap (freshWriter cfg len defcap chunk init) = if bufField cfg then len.toNat else 0 := by
  simp only [cap, freshWriter]
  split <;> rfl

theorem readSto_freshWriter (cfg : BitVec 3) (len defcap chunk : Word) (init : List Host.Cell) (a : Nat) :
    readSto (freshWriter cfg len defcap chunk init) a =
      if a < cap (freshWriter cfg len defcap chunk init) then some ((cellAt init a).getD 0x00#8) else none := by
  unfold readSto
  split
  case isFalse => rfl
  case isTrue ha =>
    rw [cap_freshWriter] at ha
    cases hb : bufField cfg
    · simp [hb] at ha
    · simp only [hb, if_true] at ha
      have hsto : (freshWriter cfg len defcap chunk init).storage = memImage .sto len.toNat init := if_pos hb
      rw [hsto, memRead_memImage, if_pos ha, memRead_cells rfl]

/-- The strategy by the numbers of `WCFG`'s fields (10_state R44, 42_growth R161). -/
theorem effectiveStrategy_eq : ∀ cfg : BitVec 3,
    effectiveStrategy cfg = (if cfg.toNat % 4 = 1 then .doubling else if cfg.toNat % 4 = 2 then .chunked
      else if cfg.toNat % 4 = 3 then .unsupported else if 4 ≤ cfg.toNat then .unsupported else .doubling) := by
  decide

/-- Settles O11, by the two outcomes of a reset and what a writer just reset holds. -/
theorem writerResetTakesTheConfiguration : Obligations.WriterResetTakesTheConfiguration := by
  intro s cfg len defcap chunk init rest h
  have hstep : step s = applyResetWriter cfg len defcap chunk init s := by simp only [step, h]
  have hbuf := bufField_eq cfg
  rw [hstep]
  rcases applyResetWriter_cases cfg len defcap chunk init s with ⟨⟨hb, hlong⟩, hr⟩ | ⟨fits, hr⟩ <;> rw [hr]
  · refine ⟨fun _ _ => rfl, fun hshort => ?_⟩
    simp only [hb, true_eq_decide_iff] at hbuf
    omega
  · refine ⟨fun hb hlong => ?_, fun _ => ?_⟩
    · simp only [hb, decide_true] at hbuf
      simp only [hbuf, Bool.true_eq_false, false_or] at fits
      omega
    · refine ⟨freshWriter cfg len defcap chunk init, by rw [h, List.tail_cons], rfl, rfl, rfl, rfl, rfl, rfl, rfl, rfl,
        hbuf, ?_, effectiveStrategy_eq cfg, fun a ha => ?_, fun a ha => ?_, (writerOk_freshWriter _ _ _ fits).inv⟩
      · rw [cap_freshWriter, hbuf]
        simp only [decide_eq_true_eq]
      · rw [readSto_freshWriter, if_pos ha]
      · rw [readSto_freshWriter, if_neg (by omega)]

end Sys2Proof.Machine
end

section
/-! SUPPORT. No index outside a space (20_memory R62), and what the reader's FILL and narrow reads see of the source. -/

namespace Sys2Proof.Machine

/-! ### No fault -/

theorem runReader_no_fault (f : Reader → Except Raised (Word × Reader)) (s : State) (e : Fault) :
    runReader f s ≠ .fault e := by
  rcases runReader_cases f s with ⟨_, h⟩ | ⟨_, _, _, _, h⟩ | ⟨_, _, _, h⟩ <;> rw [h] <;> nofun

theorem runWriter_no_fault (f : Writer → Except Raised (Word × Writer)) (s : State) (e : Fault) :
    runWriter f s ≠ .fault e := by
  rcases runWriter_cases f s with ⟨_, h⟩ | ⟨_, _, _, _, h⟩ | ⟨_, _, _, h⟩ <;> rw [h] <;> nofun

/-- In a state with the invariant every byte `W.COPYTO` copies exists (10_state R39). -/
theorem execWCopyTo_no_fault {s : State} (hinv : MachineInv s) (offset dlen : Word) (e : Fault) :
    execWCopyTo offset dlen s ≠ .fault e := by
  rcases execWCopyTo_cases offset dlen s with ⟨_, h⟩ | ⟨_, _, h⟩ | ⟨live, _, hover, h⟩ | ⟨_, _, _, h⟩ <;> rw [h]
  case inr.inr.inl => exact absurd (hinv.writerOk live).length_le (Nat.not_le_of_lt hover)
  all_goals nofun

theorem exec_no_fault {s : State} (hinv : MachineInv s) (i : Instr) (e : Fault) : exec i s ≠ .fault e := by
  cases hu : unitOf i with
  | reader =>
    obtain ⟨f, hf⟩ := exec_reader hu
    rw [hf]
    exact runReader_no_fault f s e
  | writer =>
    rcases exec_writer hu with ⟨o, d, rfl⟩ | ⟨f, hf⟩
    · exact execWCopyTo_no_fault hinv o d e
    · rw [hf]
      exact runWriter_no_fault _ s e

theorem safeStep_of_machineInv {s : State} (hinv : MachineInv s) : SafeStep s := by
  intro e h
  have res := step_result s
  rw [h] at res
  cases res with
  | command i he => exact exec_no_fault hinv i e he

/-! ### The indices of the loops -/

/-- A pass of FILL's loop loads the byte at an index that exists, or there is no pass (R100). -/
theorem fillLoop_succ_cases (fuel : Nat) (r : Reader) :
    fillLoop (fuel + 1) r = r ∨ (r.cursorByte < srcLen r ∧ fillLoop (fuel + 1) r = fillLoop fuel (loadByte r)) := by
  by_cases hpass : r.available ≤ 24 ∧ r.cursorByte < srcLen r
  · exact .inr ⟨hpass.2, if_pos hpass⟩
  · exact .inl (if_neg hpass)

/-- A byte loaded from another memory with the same byte at the cursor. -/
theorem loadByte_of_same_byte {r : Reader} {other : Memory}
    (h : byteAt .src other r.cursorByte = byteAt .src r.source r.cursorByte) :
    loadByte { r with source := other } = { loadByte r with source := other } := by
  simp only [loadByte, h]

/-- FILL's loop does not see the source from `N` on (R100). -/
theorem fillLoop_of_same_source (fuel : Nat) (r : Reader) (other : Memory)
    (h : ∀ a, a < srcLen r → byteAt .src other a = byteAt .src r.source a) :
    fillLoop fuel { r with source := other } = { fillLoop fuel r with source := other } := by
  induction fuel generalizing r with
  | zero => rfl
  | succ fuel ih =>
    simp only [fillLoop]
    have hlen : srcLen { r with source := other } = srcLen r := rfl
    rw [hlen]
    split
    case isTrue hpass => rw [loadByte_of_same_byte (h _ hpass.2), ih (loadByte r) h]
    case isFalse => rfl

/-- A pass of `W.WRITE`'s loop raises ENSURE's error, or merges its chunk into a byte that exists (R131, R133). -/
theorem writeLoop_succ_cases {maxCap remaining : Nat} {w : Writer} (hw : WriterOk maxCap w) (fuel : Nat) (v : Word)
    (h1 : 1 ≤ remaining) :
    (∃ e, ensure maxCap w.cursorByte w = .error e ∧ writeLoop maxCap v (fuel + 1) remaining w = .error e) ∨
    ∃ grown, ensure maxCap w.cursorByte w = .ok grown ∧ grown.cursorByte = w.cursorByte ∧
      grown.cursorByte < cap grown ∧
      writeLoop maxCap v (fuel + 1) remaining w =
        writeLoop maxCap v fuel (remaining - chunkWidth remaining grown) (putChunk v remaining grown) := by
  have res := ensure_result maxCap w.cursorByte w hw
  simp only [writeLoop, if_neg (by omega : ¬remaining = 0)]
  rcases he : ensure maxCap w.cursorByte w with e | grown <;> rw [he] at res
  · exact .inl ⟨e, rfl, rfl⟩
  · cases res with
    | exists_ _ _ _ _ cursor _ _ inside => exact .inr ⟨grown, rfl, cursor, cursor ▸ inside, rfl⟩

/-- What REPLACE leaves at each index: the old bytes, then 0x00 up to the new capacity (42_growth R167). -/
theorem readSto_replaceStorage (new : Nat) (w : Writer) (a : Nat) :
    readSto (replaceStorage new w) a =
      if a < new then (if a < cap w then some (byteAt .sto w.storage a) else some 0x00#8) else none := by
  simp only [readSto, replaceStorage_cap, replaceStorage_storage, memRead_memCut, memRead_sto, unlisted]

/-- `W.COPYTO` reads as before at every byte of `DST` from `dlen` on (R145). -/
theorem execWCopyTo_past_dlen {s t : State} {offset dlen : Word} (hinv : MachineInv s)
    (h : execWCopyTo offset dlen s = .next t) {a : Nat} (ha : dlen.toNat ≤ a) : readDst t a = readDst s a := by
  obtain ⟨_, _, _, _, hdst⟩ := hinv
  rcases execWCopyTo_cases offset dlen s with ⟨_, he⟩ | ⟨_, _, he⟩ | ⟨_, _, _, he⟩ | ⟨_, fits, _, he⟩ <;>
    rw [he] at h <;> cases h
  · rfl
  · have copied := (copyBytes_spec s.writer offset.toNat (byteLength s.writer) s.dst hdst).2 a
    rw [if_neg (by omega)] at copied
    exact copied

/-- Settles O15, one lemma for each index the core generates. -/
theorem noIndexOutsideASpace : Obligations.NoIndexOutsideASpace := by
  refine ⟨fun s => safeStep_of_machineInv, fillLoop_succ_cases, fillLoop_of_same_source,
    fun maxCap fuel remaining v w hw hd hm => writeLoop_succ_cases (writerOk_of_inv hw hd hm) fuel v,
    fun new w other hsame a => ?_, fun s t offset dlen hinv h a => execWCopyTo_past_dlen hinv h⟩
  have hcap : cap { w with storage := other } = cap w := rfl
  rw [readSto_replaceStorage, readSto_replaceStorage, hcap]
  by_cases ha : a < cap w
  · simp only [if_pos ha, hsame a ha]
  · simp only [if_neg ha]

/-! ### FILL -/

/-- Settles O16, by what FILL's loop does. -/
theorem fillLeavesHeadroom : Obligations.FillLeavesHeadroom := by
  intro r hd hinv
  obtain ⟨ok, same, pos, cursor, loaded, _, stops⟩ := fillLoop_spec 4 r ((readerInv_iff r).1 hinv hd)
  have hle := ok.available_le
  exact ⟨ok.inv, pos, same.source, same.rsrclen, same.dead.trans hd, cursor, by omega, loaded, stops (by omega)⟩

/-! ### Narrow reads -/

/-- The response of a reader command's outcome (30_encoding R76, R77). -/
def replyOf : Except Raised (Word × Reader) → Response
  | .ok (value, _) => okResponse value
  | .error e => errorResponse e

theorem runReader_reply {f : Reader → Except Raised (Word × Reader)} {s : State} (hd : s.reader.dead = false) :
    ∃ t, runReader f s = .next t ∧ t.response = some (replyOf (f s.reader)) := by
  rcases hf : f s.reader with e | ⟨v, r⟩
  · exact ⟨_, runReader_error hd hf, rfl⟩
  · exact ⟨_, runReader_ok hd hf, rfl⟩

/-- The response to a read of at most 24 bits, said with the stream, the position and the number of bits left alone
(40_reader R103, R104, R111). -/
inductive NarrowReply (bit : Nat → Bool) (pos left : Nat) (len : Word) : Response → Prop
  | range (h : len.toInt ≤ 0) : NarrowReply bit pos left len (errorResponse (.rangeError len))
  | exhausted (l : Nat) (hl : OperandIs len l) (h1 : 1 ≤ l) (hs : left < l) :
      NarrowReply bit pos left len (errorResponse (.endOfStream len (BitVec.ofNat 32 left)))
  | field (l : Nat) (v : Word) (hl : OperandIs len l) (h1 : 1 ≤ l) (hs : l ≤ left) (hv : IsField bit pos l v) :
      NarrowReply bit pos left len (okResponse v)

/-- Stream, position and bits left determine the response. -/
theorem NarrowReply.unique {bit : Nat → Bool} {pos left : Nat} {len : Word} {x y : Response}
    (hx : NarrowReply bit pos left len x) (hy : NarrowReply bit pos left len y) : x = y := by
  cases hx with
  | range h =>
    cases hy with
    | range => rfl
    | exhausted l hl h1 => simp only [OperandIs] at hl; omega
    | field l v hl h1 => simp only [OperandIs] at hl; omega
  | exhausted l hl h1 hs =>
    cases hy with
    | range h => simp only [OperandIs] at hl; omega
    | exhausted => rfl
    | field l' v hl' _ hs' =>
      have := hl.unique hl'
      omega
  | field l v hl h1 hs hv =>
    cases hy with
    | range h => simp only [OperandIs] at hl; omega
    | exhausted l' hl' _ hs' =>
      have := hl.unique hl'
      omega
    | field l' v' hl' _ _ hv' =>
      rw [← hl.unique hl'] at hv'
      rw [hv.unique hv']

theorem peekField_narrowReply {len : Word} {r : Reader} (h : ReaderOk r) (hn : len.toInt ≤ 24) :
    NarrowReply (streamBit r) (posR r) (streamLeft r) len (replyOf (peekField len r)) := by
  have res := peekField_result len r h
  generalize peekField len r = out at res
  cases res with
  | range h => exact .range (by omega)
  | refused l hl h25 => simp only [OperandIs] at hl; omega
  | exhausted l hl h1 _ _ hs => exact .exhausted l hl h1 hs
  | tooWide l hl _ h25 ha => simp only [OperandIs] at hl; omega
  | field l v _ hl h1 _ _ hs hv => exact .field l v hl h1 hs hv

theorem takeField_narrowReply {len : Word} {r : Reader} (h : ReaderOk r) (hn : len.toInt ≤ 24) :
    NarrowReply (streamBit r) (posR r) (streamLeft r) len (replyOf (takeField len r)) := by
  have res := takeField_result len r h
  generalize takeField len r = out at res
  cases res with
  | range h => exact .range (by omega)
  | refused l hl h25 => simp only [OperandIs] at hl; omega
  | exhausted l hl h1 _ _ hs => exact .exhausted l hl h1 hs
  | field l v _ hl h1 _ _ hs hv => exact .field l v hl h1 hs hv

/-- A command whose reply is determined by stream, position and bits left gives the same response from two readers that
agree on them, however their bits are buffered. -/
theorem runReader_same_response {f : Reader → Except Raised (Word × Reader)} {len : Word}
    (hf : ∀ r, ReaderOk r → NarrowReply (streamBit r) (posR r) (streamLeft r) len (replyOf (f r))) {s1 s2 : State}
    (inv1 : MachineInv s1) (inv2 : MachineInv s2) (live1 : s1.reader.dead = false) (live2 : s2.reader.dead = false)
    (same : SameSource s1.reader s2.reader) (pos : posR s1.reader = posR s2.reader) :
    ∃ t1 t2, runReader f s1 = .next t1 ∧ runReader f s2 = .next t2 ∧ t1.response = t2.response := by
  obtain ⟨t1, h1, r1⟩ := runReader_reply (f := f) live1
  obtain ⟨t2, h2, r2⟩ := runReader_reply (f := f) live2
  refine ⟨t1, t2, h1, h2, ?_⟩
  have left : streamLeft s2.reader = streamLeft s1.reader := by rw [streamLeft, streamLeft, same.srcLen_eq, pos]
  have reply2 := hf _ (inv2.readerOk live2)
  rw [same.streamBit_eq, ← pos, left] at reply2
  rw [r1, r2, (hf _ (inv1.readerOk live1)).unique reply2]

/-- Settles O24, as the reply to a narrow read is determined by stream, position and bits left. -/
theorem narrowReadsSeeOnlyThePosition : Obligations.NarrowReadsSeeOnlyThePosition := by
  intro s1 s2 len inv1 inv2 live1 live2 source rsrclen pos hn
  have same : SameSource s1.reader s2.reader := ⟨source.symm, rsrclen.symm, live2.trans live1.symm⟩
  exact ⟨runReader_same_response (fun _ ok => peekField_narrowReply ok hn) inv1 inv2 live1 live2 same pos,
    runReader_same_response (fun _ ok => takeField_narrowReply ok hn) inv1 inv2 live1 live2 same pos⟩

end Sys2Proof.Machine
end

section
/-! SUPPORT. The whole effect of a completed `W.WRITE`, `W.SKIP` and `W.COPYTO` (41_writer R133, R138, R145), and when
the first two complete. -/

namespace Sys2Proof.Machine

/-! ### Storage that grew -/

/-- A byte inside the old capacity reads as before where growth and the command left it. -/
theorem StorageKept.readSto_eq {w w' : Writer} {a : Nat} (h : StorageKept w w') (ha : a < cap w)
    (same : byteAt .sto w'.storage a = byteAt .sto w.storage a) : readSto w' a = readSto w a := by
  rw [Machine.readSto_eq ha, Machine.readSto_eq (ha.trans_le h.1), same]

/-- A byte that growth added, and that the command left, is 0x00 (42_growth R167). -/
theorem WriterOk.readSto_added {maxCap a : Nat} {w w' : Writer} (h : WriterOk maxCap w) (hlo : cap w ≤ a)
    (hhi : a < cap w') (same : byteAt .sto w'.storage a = byteAt .sto w.storage a) : readSto w' a = some 0x00#8 := by
  rw [readSto_eq hhi, same, byteAt_of_memBelow h.below hlo]

/-- Growth for the last byte before position `p` ends at the first size with that byte (R131, R135). -/
theorem GrownBy.firstSizeFor_position {k p maxCap : Nat} {w w' : Writer} (h : GrownBy k ((p - 1) / 8) w w')
    (ok : WriterOk maxCap w') (pos : posW w' = p) (hp : 1 ≤ p) : FirstSizeFor ((p + 7) / 8) (cap w') w := by
  have hlen := ok.length_le
  rw [byteLength_eq, pos] at hlen
  have first := h.firstSizeFor (by omega : (p - 1) / 8 < cap w')
  rwa [show (p - 1) / 8 + 1 = (p + 7) / 8 by omega] at first

/-! ### `W.WRITE` -/

/-- What the loop of `W.WRITE` has written is the effect of the field (R133). -/
theorem WriteResult.effect {maxCap wd : Nat} {v : Word} {w w' : Writer} (h : WriterOk maxCap w)
    (res : WriteResult maxCap v wd w (.ok w')) : WriteEffect v wd w w' := by
  cases res with
  | written _ ok kept pos bits bytes =>
    refine ⟨kept, pos, fun p _ => ?_, fun a ha out => kept.readSto_eq ha (bytes a out),
      fun a hlo hhi out => h.readSto_added hlo hhi (bytes a (.inr out))⟩
    rw [bits p]
    split
    · rw [show wd - 1 - (p - posW w) = posW w + wd - 1 - p by omega]
    · rfl

theorem WriteResult.inv {maxCap wd : Nat} {v : Word} {w w' : Writer} (res : WriteResult maxCap v wd w (.ok w')) :
    WriterInv maxCap w' := by
  cases res with
  | written _ ok => exact ok.inv

theorem WriteResult.firstSizeFor {maxCap wd : Nat} {v : Word} {w w' : Writer} (h1 : 1 ≤ wd)
    (res : WriteResult maxCap v wd w (.ok w')) : FirstSizeFor ((posW w + wd + 7) / 8) (cap w') w := by
  cases res with
  | written _ ok _ pos _ _ _ _ _ grown =>
    obtain ⟨k, grown⟩ := grown
    exact grown.firstSizeFor_position ok pos (by omega)

/-- `W.WRITE` completes where the strategy can hold the field's last byte (R131, R133). -/
theorem writeField_completes {maxCap wd : Nat} {width : Word} {w : Writer} (value : Word) (h : WriterOk maxCap w)
    (hwd : OperandIs width wd) (h1 : 1 ≤ wd) (h32 : wd ≤ 32) (hold : CanHold maxCap ((posW w + wd + 7) / 8) w) :
    ∃ w', writeField maxCap value width w = .ok (0#32, w') ∧ WriteResult maxCap value wd w (.ok w') := by
  have res := writeLoop_result maxCap value wd wd w h le_rfl
  unfold writeField
  simp only [fieldWidth_ok hwd h1 h32]
  rcases hl : writeLoop maxCap value wd wd w with e | w' <;> rw [hl] at res
  · cases res with
    | overflow _ _ _ _ _ _ _ _ cannot => exact absurd hold (cannot _ (by omega))
  · exact ⟨w', rfl, res⟩

/-- Settles O27, by when the write completes and what its loop has written. -/
theorem writeStoresTheField : Obligations.WriteStoresTheField := by
  intro s value width wd hinv live hwd h1 h32 hold
  have ok := hinv.writerOk live
  obtain ⟨w', hf, res⟩ := writeField_completes value ok hwd h1 h32 hold
  exact ⟨w', runWriter_ok live hf, res.effect ok, res.inv, res.firstSizeFor h1⟩

/-! ### `W.SKIP` -/

/-- The whole effect of a skip on the writer (R138): the position moves, no byte changes, and growth is lazy. -/
structure SkipEffect (maxCap wd : Nat) (w w' : Writer) : Prop where
  kept : StorageKept w w'
  pos : posW w' = posW w + wd
  inv : WriterInv maxCap w'
  firstSize : FirstSizeFor ((posW w + wd + 7) / 8) (cap w') w
  old : ∀ a, a < cap w → readSto w' a = readSto w a
  added : ∀ a, cap w ≤ a → a < cap w' → readSto w' a = some 0x00#8

/-- Where `W.SKIP` completes it has its whole effect, and the value is 0. -/
theorem skipField_ok {maxCap : Nat} {width v : Word} {w w' : Writer} (h : WriterOk maxCap w)
    (hf : skipField maxCap width w = .ok (v, w')) :
    v = 0#32 ∧ ∃ wd, OperandIs width wd ∧ 1 ≤ wd ∧ SkipEffect maxCap wd w w' := by
  have res := skipField_result maxCap width w h
  rw [hf] at res
  cases res with
  | moved wd hwd h1 _ ok kept pos bytes _ _ _ grown =>
    obtain ⟨k, grown⟩ := grown
    rw [show (posW w + wd + 7) / 8 - 1 = (posW w + wd - 1) / 8 by omega] at grown
    exact ⟨rfl, wd, hwd, h1,
      { kept := kept
        pos := pos
        inv := ok.inv
        firstSize := grown.firstSizeFor_position ok pos (by omega)
        old := fun a ha => kept.readSto_eq ha (bytes a)
        added := fun a hlo hhi => h.readSto_added hlo hhi (bytes a) }⟩

/-- `W.SKIP` completes where the strategy can hold the last byte before the new position (R131, R138). -/
theorem skipField_completes {maxCap wd : Nat} {width : Word} {w : Writer} (h : WriterOk maxCap w)
    (hwd : OperandIs width wd) (h1 : 1 ≤ wd) (hold : CanHold maxCap ((posW w + wd + 7) / 8) w) :
    ∃ w', skipField maxCap width w = .ok (0#32, w') := by
  have res := skipField_result maxCap width w h
  rcases hf : skipField maxCap width w with e | ⟨v, w'⟩ <;> rw [hf] at res
  · cases res with
    | range hneg =>
      simp only [OperandIs] at hwd
      omega
    | overflow wd' hwd' _ _ _ _ _ _ cannot =>
      rw [hwd'.unique hwd] at cannot
      exact absurd hold cannot
  · obtain ⟨rfl, _⟩ := skipField_ok h hf
    exact ⟨w', rfl⟩

/-- Settles O28, by when the skip completes and its effect. -/
theorem writerSkipMovesThePosition : Obligations.WriterSkipMovesThePosition := by
  intro s width wd hinv live hwd h1 hold
  have ok := hinv.writerOk live
  obtain ⟨w', hf⟩ := skipField_completes ok hwd h1 hold
  obtain ⟨_, wd', hwd', _, moved⟩ := skipField_ok ok hf
  rw [hwd'.unique hwd] at moved
  exact ⟨w', runWriter_ok live hf, moved.kept, moved.pos, moved.inv, moved.firstSize, moved.old, moved.added⟩

/-! ### Accepted writes and skips -/

/-- A writer command that answers OK has completed on a live writer: every error has a status of its own (60_exceptions
R180). -/
theorem runWriter_accepted {f : Writer → Except Raised (Word × Writer)} {s t : State} {resp : Response}
    (h : runWriter f s = .next t) (hresp : t.response = some resp) (hok : resp.status = 0#8) :
    s.writer.dead = false ∧ ∃ v, f s.writer = .ok (v, t.writer) := by
  rcases runWriter_cases f s with ⟨_, he⟩ | ⟨live, v, w, hf, he⟩ | ⟨_, e, _, he⟩ <;> rw [he] at h <;> cases h
  · exact ⟨live, v, hf⟩
  · cases hresp
    rw [errorResponse_status] at hok
    cases e <;> cases hok

/-- Settles O29, by what a completed write and a completed skip have done. -/
theorem acceptedWritesHaveTheirEffect : Obligations.AcceptedWritesHaveTheirEffect := by
  refine ⟨fun s t value width resp hinv h hresp hok => ?_, fun s t width resp hinv h hresp hok => ?_⟩
  · obtain ⟨live, v, hf⟩ := runWriter_accepted h hresp hok
    have ok := hinv.writerOk live
    obtain ⟨_, wd, hwd, h1, h32, res⟩ := writeField_ok ok hf
    exact ⟨wd, hwd, h1, h32, res.effect ok, res.firstSizeFor h1, (exec_writer_frame rfl (fun _ _ he => by cases he) h).1⟩
  · obtain ⟨live, v, hf⟩ := runWriter_accepted h hresp hok
    obtain ⟨_, wd, hwd, h1, moved⟩ := skipField_ok (hinv.writerOk live) hf
    exact ⟨wd, hwd, h1, moved.kept, moved.pos, moved.old, moved.added, moved.firstSize,
      (exec_writer_frame rfl (fun _ _ he => by cases he) h).1⟩

/-! ### `W.COPYTO` -/

/-- Inside `byteLength` the view is the storage's byte, which exists (10_state R39, R46). -/
theorem view_eq {maxCap i : Nat} {w : Writer} (h : WriterOk maxCap w) (live : w.dead = false) (hi : i < byteLength w) :
    view w i = some (byteAt .sto w.storage i) := by
  rw [view, if_pos ⟨live, hi⟩, readSto_eq (hi.trans_le h.length_le)]

/-- Settles O38, by what the copy loop leaves in `DST`. -/
theorem copyToCopiesTheView : Obligations.CopyToCopiesTheView := by
  intro s offset dlen hinv live fits
  have ok := hinv.writerOk live
  obtain ⟨_, _, _, _, hdst⟩ := hinv
  obtain ⟨_, copied⟩ := copyBytes_spec s.writer offset.toNat (byteLength s.writer) s.dst hdst
  refine ⟨copyBytes s.writer offset.toNat (byteLength s.writer) s.dst, ?_, fun i hi => ?_, fun a ha => ?_⟩
  · have hlen := ok.length_le
    rcases execWCopyTo_cases offset dlen s with ⟨hdead, _⟩ | ⟨_, hover, _⟩ | ⟨_, _, hover, _⟩ | ⟨_, _, _, he⟩
    · simp [live] at hdead
    · omega
    · omega
    · exact he
  · rw [view_eq ok live hi, copied, if_pos (by omega), Nat.add_sub_cancel_left]
    exact ⟨rfl, rfl⟩
  · rw [copied, if_neg (by omega)]
    rfl

end Sys2Proof.Machine
end

section
/-! SUPPORT. When `R.PEEK` and `R.TAKE` complete, and their whole effect then (40_reader R103 to R106). -/

namespace Sys2Proof.Machine

/-- `R.PEEK` completes when it is admitted and the stream has the bits (R103, R105): nothing else can stop it. -/
theorem peekField_completes {len : Word} {l : Nat} {r : Reader} (h : ReaderOk r) (hl : OperandIs len l) (h1 : 1 ≤ l)
    (h32 : l ≤ 32) (admitted : l ≤ 24 ∨ r.available = 0 ∨ r.available = 24 ∨ l ≤ r.available)
    (left : l ≤ streamLeft r) :
    ∃ v r', peekField len r = .ok (v, r') ∧ IsField (streamBit r) (posR r) l v ∧ ReaderOk r' ∧ SameSource r r' ∧
      posR r' = posR r ∧ l ≤ r'.available ∧ (l ≤ r.available → r' = r) ∧
      (r.available < l → FilledThenDropped 0 r') := by
  have res := peekField_result len r h
  generalize peekField len r = out at res ⊢
  cases res with
  | range out_of_range => simp only [OperandIs] at hl; omega
  | refused l' hl' => have := hl'.unique hl; omega
  | exhausted l' hl' => have := hl'.unique hl; omega
  | tooWide l' hl' => have := hl'.unique hl; omega
  | field l' v r' hl' _ _ _ _ hv _ ok same pos _ buffered unread filled =>
    cases hl'.unique hl
    exact ⟨v, r', rfl, hv, ok, same, pos, buffered, unread, filled⟩

/-- Settles O17, by what a completed peek answers. -/
theorem peekReturnsTheNextBits : Obligations.PeekReturnsTheNextBits := by
  intro s len l hinv live hl h1 h32 admitted left
  obtain ⟨v, r, hf, field, ok, same, pos, buffered, unread, filled⟩ :=
    peekField_completes (hinv.readerOk live) hl h1 h32 admitted left
  exact ⟨v, r, runReader_ok live hf, field, pos, ok.inv, same.source, same.rsrclen, same.dead.trans live, buffered,
    unread, filled⟩

/-- What `R.TAKE` can answer where the stream has the bits: the field and `l` bits less, or UnalignedPeek, which only a
wide take that is not admitted meets (R104, R105). -/
theorem takeField_cases {len : Word} {l : Nat} {r : Reader} (h : ReaderOk r) (hl : OperandIs len l) (h1 : 1 ≤ l)
    (h32 : l ≤ 32) (left : l ≤ streamLeft r) :
    (∃ v r', takeField len r = .ok (v, r') ∧ IsField (streamBit r) (posR r) l v ∧ ReaderOk r' ∧ SameSource r r' ∧
      posR r' = posR r + l ∧ (l ≤ r.available → r' = drop l r) ∧
      (r.available < l → FilledThenDropped (if 25 ≤ l ∧ 0 < r.available then l - r.available else l) r')) ∨
    (takeField len r = .error (unaligned r len) ∧ 25 ≤ l ∧ ¬WideAdmitted r.available) := by
  have res := takeField_result len r h
  generalize takeField len r = out at res ⊢
  cases res with
  | range out_of_range => simp only [OperandIs] at hl; omega
  | exhausted l' hl' => have := hl'.unique hl; omega
  | refused l' hl' h25 _ some_buffered few_buffered =>
    cases hl'.unique hl
    exact .inr ⟨rfl, h25, (not_wideAdmitted_iff h.available_le).2 ⟨some_buffered, few_buffered⟩⟩
  | field l' v r' hl' _ _ _ _ hv ok same pos _ inside filled =>
    cases hl'.unique hl
    exact .inl ⟨v, r', rfl, hv, ok, same, pos, fun ha => (inside ha).2, filled⟩

/-- Settles O19, by what a take answers where the stream has the bits. -/
theorem takeReturnsTheNextBits : Obligations.TakeReturnsTheNextBits := by
  intro s len l hinv live hl h1 h32 admitted left
  rcases takeField_cases (hinv.readerOk live) hl h1 h32 left with
    ⟨v, r, hf, field, ok, same, pos, inside, filled⟩ | ⟨_, h25, refused⟩
  · refine ⟨v, r, runReader_ok live hf, field, pos, ok.inv, same.source, same.rsrclen, same.dead.trans live,
      fun ha => ?_, fun ha narrow => ?_, fun h25 some_buffered ha => ?_⟩
    · rw [inside ha]
      exact ⟨rfl, rfl⟩
    · have onePiece := filled ha
      rwa [if_neg (by omega)] at onePiece
    · have twoPieces := filled ha
      rwa [if_pos ⟨h25, some_buffered⟩] at twoPieces
  · rcases admitted with narrow | wide
    · omega
    · exact absurd wide refused

end Sys2Proof.Machine
end

section
/-! SUPPORT. A unit's command sees its own unit alone (20_memory R65), so that the commands of two units commute
(60_exceptions R206). -/

namespace Sys2Proof.Machine

/-- Two states of a unit that are the same as far as the spec says: both dead, or equal (60_exceptions R192). -/
structure SameUnlessDead {α : Type} (dead : α → Bool) (x x' : α) : Prop where
  dead_eq : dead x' = dead x
  eq_of_live : dead x = false → x' = x

theorem SameUnlessDead.of_eq {α : Type} {dead : α → Bool} {x x' : α} (h : x' = x) :
    SameUnlessDead dead x x' :=
  ⟨congrArg dead h, fun _ => h⟩

/-- Of one error two equal readers become the same; a reader that dies of it gets free values, which can differ (log
entry 3). -/
theorem errorEffect_same_reader {s s' : State} (e : Raised) (h : s'.reader = s.reader) :
    SameUnlessDead Reader.dead (errorEffect e s).reader (errorEffect e s').reader := by
  cases e
  case endOfStream => exact ⟨rfl, nofun⟩
  all_goals exact .of_eq h

/-- Of one error two equal writers become the same (log entry 4). -/
theorem errorEffect_same_writer {s s' : State} (e : Raised) (h : s'.writer = s.writer) :
    SameUnlessDead Writer.dead (errorEffect e s).writer (errorEffect e s').writer := by
  cases e
  case bufferOverflow => exact ⟨rfl, nofun⟩
  all_goals exact .of_eq h

/-- What a reader command can see and change is the reader. -/
theorem runReader_sees_reader {f : Reader → Except Raised (Word × Reader)} {s s' t : State}
    (hr : s'.reader = s.reader) (h : runReader f s = .next t) :
    ∃ t', runReader f s' = .next t' ∧ t'.response = t.response ∧ SameUnlessDead Reader.dead t.reader t'.reader := by
  rcases runReader_cases f s with ⟨_, he⟩ | ⟨live, v, r, hf, he⟩ | ⟨live, e, hf, he⟩ <;> rw [he] at h <;> cases h <;>
    rw [← hr] at live hf
  · exact ⟨_, runReader_ok live hf, rfl, .of_eq rfl⟩
  · exact ⟨_, runReader_error live hf, rfl, errorEffect_same_reader e hr⟩

/-- The same of a writer command, and of the `DST` it leaves. -/
theorem runWriter_sees_writer {f : Writer → Except Raised (Word × Writer)} {s s' t : State}
    (hw : s'.writer = s.writer) (hd : s'.dst = s.dst) (h : runWriter f s = .next t) :
    ∃ t', runWriter f s' = .next t' ∧ t'.response = t.response ∧ t'.dst = t.dst ∧
      SameUnlessDead Writer.dead t.writer t'.writer := by
  rcases runWriter_cases f s with ⟨_, he⟩ | ⟨live, v, w, hf, he⟩ | ⟨live, e, hf, he⟩ <;> rw [he] at h <;> cases h <;>
    rw [← hw] at live hf
  · exact ⟨_, runWriter_ok live hf, rfl, hd, .of_eq rfl⟩
  · exact ⟨_, runWriter_error live hf, rfl, by rw [deliver_dst, deliver_dst, hd], errorEffect_same_writer e hw⟩

/-- `W.COPYTO` sees the writer and `DST` alone. -/
theorem execWCopyTo_sees_writer {offset dlen : Word} {s s' t : State} (hw : s'.writer = s.writer) (hd : s'.dst = s.dst)
    (h : execWCopyTo offset dlen s = .next t) :
    ∃ t', execWCopyTo offset dlen s' = .next t' ∧ t'.response = t.response ∧ t'.dst = t.dst ∧
      SameUnlessDead Writer.dead t.writer t'.writer := by
  unfold execWCopyTo at h ⊢
  rw [hw, hd]
  split at h
  case isTrue => cases h
  case isFalse live =>
    rw [if_neg live]
    split at h
    case isTrue short =>
      cases h
      exact ⟨_, if_pos short, rfl, hd, .of_eq hw⟩
    case isFalse fits =>
      rw [if_neg fits]
      split at h
      case isTrue => cases h
      case isFalse stored =>
        cases h
        exact ⟨_, if_neg stored, rfl, rfl, .of_eq rfl⟩

/-- Every reader command sees the reader alone (20_memory R65). -/
theorem exec_sees_reader {i : Instr} {s s' t : State} (hi : unitOf i = .reader) (hr : s'.reader = s.reader)
    (h : exec i s = .next t) : ∃ t', exec i s' = .next t' ∧ t'.response = t.response ∧
      SameUnlessDead Reader.dead t.reader t'.reader := by
  obtain ⟨f, hf⟩ := exec_reader hi
  rw [hf] at h ⊢
  exact runReader_sees_reader hr h

/-- Every writer command sees the writer, `MAX_CAP` and `DST` alone (20_memory R65). -/
theorem exec_sees_writer {j : Instr} {s s' t : State} (hj : unitOf j = .writer) (hw : s'.writer = s.writer)
    (hm : s'.maxCap = s.maxCap) (hd : s'.dst = s.dst) (h : exec j s = .next t) :
    ∃ t', exec j s' = .next t' ∧ t'.response = t.response ∧ t'.dst = t.dst ∧
      SameUnlessDead Writer.dead t.writer t'.writer := by
  rcases exec_writer hj with ⟨o, d, rfl⟩ | ⟨f, hf⟩
  · exact execWCopyTo_sees_writer hw hd h
  · rw [hf] at h ⊢
    rw [hm]
    exact runWriter_sees_writer hw hd h

/-- Settles O46: each command leaves what the other one sees, so each does in the other order what it did. -/
theorem unitsCommute : Obligations.UnitsCommute := by
  intro i j s t u hi hj his hjt
  obtain ⟨tWriter, tDst, tMaxCap, _⟩ := exec_reader_frame hi his
  obtain ⟨uReader, _⟩ := exec_writer_shared_frame hj hjt
  obtain ⟨t', hjs, sameAnswer, sameDst, sameWriter⟩ := exec_sees_writer hj tWriter.symm tMaxCap.symm tDst.symm hjt
  obtain ⟨t'Reader, _⟩ := exec_writer_shared_frame hj hjs
  obtain ⟨u', hit', sameAnswer', sameReader⟩ := exec_sees_reader hi t'Reader his
  obtain ⟨u'Writer, u'Dst, _⟩ := exec_reader_frame hi hit'
  refine ⟨t', u', hjs, hit', sameAnswer, sameAnswer', u'Dst.trans sameDst, ?_, ?_, ?_, ?_⟩
  · rw [uReader]
    exact sameReader.dead_eq
  · rw [u'Writer]
    exact sameWriter.dead_eq
  · rw [uReader]
    exact sameReader.eq_of_live
  · rw [u'Writer]
    exact sameWriter.eq_of_live

end Sys2Proof.Machine
end

section
/-! SUPPORT. The round trip (41_writer R147): what a run of writes leaves in the storage, `W.COPYTO` hands over, and a
run of takes reads. -/

namespace Sys2Proof.Machine

/-! ### Fields side by side in a bit stream -/

/-- The stream holds the values, masked to their widths, side by side from bit `p` up to bit `q` (20_memory R55, R56). -/
inductive FieldsFrom (bit : Nat → Bool) : Nat → List (Word × Word) → Nat → Prop
  | nil (p : Nat) : FieldsFrom bit p [] p
  | cons {p q wd : Nat} {v w : Word} {fields : List (Word × Word)} (hwd : OperandIs w wd) (h1 : 1 ≤ wd) (h32 : wd ≤ 32)
      (field : IsField bit p wd (v &&& mask wd)) (rest : FieldsFrom bit (p + wd) fields q) :
      FieldsFrom bit p ((v, w) :: fields) q

theorem FieldsFrom.le {bit : Nat → Bool} {p q : Nat} {fields : List (Word × Word)} (h : FieldsFrom bit p fields q) :
    p ≤ q := by
  induction h with
  | nil => exact le_rfl
  | cons _ _ _ _ _ ih => omega

/-- A field is its bits. -/
theorem IsField.congr {bit bit' : Nat → Bool} {p l : Nat} {v : Word} (h : IsField bit p l v)
    (same : ∀ k, p ≤ k → k < p + l → bit' k = bit k) : IsField bit' p l v := by
  intro j hj
  rw [h j hj]
  by_cases hjl : j < l
  · rw [same _ (by omega) (by omega)]
  · simp [hjl]

/-- Fields side by side are the bits from `p` to `q`. -/
theorem FieldsFrom.congr {bit bit' : Nat → Bool} {p q : Nat} {fields : List (Word × Word)}
    (h : FieldsFrom bit p fields q) (same : ∀ k, p ≤ k → k < q → bit' k = bit k) : FieldsFrom bit' p fields q := by
  induction h with
  | nil p => exact .nil p
  | cons hwd h1 h32 field rest ih =>
    have := rest.le
    exact .cons hwd h1 h32 (field.congr fun k hk hk' => same k hk (by omega)) (ih fun k hk hk' => same k (by omega) hk')

/-! ### The writes -/

/-- What a completed `W.WRITE` leaves in the stream (R133): its value, masked to the width, behind the bits before. -/
theorem WriteResult.isField {maxCap wd : Nat} {v : Word} {w w' : Writer} (res : WriteResult maxCap v wd w (.ok w')) :
    IsField (storageBit w') (posW w) wd (v &&& mask wd) ∧ ∀ p, p < posW w → storageBit w' p = storageBit w p := by
  cases res with
  | written _ _ _ _ bits =>
    refine ⟨fun j hj => ?_, fun p hp => by rw [bits p, if_neg (by omega)]⟩
    rw [BitVec.getLsbD_and, getLsbD_mask]
    by_cases hjw : j < wd
    · rw [bits, if_pos (by omega), show wd - 1 - (posW w + (wd - 1 - j) - posW w) = j by omega]
      simp [hj, hjw]
    · simp [hjw]

/-- A write that answers OK, taken apart: what `writeField_ok` says of the next state's writer, which is live. -/
theorem exec_wWrite_accepted {s t : State} {v w : Word} (hinv : MachineInv s) (h : exec (.wWrite v w) s = .next t)
    (hok : t.response = some (okResponse 0#32)) :
    t.writer.dead = false ∧ ∃ wd, OperandIs w wd ∧ 1 ≤ wd ∧ wd ≤ 32 ∧ posW t.writer = posW s.writer + wd ∧
      IsField (storageBit t.writer) (posW s.writer) wd (v &&& mask wd) ∧
      ∀ p, p < posW s.writer → storageBit t.writer p = storageBit s.writer p := by
  obtain ⟨live, _, hf⟩ := runWriter_accepted h hok rfl
  have ok := hinv.writerOk live
  obtain ⟨_, wd, hwd, h1, h32, res⟩ := writeField_ok ok hf
  obtain ⟨field, before⟩ := res.isField
  obtain ⟨⟨_, _, _, _, _, _, _, dead⟩, pos, _⟩ := res.effect ok
  exact ⟨dead.trans live, wd, hwd, h1, h32, pos, field, before⟩

/-- A run of writes leaves its fields side by side from the first position to the last, behind the bits before. -/
theorem writeAll_fieldsFrom {fields : List (Word × Word)} {s t : State} (hinv : MachineInv s)
    (live : s.writer.dead = false) (h : writeAll fields s = some t) :
    MachineInv t ∧ t.writer.dead = false ∧
      FieldsFrom (storageBit t.writer) (posW s.writer) fields (posW t.writer) ∧
      ∀ p, p < posW s.writer → storageBit t.writer p = storageBit s.writer p := by
  induction fields generalizing s with
  | nil =>
    cases h
    exact ⟨hinv, live, .nil _, fun _ _ => rfl⟩
  | cons f fields ih =>
    obtain ⟨v, w⟩ := f
    rw [writeAll] at h
    rcases he : exec (.wWrite v w) s with s1 | _ | _ <;> simp only [he, reduceCtorEq] at h
    split at h
    case isFalse => cases h
    case isTrue hok =>
      obtain ⟨live1, wd, hwd, h1, h32, pos, field, before⟩ := exec_wWrite_accepted hinv he hok
      obtain ⟨inv, liveT, rest, kept⟩ := ih (exec_machineInv hinv he) live1 h
      rw [pos] at rest kept
      exact ⟨inv, liveT, .cons hwd h1 h32 (field.congr fun k _ hk => kept k hk) rest,
        fun p hp => (kept p (by omega)).trans (before p hp)⟩

/-! ### The copy -/

/-- A `W.COPYTO` that answers OK has put the writer's bytes into `DST` from `offset` on (41_writer R145). -/
theorem exec_wCopyTo_accepted {s t : State} {offset dlen : Word} (hinv : MachineInv s)
    (h : exec (.wCopyTo offset dlen) s = .next t) (hok : t.response = some (okResponse 0#32)) {a : Nat}
    (ha : a < byteLength s.writer) : readDst t (offset.toNat + a) = some (byteAt .sto s.writer.storage a) := by
  obtain ⟨_, _, _, _, hdst⟩ := hinv
  change execWCopyTo offset dlen s = .next t at h
  rcases execWCopyTo_cases offset dlen s with ⟨_, he⟩ | ⟨_, _, he⟩ | ⟨_, _, _, he⟩ | ⟨_, _, _, he⟩ <;>
    rw [he] at h <;> cases h
  · cases hok
  · have copied := (copyBytes_spec s.writer offset.toNat (byteLength s.writer) s.dst hdst).2 (offset.toNat + a)
    rw [if_pos (by omega), Nat.add_sub_cancel_left] at copied
    exact copied

/-- A reader whose source is the writer's bytes has the writer's stream (R55). -/
theorem streamBit_eq_storageBit {r : Reader} {w : Writer} (hlen : srcLen r = byteLength w)
    (same : ∀ a, a < byteLength w → readSrc r a = some (byteAt .sto w.storage a)) {p : Nat}
    (hp : p < 8 * byteLength w) : streamBit r p = storageBit w p := by
  have byte := same (p / 8) (by omega)
  rw [readSrc, if_pos (by omega), memRead_src] at byte
  rw [streamBit, storageBit, Option.some.inj byte]

/-! ### The takes -/

/-- A run of takes over fields side by side, all inside the source, returns the values masked to their widths, or ends
with UnalignedPeek at a field wider than 24 bits; there is no third way (40_reader R104, R105). -/
theorem takeAll_cases {bit : Nat → Bool} {p q : Nat} {fields : List (Word × Word)} (h : FieldsFrom bit p fields q)
    {r : State} (ok : ReaderOk r.reader) (live : r.reader.dead = false) (stream : streamBit r.reader = bit)
    (pos : posR r.reader = p) (inside : q ≤ 8 * srcLen r.reader) :
    takeAll (fields.map Prod.snd) r = .ok (fields.map fun f => f.1 &&& mask f.2.toNat) ∨
    ∃ e, takeAll (fields.map Prod.snd) r = .error (some e) ∧ e.status = 3#8 ∧ ∃ f ∈ fields, 24 < f.2.toInt := by
  induction h generalizing r with
  | nil => exact .inl rfl
  | @cons p q wd v w fields hwd h1 h32 field rest ih =>
    have hle := rest.le
    have left : wd ≤ streamLeft r.reader := by
      have := streamLeft_pos ok
      omega
    rcases takeField_cases ok hwd h1 h32 left with ⟨v', r', hf, field', ok', same, pos', _⟩ | ⟨hf, h25, _⟩
    · have he : exec (.rTake w) r = .next (answer (okResponse v') { r with reader := r' }) := runReader_ok live hf
      have hv : v' = v &&& mask w.toNat := by
        rw [stream, pos] at field'
        rw [(toInt_eq_toNat hwd).1]
        exact field'.unique field
      have rest := ih (r := answer (okResponse v') { r with reader := r' }) ok' (same.dead.trans live)
        (same.streamBit_eq.trans stream) (by rw [← pos]; exact pos') (inside.trans_eq (by rw [← same.srcLen_eq]; rfl))
      simp only [List.map_cons, takeAll, he, answer_response, okResponse_status, if_true, okResponse_value]
      rcases rest with hrest | ⟨e, hrest, status, f, hf, wide⟩ <;> rw [hrest]
      · exact .inl (by rw [hv])
      · exact .inr ⟨e, rfl, status, f, List.mem_cons_of_mem _ hf, wide⟩
    · have he : exec (.rTake w) r = .next (deliver (unaligned r.reader w) r) := runReader_error live hf
      have wide : 24 < w.toInt := by
        simp only [OperandIs] at hwd
        omega
      refine .inr ⟨errorResponse (unaligned r.reader w), ?_, rfl, (v, w), List.mem_cons_self .., wide⟩
      simp only [List.map_cons, takeAll, he, deliver_response]
      exact if_neg (by simp [unaligned, statusCode])

/-- Settles O48: the writes leave the fields side by side in the writer's stream, which after the copy is the
reader's. -/
theorem roundTrip : Obligations.RoundTrip := by
  intro fields s t u r offset dlen hinv live start written copied hok inv' live' start' hlen source
  obtain ⟨invT, _, stored, _⟩ := writeAll_fieldsFrom hinv live written
  rw [start] at stored
  have hbytes := byteLength_eq t.writer
  have fieldsRead : FieldsFrom (streamBit r.reader) 0 fields (posW t.writer) :=
    stored.congr fun k _ hk => streamBit_eq_storageBit hlen
      (fun a ha => (source a ha).trans (exec_wCopyTo_accepted invT copied hok ha)) (by omega)
  rcases takeAll_cases fieldsRead (inv'.readerOk live') live' rfl start' (by omega) with
    taken | ⟨e, failed, status, f, hf, wide⟩
  · rw [taken]
    exact ⟨fun values hv => (Except.ok.inj hv).symm, nofun, fun _ => ⟨_, rfl⟩⟩
  · rw [failed]
    refine ⟨nofun, fun resp hr => ⟨e, (Except.error.inj hr).symm, status⟩, fun narrow => ?_⟩
    have := narrow f hf
    omega

end Sys2Proof.Machine
end

section
/-! SUPPORT. The encoding (30_encoding R71 to R79): a command taken apart into its row and its two operand fields, what
the encoder emits and the decoder reads by them, and the answer to an illegal opcode (60_exceptions R189). -/

namespace Sys2Proof.Machine

/-! ### The operand fields of a command (30_encoding R73) -/

/-- What the assembler emits in the field `A`: the command's operand, 0 where its row does not use `A`. -/
def operandA : Instr → Word
  | .rPeek len => len
  | .rTake len => len
  | .rSkip len => len
  | .wWrite value _ => value
  | .wSkip width => width
  | .wCopyTo offset _ => offset
  | .rIsAligned | .rByteAlign | .wIsAligned | .wByteAlign | .wByteLength => 0#32

/-- What the assembler emits in the field `B`: the command's operand, 0 where its row does not use `B`. -/
def operandB : Instr → Word
  | .wWrite _ width => width
  | .wCopyTo _ dlen => dlen
  | .rPeek _ | .rTake _ | .rSkip _ | .rIsAligned | .rByteAlign | .wSkip _ | .wIsAligned | .wByteAlign
  | .wByteLength => 0#32

/-- The command of the same row whose operands are the fields `a` and `b`, as far as the row uses them. -/
def withFields (i : Instr) (a b : Word) : Instr :=
  match i with
  | .rPeek _ => .rPeek a
  | .rTake _ => .rTake a
  | .rSkip _ => .rSkip a
  | .rIsAligned => .rIsAligned
  | .rByteAlign => .rByteAlign
  | .wWrite _ _ => .wWrite a b
  | .wSkip _ => .wSkip a
  | .wIsAligned => .wIsAligned
  | .wByteAlign => .wByteAlign
  | .wByteLength => .wByteLength
  | .wCopyTo _ _ => .wCopyTo a b

/-- The encoder, for all commands at once (R71, R75). -/
theorem encode_eq (i : Instr) : encode i = commandWord (opcodeOf i) (operandA i) (operandB i) := by
  cases i <;> rfl

@[simp] theorem opField_encode (i : Instr) : opField (encode i) = opcodeOf i := by
  rw [encode_eq, opField_commandWord]

@[simp] theorem aField_encode (i : Instr) : aField (encode i) = operandA i := by
  rw [encode_eq, aField_commandWord]

@[simp] theorem bField_encode (i : Instr) : bField (encode i) = operandB i := by
  rw [encode_eq, bField_commandWord]

/-- A command is its row and its operands. -/
theorem withFields_operands (i : Instr) : withFields i (operandA i) (operandB i) = i := by
  cases i <;> rfl

@[simp] theorem opcodeOf_withFields (i : Instr) (a b : Word) : opcodeOf (withFields i a b) = opcodeOf i := by
  cases i <;> rfl

@[simp] theorem withFields_withFields (i : Instr) (a b a' b' : Word) :
    withFields (withFields i a b) a' b' = withFields i a' b' := by
  cases i <;> rfl

theorem operandA_withFields (i : Instr) (a b : Word) :
    operandA (withFields i a b) = if usesA i then a else 0#32 := by
  cases i <;> rfl

theorem operandB_withFields (i : Instr) (a b : Word) :
    operandB (withFields i a b) = if usesB i then b else 0#32 := by
  cases i <;> rfl

theorem operandA_of_unused {i : Instr} (h : usesA i = false) : operandA i = 0#32 := by
  rw [← withFields_operands i, operandA_withFields, h]
  rfl

theorem operandB_of_unused {i : Instr} (h : usesB i = false) : operandB i = 0#32 := by
  rw [← withFields_operands i, operandB_withFields, h]
  rfl

theorem withFields_of_not_usesA {i : Instr} (h : usesA i = false) (a a' b : Word) :
    withFields i a b = withFields i a' b := by
  cases i
  case rIsAligned | rByteAlign | wIsAligned | wByteAlign | wByteLength => rfl
  all_goals cases h

theorem withFields_of_not_usesB {i : Instr} (h : usesB i = false) (a b b' : Word) :
    withFields i a b = withFields i a b' := by
  cases i
  case wWrite | wCopyTo => cases h
  all_goals rfl

/-! ### The opcode map (30_encoding R78, R79) -/

theorem opcodeOf_mem_opcodeMap (i : Instr) : opcodeOf i ∈ opcodeMap := by
  cases i <;> simp [opcodeOf, opcodeMap]

/-- Every opcode of the map has its row. -/
theorem exists_opcodeOf_of_mem {op : BitVec 8} (h : op ∈ opcodeMap) : ∃ i, opcodeOf i = op := by
  simp only [opcodeMap, List.mem_cons, List.not_mem_nil, or_false] at h
  rcases h with rfl | rfl | rfl | rfl | rfl | rfl | rfl | rfl | rfl | rfl | rfl
  exacts [⟨.rPeek 0#32, rfl⟩, ⟨.rTake 0#32, rfl⟩, ⟨.rSkip 0#32, rfl⟩, ⟨.rIsAligned, rfl⟩, ⟨.rByteAlign, rfl⟩,
    ⟨.wWrite 0#32 0#32, rfl⟩, ⟨.wSkip 0#32, rfl⟩, ⟨.wIsAligned, rfl⟩, ⟨.wByteAlign, rfl⟩, ⟨.wByteLength, rfl⟩,
    ⟨.wCopyTo 0#32 0#32, rfl⟩]

/-- The opcodes outside the map, as R79 lists them. -/
theorem not_mem_opcodeMap_iff (op : BitVec 8) : op ∉ opcodeMap ↔
    (op.toNat = 0x00 ∨ (0x06 ≤ op.toNat ∧ op.toNat ≤ 0x0F) ∨ (0x16 ≤ op.toNat ∧ op.toNat ≤ 0x1F) ∨
      0x20 ≤ op.toNat) := by
  simp only [opcodeMap, List.mem_cons, List.not_mem_nil, or_false, ← BitVec.toNat_inj, BitVec.toNat_ofNat]
  omega

/-- A row whose opcode is neither `W.WRITE`'s nor `W.COPYTO`'s does not use `B`. -/
theorem usesB_eq_false {i : Instr} (h : opcodeOf i ≠ 0x10#8) (h' : opcodeOf i ≠ 0x15#8) : usesB i = false := by
  cases i
  case wWrite => exact absurd rfl h
  case wCopyTo => exact absurd rfl h'
  all_goals rfl

/-- A row whose opcode is not one of the six with a first operand does not use `A`. -/
theorem usesA_eq_false {i : Instr} (h : opcodeOf i ∉ [0x01#8, 0x02#8, 0x03#8, 0x10#8, 0x11#8, 0x15#8]) :
    usesA i = false := by
  cases i
  case rIsAligned | rByteAlign | wIsAligned | wByteAlign | wByteLength => rfl
  all_goals exact absurd (by simp [opcodeOf]) h

/-! ### The decoder (30_encoding R80) -/

/-- A word with the opcode of a row decodes to that row's command over the word's fields. -/
theorem decode_of_opcode {w : CommandWord} {i : Instr} (h : opField w = opcodeOf i) :
    decode w = .ok (withFields i (aField w) (bField w)) := by
  cases i <;> simp only [decode, h, opcodeOf, withFields]

/-- A word whose opcode is outside the map is refused by it. -/
theorem decode_of_not_mem {w : CommandWord} (h : opField w ∉ opcodeMap) :
    decode w = .error (.illegalOpcode (opField w)) := by
  unfold decode
  split
  case h_12 => rfl
  all_goals exact absurd (by simp [opcodeMap, *]) h

/-- The words that decode to a command: its row's opcode, and its operands in the fields the row uses. -/
theorem decode_eq_ok_iff (w : CommandWord) (i : Instr) :
    decode w = .ok i ↔ opField w = opcodeOf i ∧ withFields i (aField w) (bField w) = i := by
  constructor
  · intro h
    by_cases hop : opField w ∈ opcodeMap
    · obtain ⟨j, hj⟩ := exists_opcodeOf_of_mem hop
      rw [decode_of_opcode hj.symm] at h
      cases h
      exact ⟨by rw [opcodeOf_withFields, hj], withFields_withFields _ _ _ _ _⟩
    · rw [decode_of_not_mem hop] at h
      cases h
  · rintro ⟨hop, hi⟩
    rw [decode_of_opcode hop, hi]

/-- The words that are refused (R79). -/
theorem decode_eq_error_iff (w : CommandWord) (op : BitVec 8) :
    decode w = .error (.illegalOpcode op) ↔ op = opField w ∧ op ∉ opcodeMap := by
  by_cases hop : opField w ∈ opcodeMap
  · obtain ⟨i, hi⟩ := exists_opcodeOf_of_mem hop
    rw [decode_of_opcode hi.symm]
    refine ⟨nofun, ?_⟩
    rintro ⟨rfl, hnot⟩
    exact absurd hop hnot
  · rw [decode_of_not_mem hop]
    constructor
    · rintro ⟨⟩
      exact ⟨rfl, hop⟩
    · rintro ⟨rfl, _⟩
      rfl

/-- Two words of one opcode decode alike when its row makes the same command of their fields. -/
theorem decode_commandWord_congr {op : BitVec 8} {a a' b b' : Word}
    (h : ∀ i, opcodeOf i = op → withFields i a b = withFields i a' b') :
    decode (commandWord op a b) = decode (commandWord op a' b') := by
  by_cases hop : op ∈ opcodeMap
  · obtain ⟨i, hi⟩ := exists_opcodeOf_of_mem hop
    rw [decode_of_opcode (i := i) (by simp [hi]), decode_of_opcode (i := i) (by simp [hi])]
    simp [h i hi]
  · rw [decode_of_not_mem (by simpa using hop), decode_of_not_mem (by simpa using hop)]
    simp

/-- Settles O1: the encoded word carries the row's opcode and both operands. -/
theorem decodeInvertsEncode : Obligations.DecodeInvertsEncode := by
  intro i _
  rw [decode_of_opcode (opField_encode i), aField_encode, bField_encode, withFields_operands]

/-- Settles O2, by the words that decode to a command. -/
theorem decodeReadsTheFieldsOfItsRow : Obligations.DecodeReadsTheFieldsOfItsRow := by
  intro w i h
  obtain ⟨hop, hi⟩ := (decode_eq_ok_iff w i).1 h
  have hA := operandA_withFields i (aField w) (bField w)
  have hB := operandB_withFields i (aField w) (bField w)
  rw [hi] at hA hB
  exact ⟨hop, by rw [encode_eq, hop, hA, hB]⟩

/-- Settles O3, by the words that are refused and the list of R79. -/
theorem illegalOpcodesAreThoseOutsideTheMap : Obligations.IllegalOpcodesAreThoseOutsideTheMap :=
  ⟨decode_eq_error_iff, not_mem_opcodeMap_iff⟩

/-- Settles O4: the rows' commands do not see their unused fields. -/
theorem unusedFieldsAreIgnored : Obligations.UnusedFieldsAreIgnored := by
  refine ⟨fun op a b b' hwrite hcopy => decode_commandWord_congr ?_,
    fun op a a' b hnot => decode_commandWord_congr ?_, fun i => ⟨fun h => ?_, fun h => ?_⟩,
    fun w w' i i' hop hi hi' => ?_⟩
  · rintro i rfl
    exact withFields_of_not_usesB (usesB_eq_false hwrite hcopy) a b b'
  · rintro i rfl
    exact withFields_of_not_usesA (usesA_eq_false hnot) a a' b
  · rw [aField_encode, operandA_of_unused h]
  · rw [bField_encode, operandB_of_unused h]
  · rw [← ((decode_eq_ok_iff w i).1 hi).1, hop, ((decode_eq_ok_iff w' i').1 hi').1]

/-- Settles O7: each word is evaluated. -/
theorem listedWordsDecode : Obligations.ListedWordsDecode := by
  unfold Obligations.ListedWordsDecode
  decide

/-- Settles O8, field by field of the concatenation (30_encoding R76). -/
theorem responseWordHasItsFields : Obligations.ResponseWordHasItsFields := by
  intro r
  unfold responseWord
  refine ⟨?_, ?_, ?_, BitVec.extractLsb'_append_eq_right⟩
  · rw [BitVec.extractLsb'_append_eq_of_le (by decide), BitVec.extractLsb'_append_eq_of_le (by decide)]
    exact BitVec.extractLsb'_append_eq_left
  · rw [BitVec.extractLsb'_append_eq_of_le (by decide), BitVec.extractLsb'_append_eq_of_le (by decide)]
    exact BitVec.extractLsb'_append_eq_right
  · rw [BitVec.extractLsb'_append_eq_of_le (by decide)]
    exact BitVec.extractLsb'_append_eq_right

/-! ### Illegal opcodes (30_encoding R72, R79) -/

/-- The unit an opcode selects, by the opcode's value (R72). -/
theorem selectedUnit_eq : ∀ op : BitVec 8, selectedUnit op =
    if op.toNat ≤ 0x0F then some .reader else if op.toNat ≤ 0x1F then some .writer else none := by
  decide

/-- A word whose opcode is outside the map is given to the unit it selects, as an illegal command (R79). -/
theorem step_of_illegal {s : State} {w : CommandWord} {rest : List HostEvent} (h : s.host = .command w :: rest)
    (hop : opField w ∉ opcodeMap) : step s = runIllegal (opField w) s := by
  simp only [step, h, decode_of_not_mem hop]

/-- The answer to an illegal command: only the response is given and the event taken (60_exceptions R189). -/
theorem deliver_illegalCommand {s : State} {e : HostEvent} {rest : List HostEvent} (h : s.host = e :: rest)
    (op : BitVec 8) :
    deliver (.illegalCommand (zext32 op)) s = { s with
      response := some { status := 6#8, value := 0#32, infoA := op.setWidth 32, infoB := 0#32 }
      host := rest } := by
  simp only [deliver, answer, errorEffect_illegalCommand, h, List.tail_cons]
  rfl

/-- Settles O6, by the unit each range of opcodes selects. -/
theorem illegalCommandAtDeadUnits : Obligations.IllegalCommandAtDeadUnits := by
  intro s w rest h
  have hunit := selectedUnit_eq (opField w)
  have hmap := not_mem_opcodeMap_iff (opField w)
  refine ⟨fun hop hr => ?_, fun hop hw => ?_, fun hop hr hw => ?_, fun hop live => ?_⟩
  · rw [if_pos (by omega)] at hunit
    rw [step_of_illegal h (hmap.2 (by omega))]
    simp only [runIllegal, hunit, hr, if_true]
  · rw [if_neg (by omega), if_pos (by omega)] at hunit
    rw [step_of_illegal h (hmap.2 (by omega))]
    simp only [runIllegal, hunit, hw, if_true]
  · rw [if_neg (by omega), if_neg (by omega)] at hunit
    rw [step_of_illegal h (hmap.2 (by omega))]
    simp only [runIllegal, hunit, hr, hw, Bool.and_self, if_true]
  · rw [if_neg (by omega), if_neg (by omega)] at hunit
    rw [step_of_illegal h (hmap.2 (by omega)), ← deliver_illegalCommand h]
    have alive : (s.reader.dead && s.writer.dead) = false := Bool.and_eq_false_iff.2 live
    simp only [runIllegal, hunit, alive, Bool.false_eq_true, if_false]

end Sys2Proof.Machine
end

section
/-! SUPPORT. The shape of every response (30_encoding R76, R77): what a completed command answers, from every state. -/

namespace Sys2Proof.Machine

/-- The greatest result a command can answer (30_encoding R77): 0 for a command without one, 1 for an alignment query, 7
for an alignment, any word for a read and for `W.BYTELENGTH`. -/
def resultBound : Instr → Nat
  | .rSkip _ | .wWrite _ _ | .wSkip _ | .wCopyTo _ _ => 0
  | .rIsAligned | .wIsAligned => 1
  | .rByteAlign | .wByteAlign => 7
  | .rPeek _ | .rTake _ | .wByteLength => 2 ^ 32 - 1

/-- The two forms of a response, the result at most `bound` (30_encoding R76, 60_exceptions R181). -/
inductive WellShaped (bound : Nat) : Response → Prop
  | ok {v : Word} (le : v.toNat ≤ bound) : WellShaped bound (okResponse v)
  | error (e : Raised) : WellShaped bound (errorResponse e)

/-- No error has the status of success (60_exceptions R180). -/
theorem statusCode_ne_zero (e : Raised) : statusCode e ≠ 0#8 := by
  cases e <;> simp [statusCode]

theorem runReader_wellShaped {f : Reader → Except Raised (Word × Reader)} {s t : State} {resp : Response} {bound : Nat}
    (hf : ∀ v r, f s.reader = .ok (v, r) → v.toNat ≤ bound) (h : runReader f s = .next t)
    (hresp : t.response = some resp) : WellShaped bound resp := by
  rcases runReader_cases f s with ⟨_, hr⟩ | ⟨_, v, r, hok, hr⟩ | ⟨_, e, _, hr⟩ <;> rw [hr] at h <;> cases h <;>
    cases hresp
  · exact .ok (hf v r hok)
  · exact .error e

theorem runWriter_wellShaped {f : Writer → Except Raised (Word × Writer)} {s t : State} {resp : Response} {bound : Nat}
    (hf : ∀ v w, f s.writer = .ok (v, w) → v.toNat ≤ bound) (h : runWriter f s = .next t)
    (hresp : t.response = some resp) : WellShaped bound resp := by
  rcases runWriter_cases f s with ⟨_, hr⟩ | ⟨_, v, w, hok, hr⟩ | ⟨_, e, _, hr⟩ <;> rw [hr] at h <;> cases h <;>
    cases hresp
  · exact .ok (hf v w hok)
  · exact .error e

theorem execWCopyTo_wellShaped {offset dlen : Word} {s t : State} {resp : Response}
    (h : execWCopyTo offset dlen s = .next t) (hresp : t.response = some resp) : WellShaped 0 resp := by
  rcases execWCopyTo_cases offset dlen s with ⟨_, hr⟩ | ⟨_, _, hr⟩ | ⟨_, _, _, hr⟩ | ⟨_, _, _, hr⟩ <;>
    rw [hr] at h <;> cases h <;> cases hresp
  · exact .error _
  · exact .ok le_rfl

/-! ### The results (30_encoding R77) -/

theorem toNat_boolResult_le (b : Bool) : (boolResult b).toNat ≤ 1 := by
  cases b <;> decide

/-- `R.SKIP` has no result. -/
theorem skipBits_value {len v : Word} {r r' : Reader} (h : skipBits len r = .ok (v, r')) : v = 0#32 := by
  simp only [skipBits] at h
  split at h
  · cases h
  · split at h <;> cases h
    rfl

/-- `W.WRITE` has no result. -/
theorem writeField_value {maxCap : Nat} {value width v : Word} {w w' : Writer}
    (h : writeField maxCap value width w = .ok (v, w')) : v = 0#32 := by
  simp only [writeField] at h
  split at h
  · cases h
  · split at h <;> cases h
    rfl

/-- `W.SKIP` has no result. -/
theorem skipField_value {maxCap : Nat} {width v : Word} {w w' : Writer}
    (h : skipField maxCap width w = .ok (v, w')) : v = 0#32 := by
  simp only [skipField] at h
  split at h
  · cases h
  · split at h <;> cases h
    rfl

/-- The bits to the next byte boundary are fewer than 8 (40_reader R113, 41_writer R141). -/
theorem toNat_ofNat_mod_eight_le (n : Nat) : (BitVec.ofNat 32 (n % 8)).toNat ≤ 7 := by
  rw [BitVec.toNat_ofNat]
  omega

theorem alignReader_value_le {v : Word} {r r' : Reader} (h : alignReader r = .ok (v, r')) : v.toNat ≤ 7 := by
  cases h
  exact toNat_ofNat_mod_eight_le _

theorem alignWriter_value_le {v : Word} {w w' : Writer} (h : alignWriter w = .ok (v, w')) : v.toNat ≤ 7 := by
  cases h
  exact toNat_ofNat_mod_eight_le _

/-- Every completed command answers an error, or a result within its bound. -/
theorem exec_wellShaped {i : Instr} {s t : State} {resp : Response} (h : exec i s = .next t)
    (hresp : t.response = some resp) : WellShaped (resultBound i) resp := by
  cases i
  case rPeek len => exact runReader_wellShaped (f := peekField len) (fun v _ _ => Nat.le_pred_of_lt v.isLt) h hresp
  case rTake len => exact runReader_wellShaped (f := takeField len) (fun v _ _ => Nat.le_pred_of_lt v.isLt) h hresp
  case rSkip len =>
    exact runReader_wellShaped (f := skipBits len) (fun _ _ hf => by simp [skipBits_value hf]) h hresp
  case rIsAligned =>
    refine runReader_wellShaped (f := fun r => .ok (boolResult (readerAligned r), r)) ?_ h hresp
    rintro _ _ ⟨⟩
    exact toNat_boolResult_le _
  case rByteAlign => exact runReader_wellShaped (f := alignReader) (fun _ _ => alignReader_value_le) h hresp
  case wWrite value width =>
    exact runWriter_wellShaped (f := writeField s.maxCap.toNat value width)
      (fun _ _ hf => by simp [writeField_value hf]) h hresp
  case wSkip width =>
    exact runWriter_wellShaped (f := skipField s.maxCap.toNat width)
      (fun _ _ hf => by simp [skipField_value hf]) h hresp
  case wIsAligned =>
    refine runWriter_wellShaped (f := fun w => .ok (boolResult (writerAligned w), w)) ?_ h hresp
    rintro _ _ ⟨⟩
    exact toNat_boolResult_le _
  case wByteAlign => exact runWriter_wellShaped (f := alignWriter) (fun _ _ => alignWriter_value_le) h hresp
  case wByteLength =>
    exact runWriter_wellShaped (f := fun w => .ok (BitVec.ofNat 32 (byteLength w), w))
      (fun v _ _ => Nat.le_pred_of_lt v.isLt) h hresp
  case wCopyTo offset dlen => exact execWCopyTo_wellShaped h hresp

/-- Settles O42: an error has no value and its own status, a success no detail and a result within its command's
bound. -/
theorem responsesAreWellShaped : Obligations.ResponsesAreWellShaped := by
  intro i s t resp h hresp
  cases exec_wellShaped h hresp with
  | error e => exact ⟨fun _ => rfl, fun hz => absurd hz (statusCode_ne_zero e)⟩
  | ok le =>
    refine ⟨fun hne => absurd rfl hne, fun _ => ⟨rfl, rfl, fun x y hi => ?_, fun hi => ?_, fun hi => ?_⟩⟩
    · rcases hi with rfl | rfl | rfl | rfl <;> exact BitVec.eq_of_toNat_eq (Nat.le_zero.1 le)
    · rcases hi with rfl | rfl <;> exact le
    · rcases hi with rfl | rfl <;> exact le

end Sys2Proof.Machine
end

section
/-! SUPPORT. What the reader's commands refuse, where the stream ends, and what moves its position alone (40_reader R105,
R107, R108, R110, R112, R113; 60_exceptions R183). -/

namespace Sys2Proof.Machine

/-! ### Wide reads that are refused (40_reader R105, R107) -/

/-- With 1 to 23 bits buffered a wide read raises UnalignedPeek before it reads a source byte (R105, R114). -/
theorem wideRead_of_not_wideAdmitted {len : Word} {l : Nat} {r : Reader} (h : ReaderOk r) (hl : OperandIs len l)
    (h25 : 25 ≤ l) (h32 : l ≤ 32) (refused : ¬WideAdmitted r.available) :
    peekField len r = .error (unaligned r len) ∧ takeField len r = .error (unaligned r len) := by
  have width : fieldWidth len = .ok l := fieldWidth_ok hl (by omega) h32
  have wide : wideRefused l r = true := (wideRefused_iff l r).2 ⟨h25, (not_wideAdmitted_iff h.available_le).1 refused⟩
  exact ⟨by simp only [peekField, width, wide, if_true], by simp only [takeField, width, wide, if_true]⟩

/-- An admitted take has another answer than UnalignedPeek: a range error, the end of the stream or its field (R104). -/
theorem takeField_status_of_wideAdmitted {r : Reader} (len : Word) (h : ReaderOk r)
    (admitted : WideAdmitted r.available) : (replyOf (takeField len r)).status ≠ 3#8 := by
  have res := takeField_result len r h
  generalize takeField len r = out at res ⊢
  cases res with
  | range => simp [replyOf, statusCode]
  | refused _ _ _ _ some_buffered few_buffered =>
    exact absurd admitted ((not_wideAdmitted_iff h.available_le).2 ⟨some_buffered, few_buffered⟩)
  | exhausted => simp [replyOf, statusCode]
  | field => simp [replyOf]

/-- Settles O21, by the admission test of each read. -/
theorem wideReadAdmission : Obligations.WideReadAdmission := by
  refine ⟨fun a => not_wideAdmitted_iff, fun s len l hinv live hl h25 h32 => ?_⟩
  have ok := hinv.readerOk live
  refine ⟨fun refused => ?_, fun admitted => ?_⟩
  · obtain ⟨peek, take⟩ := wideRead_of_not_wideAdmitted ok hl h25 h32 refused
    exact ⟨runReader_error live peek, runReader_error live take⟩
  · obtain ⟨t, ht, reply⟩ := runReader_reply (f := takeField len) live
    exact ⟨t, _, ht, reply, takeField_status_of_wideAdmitted len ok admitted⟩

/-- The stream has left the bits buffered and the source bytes not yet loaded (10_state R24). -/
theorem streamLeft_eq {r : Reader} (h : ReaderOk r) :
    streamLeft r = r.available + 8 * (srcLen r - r.cursorByte) := by
  have hc := h.cursor_le
  have hp := h.position
  simp only [streamLeft, posR]
  omega

/-- A peek past 25 or more buffered bits: FILL can load nothing, so it is UnalignedPeek while the stream has the bits and
EndOfStream when it has not (R107). -/
theorem peekField_beyond_buffer {len : Word} {l : Nat} {r : Reader} (h : ReaderOk r) (hl : OperandIs len l)
    (h32 : l ≤ 32) (h25 : 25 ≤ r.available) (ha : r.available < l) :
    (l ≤ streamLeft r → peekField len r = .error (unaligned r len)) ∧
    (streamLeft r < l → peekField len r = .error (.endOfStream len (BitVec.ofNat 32 (streamLeft r)))) := by
  have res := peekField_result len r h
  generalize peekField len r = out at res ⊢
  cases res with
  | range out_of_range => simp only [OperandIs] at hl; omega
  | refused l' hl' => omega
  | exhausted l' hl' _ _ _ short => exact ⟨fun enough => by have := hl'.unique hl; omega, fun _ => rfl⟩
  | tooWide l' hl' _ _ _ enough => exact ⟨fun _ => rfl, fun short => by have := hl'.unique hl; omega⟩
  | field l' _ _ hl' => have := hl'.unique hl; omega

/-- Settles O18: with a byte left the stream has more than 32 bits, with none it has the buffered bits alone. -/
theorem peekBeyondTheBufferIsRefused : Obligations.PeekBeyondTheBufferIsRefused := by
  intro s len l hinv live hl h32 h25 ha
  have ok := hinv.readerOk live
  have left := streamLeft_eq ok
  obtain ⟨unalignedPeek, endOfStream⟩ := peekField_beyond_buffer ok hl h32 h25 ha
  exact ⟨fun byte_left => runReader_error live (unalignedPeek (by omega)),
    fun none_left => ⟨_, runReader_error live (endOfStream (by omega)), rfl, rfl⟩⟩

/-! ### A take after a peek (40_reader R108) -/

/-- A peek's answer OK is a completed peek. -/
theorem runReader_ok_inv {f : Reader → Except Raised (Word × Reader)} {s t : State} {v : Word}
    (h : runReader f s = .next t) (hresp : t.response = some (okResponse v)) :
    s.reader.dead = false ∧ ∃ r, f s.reader = .ok (v, r) ∧ t.reader = r := by
  rcases runReader_cases f s with ⟨_, hr⟩ | ⟨live, v', r, hf, hr⟩ | ⟨_, e, _, hr⟩ <;> rw [hr] at h <;> cases h
  · cases hresp
    exact ⟨live, r, hf, rfl⟩
  · simp only [deliver_response, Option.some.injEq] at hresp
    exact absurd (congrArg Response.status hresp) (statusCode_ne_zero e)

/-- A completed peek leaves its bits buffered, so the take finds them all: its field is the same, as stream, position and
length are (R108). -/
theorem takeField_of_peekField {len v : Word} {l : Nat} {r r' : Reader} (h : ReaderOk r) (hl : OperandIs len l)
    (hf : peekField len r = .ok (v, r')) :
    r'.dead = r.dead ∧ ∃ r'', takeField len r' = .ok (v, r'') ∧ posR r'' = posR r + l := by
  have res := peekField_result len r h
  rw [hf] at res
  cases res with
  | field l' _ _ hl' h1 h32 _ _ peeked _ ok same pos _ buffered =>
    cases hl'.unique hl
    refine ⟨same.dead, ?_⟩
    rcases takeField_cases ok hl h1 h32 (buffered.trans (available_le_streamLeft ok)) with
      ⟨v', r'', ht, taken, _, _, pos', _⟩ | ⟨_, h25, refused⟩
    · rw [same.streamBit_eq, pos] at taken
      rw [peeked.unique taken]
      exact ⟨r'', ht, by rw [pos', pos]⟩
    · have := (not_wideAdmitted_iff ok.available_le).1 refused
      omega

/-- The bytes 01 23 45 67 80 at position 4, 28 bits buffered and the last byte not loaded. -/
def lastByteUnloaded : State :=
  { State.reset with
    reader :=
      { freshReader 5#32 [(0, 0x01#8), (1, 0x23#8), (2, 0x45#8), (3, 0x67#8), (4, 0x80#8)] with
        cursorByte := 4, available := 28, register := 0x12345670#32 } }

theorem lastByteUnloaded_inv : MachineInv lastByteUnloaded := by
  unfold MachineInv ReaderInv WriterInv MemoryInv
  decide

/-- Settles O20: the take finds the peeked bits buffered; and with 28 bits buffered a take of 32 goes in two
pieces, where the peek is refused (R106, R107). -/
theorem peekThenTakeAgree : Obligations.PeekThenTakeAgree := by
  refine ⟨fun s t len v l hinv hl hpeek hresp => ?_,
    lastByteUnloaded, _, _, 32#32, 0x12345678#32, lastByteUnloaded_inv, rfl, by decide, rfl, _, rfl, by decide⟩
  obtain ⟨live, r, hf, hr⟩ := runReader_ok_inv hpeek hresp
  obtain ⟨dead, r'', ht, pos⟩ := takeField_of_peekField (hinv.readerOk live) hl hf
  subst hr
  exact ⟨_, runReader_ok (dead.trans live) ht, rfl, pos⟩

/-! ### The end of the stream (60_exceptions R183) -/

/-- What a command that needs `l` bits can answer, past its operand and admission checks: EndOfStream with fewer bits
left, and with `l` bits left its result or UnalignedPeek. -/
inductive BoundedByStream (len : Word) (l : Nat) (r : Reader) : Except Raised (Word × Reader) → Prop
  | exhausted (short : streamLeft r < l) :
      BoundedByStream len l r (.error (.endOfStream len (BitVec.ofNat 32 (streamLeft r))))
  | refused (enough : l ≤ streamLeft r) : BoundedByStream len l r (.error (unaligned r len))
  | completed (enough : l ≤ streamLeft r) (v : Word) (r' : Reader) : BoundedByStream len l r (.ok (v, r'))

theorem peekField_boundedByStream {len : Word} {l : Nat} {r : Reader} (h : ReaderOk r) (hl : OperandIs len l)
    (h1 : 1 ≤ l) (h32 : l ≤ 32) (admitted : l ≤ 24 ∨ WideAdmitted r.available) :
    BoundedByStream len l r (peekField len r) := by
  have res := peekField_result len r h
  generalize peekField len r = out at res ⊢
  cases res with
  | range out_of_range => simp only [OperandIs] at hl; omega
  | refused l' hl' =>
    have := hl'.unique hl
    simp only [WideAdmitted] at admitted
    omega
  | exhausted l' hl' _ _ _ short => exact .exhausted (hl'.unique hl ▸ short)
  | tooWide l' hl' _ _ _ enough => exact .refused (hl'.unique hl ▸ enough)
  | field l' v r' hl' _ _ _ enough => exact .completed (hl'.unique hl ▸ enough) v r'

theorem takeField_boundedByStream {len : Word} {l : Nat} {r : Reader} (h : ReaderOk r) (hl : OperandIs len l)
    (h1 : 1 ≤ l) (h32 : l ≤ 32) (admitted : l ≤ 24 ∨ WideAdmitted r.available) :
    BoundedByStream len l r (takeField len r) := by
  have res := takeField_result len r h
  generalize takeField len r = out at res ⊢
  cases res with
  | range out_of_range => simp only [OperandIs] at hl; omega
  | refused l' hl' =>
    have := hl'.unique hl
    simp only [WideAdmitted] at admitted
    omega
  | exhausted l' hl' _ _ _ short => exact .exhausted (hl'.unique hl ▸ short)
  | field l' v r' hl' _ _ _ enough => exact .completed (hl'.unique hl ▸ enough) v r'

theorem skipBits_boundedByStream {len : Word} {l : Nat} {r : Reader} (h : ReaderOk r) (hl : OperandIs len l)
    (h1 : 1 ≤ l) : BoundedByStream len l r (skipBits len r) := by
  have res := skipBits_result len r h
  generalize skipBits len r = out at res ⊢
  cases res with
  | range out_of_range => simp only [OperandIs] at hl; omega
  | exhausted l' hl' _ short => exact .exhausted (hl'.unique hl ▸ short)
  | moved l' r' hl' _ enough => exact .completed (hl'.unique hl ▸ enough) _ r'

/-- A read or skip that its operand and admission checks let pass is a reader command bounded by the stream. -/
theorem exec_boundedByStream {i : Instr} {len : Word} {l : Nat} {r : Reader} (h : ReaderOk r) (hl : OperandIs len l)
    (h1 : 1 ≤ l)
    (hi : (l ≤ 32 ∧ (l ≤ 24 ∨ WideAdmitted r.available) ∧ (i = .rPeek len ∨ i = .rTake len)) ∨ i = .rSkip len) :
    unitOf i = .reader ∧ ∃ f, exec i = runReader f ∧ BoundedByStream len l r (f r) := by
  rcases hi with ⟨h32, admitted, rfl | rfl⟩ | rfl
  · exact ⟨rfl, _, rfl, peekField_boundedByStream h hl h1 h32 admitted⟩
  · exact ⟨rfl, _, rfl, takeField_boundedByStream h hl h1 h32 admitted⟩
  · exact ⟨rfl, _, rfl, skipBits_boundedByStream h hl h1⟩

/-- With fewer bits left than asked, EndOfStream is the only answer. -/
theorem BoundedByStream.error_of_lt {len : Word} {l : Nat} {r : Reader} {out : Except Raised (Word × Reader)}
    (h : BoundedByStream len l r out) (short : streamLeft r < l) :
    out = .error (.endOfStream len (BitVec.ofNat 32 (streamLeft r))) := by
  cases h with
  | exhausted => rfl
  | refused enough => omega
  | completed enough => omega

/-- EndOfStream is answered only with fewer bits left than asked. -/
theorem BoundedByStream.lt_of_status {len : Word} {l : Nat} {r : Reader} {out : Except Raised (Word × Reader)}
    (h : BoundedByStream len l r out) (status : (replyOf out).status = 2#8) : streamLeft r < l := by
  cases h with
  | exhausted short => exact short
  | refused => simp [replyOf, unaligned, statusCode] at status
  | completed => simp [replyOf] at status

/-- A bit count below an operand's value fits the detail field `info_b` (60_exceptions R183). -/
theorem toNat_ofNat_of_lt_operand {len : Word} {l n : Nat} (hl : OperandIs len l) (h : n < l) :
    (BitVec.ofNat 32 n).toNat = n := by
  have := (toInt_eq_toNat hl).2
  rw [BitVec.toNat_ofNat]
  omega

/-- Settles O22, as each of the three commands is bounded by the stream. -/
theorem endOfStreamMeansTooFewBitsLeft : Obligations.EndOfStreamMeansTooFewBitsLeft := by
  intro s i len l hinv live hl h1 hi
  obtain ⟨unit, f, run, bounded⟩ := exec_boundedByStream (hinv.readerOk live) hl h1 hi
  refine ⟨fun short => ?_, fun t resp ht hresp status => ?_⟩
  · have ht : exec i s = .next (deliver _ s) := run ▸ runReader_error live (bounded.error_of_lt short)
    exact ⟨_, ht, exec_reader_frame unit ht, rfl, rfl, toNat_ofNat_of_lt_operand hl short⟩
  · obtain ⟨t', ht', reply⟩ := runReader_reply (f := f) live
    rw [run, ht'] at ht
    cases ht
    rw [reply] at hresp
    cases hresp
    exact bounded.lt_of_status status

/-! ### Skips (40_reader R110) -/

/-- `R.SKIP` completes when the stream has the bits (R110). -/
theorem skipBits_completes {len : Word} {l : Nat} {r : Reader} (h : ReaderOk r) (hl : OperandIs len l) (h1 : 1 ≤ l)
    (left : l ≤ streamLeft r) :
    ∃ r', skipBits len r = .ok (0#32, r') ∧ ReaderOk r' ∧ SameSource r r' ∧ posR r' = posR r + l ∧
      (l ≤ r.available → r' = drop l r) ∧
      (r.available ≤ l → (l - r.available) % 8 = 0 → r'.available = 0) ∧
      (r.available < l → (l - r.available) % 8 ≠ 0 → FilledThenDropped ((l - r.available) % 8) r') := by
  have res := skipBits_result len r h
  generalize skipBits len r = out at res ⊢
  cases res with
  | range out_of_range => simp only [OperandIs] at hl; omega
  | exhausted l' hl' => have := hl'.unique hl; omega
  | moved l' r' hl' _ _ ok same pos _ inside whole filled =>
    cases hl'.unique hl
    exact ⟨r', rfl, ok, same, pos, inside, whole, filled⟩

/-- Settles O23, by what a completed skip leaves. -/
theorem skipMovesThePosition : Obligations.SkipMovesThePosition := by
  intro s len l hinv live hl h1 left
  obtain ⟨r, hf, ok, same, pos, inside, whole, filled⟩ := skipBits_completes (hinv.readerOk live) hl h1 left
  refine ⟨r, runReader_ok live hf, pos, ok.inv, same.source, same.rsrclen, same.dead.trans live, fun ha => ?_, whole,
    filled⟩
  rw [inside ha]
  exact ⟨rfl, rfl⟩

/-! ### Alignment (40_reader R112, R113) -/

/-- The bits buffered and the position are a multiple of 8 together, as the cursor is on a byte (10_state R27). -/
theorem posR_aligned_iff {r : Reader} (h : ReaderOk r) : posR r % 8 = 0 ↔ r.available % 8 = 0 := by
  have := available_mod_eight h
  omega

/-- Settles O25, as the flag is read from the bits buffered. -/
theorem readerAlignmentQuery : Obligations.ReaderAlignmentQuery := by
  refine ⟨rfl, fun s hinv live => ?_⟩
  have aligned := posR_aligned_iff (hinv.readerOk live)
  have value : boolResult (readerAligned s.reader) = if posR s.reader % 8 = 0 then 1#32 else 0#32 := by
    simp only [boolResult, readerAligned, decide_eq_true_eq, aligned]
  rw [← value]
  exact ⟨runReader_ok (f := fun r => .ok (boolResult (readerAligned r), r)) live rfl, aligned⟩

/-- `R.BYTEALIGN` at a byte boundary is a no-op (R113). -/
theorem alignReader_of_aligned {r : Reader} (h : r.available % 8 = 0) : alignReader r = .ok (0#32, r) := by
  simp [alignReader, h]

/-- Settles O26: the bits dropped are those to the boundary, and there are none a second time. -/
theorem readerByteAlignment : Obligations.ReaderByteAlignment := by
  refine ⟨rfl, fun s hinv live => ?_⟩
  have distance := available_mod_eight (hinv.readerOk live)
  obtain ⟨r, hf, ok, same, pos, cursor, available⟩ := alignReader_spec s.reader (hinv.readerOk live)
  have aligned : r.available % 8 = 0 := by omega
  have dead : r.dead = false := same.dead.trans live
  rw [distance] at hf pos
  refine ⟨r, runReader_ok live hf, pos, (posR_aligned_iff ok).2 aligned, ok.inv, cursor, same.source, same.rsrclen, dead,
    fun t ht => ?_⟩
  subst ht
  exact runReader_ok dead (alignReader_of_aligned aligned)

end Sys2Proof.Machine
end

section
/-! SUPPORT. Where growth ends a write or a skip and where none is needed, the size each strategy gives (41_writer R131,
R133, R135, R138; 42_growth R162, R163, R166; 60_exceptions R186), and the commands that read or align the writer's cursor
alone (R140, R141, R143). -/

namespace Sys2Proof.Machine

/-! ### What growth leaves -/

theorem StorageKept.gsel_eq {w w' : Writer} (h : StorageKept w w') : w'.gsel = w.gsel := by
  obtain ⟨_, _, _, _, _, _, gsel, _⟩ := h
  exact gsel

theorem StorageKept.dead_eq {w w' : Writer} (h : StorageKept w w') : w'.dead = w.dead := by
  obtain ⟨_, _, _, _, _, _, _, dead⟩ := h
  exact dead

/-! ### What the writer and its strategy can hold -/

/-- Without storage there is no capacity (10_state R35). -/
theorem hasStorage_of_cap_pos {w : Writer} (h : 0 < cap w) : w.hasStorage = true := by
  unfold cap at h
  split at h
  · assumption
  · omega

/-- A writer holds the bytes up to its position (10_state R39). -/
theorem WriterOk.canHold_byteLength {maxCap : Nat} {w : Writer} (h : WriterOk maxCap w) (h1 : 1 ≤ byteLength w) :
    CanHold maxCap (byteLength w) w := by
  have hlen := h.length_le
  have hcap := h.capacity_eq
  exact .inl ⟨hasStorage_of_cap_pos (by omega), by omega⟩

/-- A position that a command of the writer reached is one its strategy could supply from the start. -/
theorem WriterOk.canHold_position {maxCap p : Nat} {w w' : Writer} (h : WriterOk maxCap w') (pos : posW w' = p)
    (hp : 1 ≤ p) (same : ∀ n, 1 ≤ n → (CanHold maxCap n w' ↔ CanHold maxCap n w)) : CanHold maxCap ((p + 7) / 8) w := by
  have hlen : byteLength w' = (p + 7) / 8 := by rw [byteLength_eq, pos]
  rw [← hlen]
  exact (same _ (by omega)).1 (h.canHold_byteLength (by omega))

/-- Storage with the bit before position `p` holds the bytes up to it, whatever the strategy. -/
theorem canHold_of_storage {maxCap p : Nat} {w : Writer} (hs : w.hasStorage = true) (hp : p ≤ 8 * cap w) :
    CanHold maxCap ((p + 7) / 8) w := by
  simp only [cap, hs, if_true] at hp
  exact .inl ⟨hs, by omega⟩

/-- One growth supplies every byte of the size it gives (42_growth R160, R166). -/
theorem canHold_of_grow {maxCap n new : Nat} {w : Writer} (hg : grow maxCap w = some new) (hn : 1 ≤ n) (hle : n ≤ new) :
    CanHold maxCap n w :=
  (canHold_replaceStorage hg hn).1 (.inl ⟨rfl, hle⟩)

/-! ### BufferOverflow (60_exceptions R186) -/

theorem toNat_neededCapacity {n : Nat} (h : n < 2 ^ 32) : (neededCapacity n).toNat = n := by
  rw [neededCapacity_of_lt h, BitVec.toNat_ofNat, Nat.mod_eq_of_lt h]

/-- A growth that fails ends the command with its two details, and the writer is dead (R186, R192). -/
theorem runWriter_overflow {f : Writer → Except Raised (Word × Writer)} {s : State} {idx : Nat} {w' : Writer}
    (live : s.writer.dead = false) (hf : f s.writer = .error (overflowAt idx w')) :
    ∃ t, runWriter f s = .next t ∧ OnlyWriterChanged s t ∧ t.writer.dead = true ∧
      t.response = some { status := 4#8, value := 0#32, infoA := neededCapacity (idx + 1),
                          infoB := BitVec.ofNat 32 (cap w') } :=
  ⟨deliver (overflowAt idx w') s, runWriter_error live hf, ⟨rfl, rfl, rfl, rfl⟩, rfl, rfl⟩

/-- Growth for `n` bytes ended at `w'`, short of them, because the strategy gets no further there (41_writer R131). -/
structure StoppedShort (maxCap n : Nat) (w w' : Writer) : Prop where
  stops : GrowthStopsAt maxCap (cap w') w
  kept : cap w ≤ cap w'
  short : cap w' < n

/-- `W.WRITE` fails where the strategy cannot supply the field's last byte: at the first chunk past the storage grown so
far, so that one byte more is needed (R133). -/
theorem writeField_overflows {maxCap wd : Nat} {width : Word} {w : Writer} (value : Word) (h : WriterOk maxCap w)
    (hwd : OperandIs width wd) (h1 : 1 ≤ wd) (h32 : wd ≤ 32) (cannot : ¬CanHold maxCap ((posW w + wd + 7) / 8) w) :
    ∃ w', writeField maxCap value width w = .error (overflowAt (cap w') w') ∧
      StoppedShort maxCap ((posW w + wd + 7) / 8) w w' := by
  have res := writeLoop_result maxCap value wd wd w h le_rfl
  unfold writeField
  simp only [fieldWidth_ok hwd h1 h32]
  rcases hl : writeLoop maxCap value wd wd w with e | w' <;> rw [hl] at res
  · cases res with
    | overflow idx w' kept full _ high fail _ _ grown limit =>
      obtain ⟨k, grown⟩ := grown
      exact ⟨w', by rw [full], grown.stops fail kept.gsel_eq limit, kept.1, by omega⟩
  · cases res with
    | written _ ok _ pos _ _ _ _ same => exact absurd (ok.canHold_position pos (by omega) same) cannot

/-- `W.SKIP` fails where the strategy cannot supply the last byte before the new position, and it needs that byte
(R138). -/
theorem skipField_overflows {maxCap wd : Nat} {width : Word} {w : Writer} (h : WriterOk maxCap w)
    (hwd : OperandIs width wd) (h1 : 1 ≤ wd) (cannot : ¬CanHold maxCap ((posW w + wd + 7) / 8) w) :
    ∃ w', skipField maxCap width w = .error (overflowAt ((posW w + wd + 7) / 8 - 1) w') ∧
      StoppedShort maxCap ((posW w + wd + 7) / 8) w w' := by
  have res := skipField_result maxCap width w h
  generalize skipField maxCap width w = out at res
  cases res with
  | range hneg =>
    simp only [OperandIs] at hwd
    omega
  | overflow wd' hwd' _ w' kept full fail _ _ grown limit =>
    cases hwd'.unique hwd
    obtain ⟨k, grown⟩ := grown
    exact ⟨w', rfl, grown.stops fail kept.gsel_eq limit, kept.1, by omega⟩
  | moved wd' hwd' _ w' ok _ pos _ _ _ same =>
    cases hwd'.unique hwd
    exact absurd (ok.canHold_position pos (by omega) same) cannot

/-- Settles O30, by where growth stops short in a write and in a skip. -/
theorem overflowWhenTheStrategyCannotSupply : Obligations.OverflowWhenTheStrategyCannotSupply := by
  intro s value width wd hinv live hwd h1 cannot
  have ok := hinv.writerOk live
  refine ⟨fun h32 => ?_, ?_⟩
  · obtain ⟨w', hf, stopped⟩ := writeField_overflows value ok hwd h1 h32 cannot
    obtain ⟨t, he, frame, dead, hresp⟩ := runWriter_overflow live hf
    exact ⟨t, cap w', _, he, frame, dead, hresp, stopped.stops, stopped.kept, stopped.short, toNat_neededCapacity⟩
  · obtain ⟨w', hf, stopped⟩ := skipField_overflows ok hwd h1 cannot
    obtain ⟨t, he, frame, dead, hresp⟩ := runWriter_overflow live hf
    rw [show (posW s.writer + wd + 7) / 8 - 1 + 1 = (posW s.writer + wd + 7) / 8 by omega] at hresp
    exact ⟨t, cap w', _, he, frame, dead, hresp, stopped.stops, stopped.kept, stopped.short, toNat_neededCapacity⟩

/-! ### Lazy growth (41_writer R131, R135) -/

/-- What the loop of `W.WRITE` has written inside the storage there was did not grow it. -/
theorem WriteResult.cap_eq {maxCap wd : Nat} {v : Word} {w w' : Writer} (hs : w.hasStorage = true)
    (fits : posW w + wd ≤ 8 * cap w) (res : WriteResult maxCap v wd w (.ok w')) : cap w' = cap w := by
  cases res with
  | written _ _ _ _ _ _ lazy => exact lazy hs (by simpa only [cap, hs, if_true] using fits)

/-- A skip inside the storage there is moves the cursor alone (R138). -/
theorem skipField_inside {maxCap wd : Nat} {width : Word} {w : Writer} (h : WriterOk maxCap w)
    (hwd : OperandIs width wd) (h1 : 1 ≤ wd) (hs : w.hasStorage = true) (fits : posW w + wd ≤ 8 * cap w) :
    skipField maxCap width w = .ok (0#32, atPosition (posW w + wd) w) := by
  obtain ⟨w', hf⟩ := skipField_completes h hwd h1 (canHold_of_storage hs fits)
  have res := skipField_result maxCap width w h
  rw [hf] at res
  cases res with
  | moved wd' hwd' _ _ _ _ _ _ lazy =>
    cases hwd'.unique hwd
    rw [hf, lazy hs (by simpa only [cap, hs, if_true] using fits)]

/-- Settles O31: the storage holds what is asked for, and ENSURE leaves it as it is. -/
theorem growthOnlyWhenNeeded : Obligations.GrowthOnlyWhenNeeded := by
  intro s value width wd hinv live hwd h1 hs fits
  have ok := hinv.writerOk live
  refine ⟨fun h32 => ?_, atPosition (posW s.writer + wd) s.writer, ?_, rfl, posW_atPosition _ _⟩
  · obtain ⟨w', hf, res⟩ := writeField_completes value ok hwd h1 h32 (canHold_of_storage hs fits)
    exact ⟨_, runWriter_ok live hf, res.cap_eq hs fits, rfl⟩
  · exact runWriter_ok live (skipField_inside ok hwd h1 hs fits)

/-! ### The strategies' sizes (42_growth R162, R163, R166) -/

/-- The sizes of DOUBLING and CHUNKED in terms of the capacity, which is 0 without storage (R162, R163). -/
theorem strategySize_of_sizes {w : Writer} {new : Nat}
    (h : (w.gsel = .doubling ∧ new = (if w.hasStorage then max (2 * cap w) 1 else w.wdefcap.toNat)) ∨
      (w.gsel = .chunked ∧ new = cap w + w.wchunk.toNat)) : strategySize w = some new := by
  rcases h with ⟨hg, rfl⟩ | ⟨hg, rfl⟩ <;> cases hs : w.hasStorage <;> simp [strategySize, hg, hs, cap]

/-- GROW gives the strategy's size, or fails above `MAX_CAP` (R160, R166). -/
theorem grow_of_strategySize {maxCap new : Nat} {w : Writer} (h : strategySize w = some new) :
    grow maxCap w = if new > maxCap then none else some new := by
  simp only [grow, h]

/-- The first size with the byte just past the storage is the strategy's next size, where that is larger (41_writer
R135). -/
theorem FirstSizeFor.eq_strategySize {c new : Nat} {w : Writer} (h : FirstSizeFor (cap w + 1) c w)
    (hsize : strategySize w = some new) (hlt : cap w < new) : c = new := by
  obtain ⟨hc, k, hk, below⟩ := h
  have h1 := strategySize_eq hsize
  rcases k with _ | _ | k
  · have : sizeAfter w 0 = cap w := rfl
    omega
  · rw [hk, ← h1]
  · have := below 1 (by omega)
    omega

/-- Settles O32: one growth is enough for the byte just past the storage, so the write ends at the strategy's next size, or
fails with the capacity it began with. -/
theorem growthSizes : Obligations.GrowthSizes := by
  intro s value width wd new hinv live hwd h1 h8 atEnd sizes hlt
  have ok := hinv.writerOk live
  have hsize := strategySize_of_sizes sizes
  have hn : (posW s.writer + wd + 7) / 8 = cap s.writer + 1 := by omega
  refine ⟨fun within => ?_, fun above => ?_⟩
  · have hg : grow s.maxCap.toNat s.writer = some new := by rw [grow_of_strategySize hsize, if_neg (by omega)]
    have hold : CanHold s.maxCap.toNat ((posW s.writer + wd + 7) / 8) s.writer :=
      canHold_of_grow hg (by omega) (by omega)
    obtain ⟨w', hf, res⟩ := writeField_completes value ok hwd h1 (by omega) hold
    have first := res.firstSizeFor h1
    rw [hn] at first
    have hcap : cap w' = new := first.eq_strategySize hsize hlt
    obtain ⟨kept, _, _, old, _⟩ := res.effect ok
    exact ⟨_, runWriter_ok live hf, hcap, hasStorage_of_cap_pos (by omega : 0 < cap w'), kept.dead_eq.trans live, rfl,
      fun a ha => old a ha (.inl (by omega))⟩
  · have hg : grow s.maxCap.toNat s.writer = none := by rw [grow_of_strategySize hsize, if_pos above]
    have cannot : ¬CanHold s.maxCap.toNat ((posW s.writer + wd + 7) / 8) s.writer := by
      intro hold
      have hcap := ok.capacity_eq
      obtain ⟨new', hsome, _⟩ := hold.grow (by omega) (.inr (by omega))
      rw [hg] at hsome
      cases hsome
    obtain ⟨w', hf, stopped⟩ := writeField_overflows value ok hwd h1 (by omega) cannot
    have hcap : cap w' = cap s.writer := by
      have := stopped.kept
      have := stopped.short
      omega
    obtain ⟨t, he, _, dead, hresp⟩ := runWriter_overflow live hf
    rw [hcap] at hresp
    exact ⟨t, _, he, dead, hresp, toNat_neededCapacity⟩

/-! ### Alignment and length (41_writer R140, R141, R143) -/

/-- The writer is aligned at the positions that are a multiple of 8 (10_state R37). -/
theorem writerAligned_eq (w : Writer) : writerAligned w = decide (posW w % 8 = 0) := by
  have := w.bitOffset.isLt
  refine decide_eq_decide.2 ?_
  rw [Fin.ext_iff, Fin.val_zero, posW]
  omega

/-- Settles O35, as the flag is read from the bit offset. -/
theorem writerAlignmentQuery : Obligations.WriterAlignmentQuery := by
  refine ⟨rfl, fun s live => ?_⟩
  have value : boolResult (writerAligned s.writer) = if posW s.writer % 8 = 0 then 1#32 else 0#32 := by
    simp only [boolResult, writerAligned_eq, decide_eq_true_eq]
  rw [← value]
  exact runWriter_ok (f := fun w => .ok (boolResult (writerAligned w), w)) live rfl

/-- `W.BYTEALIGN` changes the cursor alone (R141). -/
theorem alignWriter_cursor_only {v : Word} {w w' : Writer} (h : alignWriter w = .ok (v, w')) :
    w' = { w with cursorByte := w'.cursorByte, bitOffset := w'.bitOffset } := by
  cases h
  split <;> rfl

/-- `W.BYTEALIGN` at a byte boundary is a no-op (R141). -/
theorem alignWriter_of_aligned {w : Writer} (h : posW w % 8 = 0) : alignWriter w = .ok (0#32, w) := by
  have hoffset : w.bitOffset.val = 0 := by
    have := w.bitOffset.isLt
    simp only [posW] at h
    omega
  simp [alignWriter, hoffset]

/-- Settles O36: the cursor moves to the boundary, where a second alignment is a no-op. -/
theorem writerByteAlignment : Obligations.WriterByteAlignment := by
  refine ⟨rfl, fun s hinv live => ?_⟩
  obtain ⟨w, hf, ok, kept, pos, _, _, _, length⟩ := alignWriter_spec _ _ (hinv.writerOk live)
  have aligned : posW w % 8 = 0 := by omega
  refine ⟨w, runWriter_ok live hf, alignWriter_cursor_only hf, pos, aligned, length, ok.inv, fun t ht => ?_⟩
  subst ht
  exact runWriter_ok (kept.dead_eq.trans live) (alignWriter_of_aligned aligned)

/-- Settles O37: `byteLength` is at most `MAX_CAP`, so that its 32-bit form is the number itself. -/
theorem byteLengthIsAnswered : Obligations.ByteLengthIsAnswered := by
  refine ⟨rfl, fun s hinv live => ?_⟩
  have ok := hinv.writerOk live
  have fits : byteLength s.writer < 2 ^ 32 := (ok.length_le.trans ok.cap_le).trans_lt s.maxCap.isLt
  have value : (BitVec.ofNat 32 (byteLength s.writer)).toNat = byteLength s.writer := by
    rw [BitVec.toNat_ofNat, Nat.mod_eq_of_lt fits]
  exact ⟨_, runWriter_ok (f := fun w => .ok (BitVec.ofNat 32 (byteLength w), w)) live rfl, value,
    value.trans (byteLength_eq _)⟩

end Sys2Proof.Machine
end

section
/-! SUPPORT. The strategy that never grows, and what REPLACE keeps (42_growth R164, R167; 60_exceptions R186). -/

namespace Sys2Proof.Machine

/-! ### UNSUPPORTED (42_growth R164) -/

/-- UNSUPPORTED has one size, the capacity there is (R164). -/
theorem sizeAfter_unsupported {w : Writer} (hg : w.gsel = .unsupported) (k : Nat) : sizeAfter w k = cap w := by
  induction k with
  | zero => rfl
  | succ k ih => simp only [sizeAfter, hg, ih]

/-- So its growth ends where it began (R164, 60_exceptions R186). -/
theorem GrowthStopsAt.eq_cap_of_unsupported {maxCap c : Nat} {w : Writer} (h : GrowthStopsAt maxCap c w)
    (hg : w.gsel = .unsupported) : c = cap w := by
  obtain ⟨_, k, hk, _⟩ := h
  rw [hk, sizeAfter_unsupported hg]

/-- A writer that cannot grow holds no byte past its capacity (R164). -/
theorem CanHold.le_cap_of_unsupported {maxCap n : Nat} {w : Writer} (h : CanHold maxCap n w)
    (hg : w.gsel = .unsupported) : n ≤ cap w := by
  rcases h with ⟨hs, hn⟩ | ⟨doubling, _⟩ | ⟨chunked, _⟩
  · simpa only [cap, hs, if_true] using hn
  · cases hg.symm.trans doubling
  · cases hg.symm.trans chunked

/-- Settles O33 from O30: the strategy cannot supply the last byte, and the size it gets no further from is the capacity
there is. -/
theorem unsupportedNeverGrows : Obligations.UnsupportedNeverGrows := by
  intro s value width wd hinv live hg hwd h1 past
  have cannot : ¬CanHold s.maxCap.toNat ((posW s.writer + wd + 7) / 8) s.writer := by
    intro hold
    have := hold.le_cap_of_unsupported hg
    omega
  obtain ⟨write, skip⟩ := overflowWhenTheStrategyCannotSupply s value width wd hinv live hwd h1 cannot
  refine ⟨fun h32 => ?_, ?_⟩
  · obtain ⟨t, c, needed, he, frame, dead, hresp, stops, _, _, hneeded⟩ := write h32
    cases stops.eq_cap_of_unsupported hg
    exact ⟨t, needed, he, frame, dead, hresp, hneeded⟩
  · obtain ⟨t, c, needed, he, frame, dead, hresp, stops, _, _, hneeded⟩ := skip
    cases stops.eq_cap_of_unsupported hg
    exact ⟨t, needed, he, frame, dead, hresp, hneeded⟩

/-! ### REPLACE (42_growth R167) -/

/-- Settles O34, by which side of the old capacity an index is on. -/
theorem contentSurvivesGrowth : Obligations.ContentSurvivesGrowth := by
  intro w new hle
  refine ⟨fun a old => ?_, fun a added inside => ?_, replaceStorage_cap new w, rfl⟩
  · rw [readSto_replaceStorage, if_pos (old.trans_le hle), if_pos old, readSto_eq old]
  · rw [readSto_replaceStorage, if_pos inside, if_neg added.not_gt]

end Sys2Proof.Machine
end

section
/-! SUPPORT. Errors (60_exceptions): what a completed command can answer and the state it leaves, said once for all
commands from every state (R180, R195), and from it which error each command raises, what an error leaves as it was (R191)
and which unit dies of it (R192); the operand checks (R182, R187) and illegal opcodes (R189). -/

namespace Sys2Proof.Machine

/-! ### The errors of each unit's operations (R195) -/

theorem ReaderAnswer.status_mem {r : Reader} {e : Raised} (h : ReaderAnswer r (.error e)) :
    statusCode e ∈ [1#8, 2#8, 3#8] := by
  cases h <;> simp [statusCode]

theorem WriterAnswer.status_mem {w : Writer} {e : Raised} (h : WriterAnswer w (.error e)) :
    statusCode e ∈ [1#8, 4#8] := by
  cases h <;> simp [statusCode]

/-- A skip has no width, so it never raises UnalignedPeek (40_reader R110). -/
theorem skipBits_status_mem {len : Word} {r : Reader} {e : Raised} (h : skipBits len r = .error e) :
    statusCode e ∈ [1#8, 2#8] := by
  unfold skipBits at h
  rcases skipLength_cases len with ⟨hw, _⟩ | ⟨l, hw, _⟩ <;> simp only [hw] at h
  · cases h
    exact List.mem_cons_self
  rcases skipRest_answer len (streamLeft r) (l - min l r.available) (drop (min l r.available) r) with
    ⟨r', hs, _⟩ | hs <;> simp only [hs] at h <;> cases h
  simp [statusCode]

/-! ### The table of allowed errors (R195) -/

/-- Every command may succeed. -/
theorem zero_mem_allowedStatus (i : Instr) : 0#8 ∈ allowedStatus i := by
  cases i <;> exact List.mem_cons_self

/-- EndOfStream stands in the rows of reader commands alone. -/
theorem unitOf_of_endOfStream_allowed {i : Instr} (h : 2#8 ∈ allowedStatus i) : unitOf i = .reader := by
  cases i
  case rPeek | rTake | rSkip | rIsAligned | rByteAlign => rfl
  all_goals exact absurd h (by simp [allowedStatus])

/-- BufferOverflow stands in the rows of writer commands alone. -/
theorem unitOf_of_bufferOverflow_allowed {i : Instr} (h : 4#8 ∈ allowedStatus i) : unitOf i = .writer := by
  cases i
  case wWrite | wSkip | wIsAligned | wByteAlign | wByteLength | wCopyTo => rfl
  all_goals exact absurd h (by simp [allowedStatus])

/-! ### What a completed command leaves -/

/-- What a command that completes can leave, from any state: a result and its unit, as dead as it was; a result and a new
`DST`; or one of the errors R195 allows the command, taken. -/
inductive CommandResult (i : Instr) (s : State) : State → Prop
  | reader (v : Word) {r : Reader} (dead : r.dead = s.reader.dead) :
      CommandResult i s (answer (okResponse v) { s with reader := r })
  | writer (v : Word) {w : Writer} (dead : w.dead = s.writer.dead) :
      CommandResult i s (answer (okResponse v) { s with writer := w })
  | copied (v : Word) (d : Memory) : CommandResult i s (answer (okResponse v) { s with dst := d })
  | error {e : Raised} (allowed : statusCode e ∈ allowedStatus i) : CommandResult i s (deliver e s)

theorem runReader_commandResult {f : Reader → Except Raised (Word × Reader)} {i : Instr} {s t : State}
    (hf : ReaderAnswer s.reader (f s.reader)) (herr : ∀ e, f s.reader = .error e → statusCode e ∈ allowedStatus i)
    (h : runReader f s = .next t) : CommandResult i s t := by
  rcases runReader_cases f s with ⟨_, hr⟩ | ⟨_, v, r, hok, hr⟩ | ⟨_, e, he, hr⟩ <;> rw [hr] at h <;> cases h
  · rw [hok] at hf
    obtain ⟨_, same⟩ := hf
    exact .reader v same.dead
  · exact .error (herr e he)

theorem runWriter_commandResult {f : Writer → Except Raised (Word × Writer)} {i : Instr} {s t : State}
    (hf : WriterAnswer s.writer (f s.writer)) (herr : ∀ e, f s.writer = .error e → statusCode e ∈ allowedStatus i)
    (h : runWriter f s = .next t) : CommandResult i s t := by
  rcases runWriter_cases f s with ⟨_, hr⟩ | ⟨_, v, w, hok, hr⟩ | ⟨_, e, he, hr⟩ <;> rw [hr] at h <;> cases h
  · rw [hok] at hf
    obtain ⟨_, kept⟩ := hf
    exact .writer v kept.dead_eq
  · exact .error (herr e he)

theorem execWCopyTo_commandResult {offset dlen : Word} {s t : State} (h : execWCopyTo offset dlen s = .next t) :
    CommandResult (.wCopyTo offset dlen) s t := by
  rcases execWCopyTo_cases offset dlen s with ⟨_, hr⟩ | ⟨_, _, hr⟩ | ⟨_, _, _, hr⟩ | ⟨_, _, _, hr⟩ <;>
    rw [hr] at h <;> cases h
  · exact .error (by simp [noSpace, statusCode, allowedStatus])
  · exact .copied _ _

theorem exec_commandResult {i : Instr} {s t : State} (h : exec i s = .next t) : CommandResult i s t := by
  cases i
  case rPeek len =>
    have answered := peekField_answer len s.reader
    exact runReader_commandResult answered (fun e he => .tail _ (he ▸ answered).status_mem) h
  case rTake len =>
    have answered := takeField_answer len s.reader
    exact runReader_commandResult answered (fun e he => .tail _ (he ▸ answered).status_mem) h
  case rSkip len =>
    exact runReader_commandResult (skipBits_answer len s.reader) (fun e he => .tail _ (skipBits_status_mem he)) h
  case rIsAligned =>
    exact runReader_commandResult (f := fun r => .ok (boolResult (readerAligned r), r)) (.ok _ (.rfl' s.reader)) nofun h
  case rByteAlign => exact runReader_commandResult (alignReader_answer s.reader) nofun h
  case wWrite value width =>
    have answered := writeField_answer s.maxCap.toNat value width s.writer
    exact runWriter_commandResult answered (fun e he => .tail _ (he ▸ answered).status_mem) h
  case wSkip width =>
    have answered := skipField_answer s.maxCap.toNat width s.writer
    exact runWriter_commandResult answered (fun e he => .tail _ (he ▸ answered).status_mem) h
  case wIsAligned =>
    exact runWriter_commandResult (f := fun w => .ok (boolResult (writerAligned w), w)) (.ok _ (.rfl' s.writer)) nofun h
  case wByteAlign => exact runWriter_commandResult (alignWriter_answer s.writer) nofun h
  case wByteLength =>
    exact runWriter_commandResult (f := fun w => .ok (BitVec.ofNat 32 (byteLength w), w)) (.ok _ (.rfl' s.writer)) nofun h
  case wCopyTo offset dlen => exact execWCopyTo_commandResult h

/-- Settles O41: a result has the status of success, and an error is one of its command's. -/
theorem errorsOfEachCommand : Obligations.ErrorsOfEachCommand := by
  intro i s t h
  cases exec_commandResult h with
  | reader | writer | copied => exact ⟨_, rfl, zero_mem_allowedStatus i⟩
  | error allowed => exact ⟨_, rfl, allowed⟩

/-! ### The errors that change nothing (R182, R187, R191) -/

/-- Taking an error that kills no unit gives its response and takes the event, and nothing else (R191). -/
theorem deliver_of_local {e : Raised} (h : statusCode e ∈ [1#8, 3#8, 5#8, 6#8]) (s : State) :
    deliver e s = answer (errorResponse e) s := by
  rcases errorEffect_cases e s with ⟨he, _⟩ | ⟨_, hc⟩ | ⟨_, hc⟩
  · rw [deliver, he]
  · exact absurd h (by simp [hc])
  · exact absurd h (by simp [hc])

/-- An illegal opcode that is not refused is answered (R189). -/
theorem runIllegal_next {op : BitVec 8} {s t : State} (h : runIllegal op s = .next t) :
    t = deliver (.illegalCommand (zext32 op)) s := by
  unfold runIllegal at h
  split at h <;> split at h <;> cases h <;> rfl

/-- A command word either decodes to a command, which leaves one of its results, or is answered as illegal
(30_encoding R79, R80). -/
theorem step_command_cases {s t : State} {w : CommandWord} {rest : List HostEvent} (h : s.host = .command w :: rest)
    (ht : step s = .next t) :
    (∃ i, CommandResult i s t) ∨ t = deliver (.illegalCommand (zext32 (opField w))) s := by
  by_cases hop : opField w ∈ opcodeMap
  · obtain ⟨i, hi⟩ := exists_opcodeOf_of_mem hop
    rw [step_of_decode h (decode_of_opcode hi.symm)] at ht
    exact .inl ⟨_, exec_commandResult ht⟩
  · rw [step_of_illegal h hop] at ht
    exact .inr (runIllegal_next ht)

/-- The next state of an error that kills no unit, by the response it gives (R191). -/
theorem deliver_eq_of_local_status {e : Raised} {s : State} {resp : Response} {event : HostEvent}
    {rest : List HostEvent} (h : s.host = event :: rest) (hresp : (deliver e s).response = some resp)
    (status : resp.status ∈ [1#8, 3#8, 5#8, 6#8]) : deliver e s = { s with response := some resp, host := rest } := by
  cases hresp
  rw [deliver_of_local status, answer, h, List.tail_cons]

/-- Settles O43: a success has none of the four statuses, and an error with one of them is taken without effect. -/
theorem localErrorsChangeNothing : Obligations.LocalErrorsChangeNothing := by
  intro s t w rest resp h ht hresp status
  rcases step_command_cases h ht with ⟨i, result⟩ | rfl
  · cases result with
    | reader | writer | copied =>
      cases hresp
      exact absurd status (by simp)
    | error => exact deliver_eq_of_local_status h hresp status
  · exact deliver_eq_of_local_status h hresp status

/-- The space left for a copy, as the 32-bit detail gives it (R187). -/
theorem ofNat_space (offset dlen : Word) :
    BitVec.ofNat 32 (dlen.toNat - offset.toNat) = if offset.toNat ≤ dlen.toNat then dlen - offset else 0#32 := by
  split
  case isTrue hle =>
    apply BitVec.eq_of_toNat_eq
    rw [BitVec.toNat_sub_of_le hle, BitVec.toNat_ofNat, Nat.mod_eq_of_lt (by omega)]
  case isFalse hgt => rw [Nat.sub_eq_zero_of_le (by omega)]

/-- Settles O39: of what `W.COPYTO` can do, only the error of the space check is left, and it is taken without effect. -/
theorem copyToWithoutSpace : Obligations.CopyToWithoutSpace := by
  intro s offset dlen live short
  rw [← ofNat_space]
  rcases execWCopyTo_cases offset dlen s with ⟨dead, _⟩ | ⟨_, _, answered⟩ | ⟨_, fits, _⟩ | ⟨_, fits, _⟩
  · exact absurd (dead.symm.trans live) nofun
  · exact answered
  · exact absurd short fits.not_gt
  · exact absurd short fits.not_gt

/-! The operand check comes first in each of the five commands with a range (R182). -/

theorem peekField_out_of_range {x : Word} (h : x.toInt ≤ 0 ∨ 32 < x.toInt) (r : Reader) :
    peekField x r = .error (.rangeError x) := by
  simp only [peekField, fieldWidth_error h]

theorem takeField_out_of_range {x : Word} (h : x.toInt ≤ 0 ∨ 32 < x.toInt) (r : Reader) :
    takeField x r = .error (.rangeError x) := by
  simp only [takeField, fieldWidth_error h]

theorem skipBits_out_of_range {x : Word} (h : x.toInt ≤ 0) (r : Reader) : skipBits x r = .error (.rangeError x) := by
  simp only [skipBits, skipLength_error h]

theorem writeField_out_of_range {x : Word} (h : x.toInt ≤ 0 ∨ 32 < x.toInt) (maxCap : Nat) (value : Word) (w : Writer) :
    writeField maxCap value x w = .error (.rangeError x) := by
  simp only [writeField, fieldWidth_error h]

theorem skipField_out_of_range {x : Word} (h : x.toInt ≤ 0) (maxCap : Nat) (w : Writer) :
    skipField maxCap x w = .error (.rangeError x) := by
  simp only [skipField, skipLength_error h]

/-- Settles O40: the command ends at its operand check, and RangeError is taken without effect. -/
theorem rangeErrors : Obligations.RangeErrors := by
  intro s x value
  refine ⟨fun live out i hi => ?_, fun live out => ?_, fun live out => ?_, fun live out => ?_⟩
  · simp only [List.mem_cons, List.not_mem_nil, or_false] at hi
    rcases hi with rfl | rfl
    · exact runReader_error live (peekField_out_of_range out s.reader)
    · exact runReader_error live (takeField_out_of_range out s.reader)
  · exact runReader_error live (skipBits_out_of_range out s.reader)
  · exact runWriter_error live (writeField_out_of_range out s.maxCap.toNat value s.writer)
  · exact runWriter_error live (skipField_out_of_range out s.maxCap.toNat s.writer)

/-! ### The errors that kill a unit (R192) -/

theorem errorEffect_eq_killReader {e : Raised} (h : statusCode e = 2#8) (s : State) : errorEffect e s = killReader s := by
  cases e
  case endOfStream => rfl
  all_goals cases h

theorem errorEffect_eq_killWriter {e : Raised} (h : statusCode e = 4#8) (s : State) : errorEffect e s = killWriter s := by
  cases e
  case bufferOverflow => rfl
  all_goals cases h

theorem CommandResult.reader_dead_of_endOfStream {i : Instr} {s t : State} {resp : Response} (h : CommandResult i s t)
    (hresp : t.response = some resp) (status : resp.status = 2#8) : unitOf i = .reader ∧ t.reader.dead = true := by
  cases h <;> cases hresp
  case error e allowed =>
    refine ⟨unitOf_of_endOfStream_allowed (status ▸ allowed), ?_⟩
    rw [deliver_reader, errorEffect_eq_killReader status, killReader_dead]
  all_goals cases status

theorem CommandResult.writer_dead_of_bufferOverflow {i : Instr} {s t : State} {resp : Response}
    (h : CommandResult i s t) (hresp : t.response = some resp) (status : resp.status = 4#8) :
    unitOf i = .writer ∧ t.writer.dead = true := by
  cases h <;> cases hresp
  case error e allowed =>
    refine ⟨unitOf_of_bufferOverflow_allowed (status ▸ allowed), ?_⟩
    rw [deliver_writer, errorEffect_eq_killWriter status, killWriter_dead]
  all_goals cases status

theorem CommandResult.reader_dead_eq {i : Instr} {s t : State} {resp : Response} (h : CommandResult i s t)
    (hresp : t.response = some resp) (status : resp.status ≠ 2#8) : t.reader.dead = s.reader.dead := by
  cases h with
  | reader v dead => exact dead
  | writer | copied => rfl
  | error =>
    cases hresp
    rw [deliver_reader, errorEffect_reader status]

theorem CommandResult.writer_dead_eq {i : Instr} {s t : State} {resp : Response} (h : CommandResult i s t)
    (hresp : t.response = some resp) (status : resp.status ≠ 4#8) : t.writer.dead = s.writer.dead := by
  cases h with
  | writer v dead => exact dead
  | reader | copied => rfl
  | error =>
    cases hresp
    rw [deliver_writer, errorEffect_writer status]

/-- Every command of a dead reader is refused (R192). -/
theorem exec_of_dead_reader {i : Instr} {s : State} (hi : unitOf i = .reader) (dead : s.reader.dead = true) :
    exec i s = .refused .deadReader := by
  obtain ⟨f, hf⟩ := exec_reader hi
  rw [hf]
  exact if_pos dead

/-- Every command of a dead writer is refused (R192). -/
theorem exec_of_dead_writer {i : Instr} {s : State} (hi : unitOf i = .writer) (dead : s.writer.dead = true) :
    exec i s = .refused .deadWriter := by
  rcases exec_writer hi with ⟨offset, dlen, rfl⟩ | ⟨f, hf⟩
  · exact if_pos dead
  · rw [hf]
    exact if_pos dead

/-- Settles O44: the two errors that kill belong to one unit each, and every other result keeps both dead marks. -/
theorem fatalErrorsKillTheUnit : Obligations.FatalErrorsKillTheUnit := by
  refine ⟨fun i s t resp h hresp => ?_, fun i s => ⟨exec_of_dead_reader, exec_of_dead_writer⟩⟩
  have result := exec_commandResult h
  exact ⟨result.reader_dead_of_endOfStream hresp, result.writer_dead_of_bufferOverflow hresp,
    result.reader_dead_eq hresp, result.writer_dead_eq hresp⟩

/-! ### Illegal opcodes at live units (R189) -/

/-- The unit an illegal opcode selects answers it when it is alive; of an opcode that selects none, either does. -/
theorem runIllegal_of_live {op : BitVec 8} {s : State}
    (hr : op.toNat ≤ 0x0F ∨ 0x20 ≤ op.toNat → s.reader.dead = false) (hw : 0x10 ≤ op.toNat → s.writer.dead = false) :
    runIllegal op s = .next (deliver (.illegalCommand (zext32 op)) s) := by
  have hunit := selectedUnit_eq op
  unfold runIllegal
  split at hunit
  case isTrue low => simp only [hunit, hr (.inl low), Bool.false_eq_true, if_false]
  case isFalse high =>
    split at hunit
    case isTrue => simp only [hunit, hw (by omega), Bool.false_eq_true, if_false]
    case isFalse =>
      simp only [hunit, hr (.inr (by omega)), Bool.false_and, Bool.false_eq_true, if_false]

/-- Settles O5: the word is outside the map, and the unit it selects is there to answer it. -/
theorem illegalCommandIsAnswered : Obligations.IllegalCommandIsAnswered := by
  intro s w rest h hr hw illegal
  rw [step_of_illegal h ((not_mem_opcodeMap_iff _).2 illegal), runIllegal_of_live hr hw, deliver_illegalCommand h]

end Sys2Proof.Machine
end
